-- ==== Sys2Proof/Word.lean ====
section
/-! DEFINITION. The values the engine moves: bytes and levels (spec/00_scope.md R11, R13, R14). -/

namespace Sys2Proof

/-- An 8-bit value: a data byte, a byte address, a device byte (R11). Bit 7 is the most significant (R13). -/
abbrev Byte := BitVec 8

/-- A 1-bit level: `true` is logic high, 1; `false` is logic low, 0 (R14). -/
abbrev Level := Bool

end Sys2Proof
end

