-- ==== Sys2Proof/Config.lean ====
section
/-! DEFINITION. What an implementation fixes (spec/00_scope.md R10) and the free values: what the spec leaves
unspecified after an operation that goes on (spec/93_implementation_defined.md U1, U9, U10). -/

namespace Sys2Proof

/-- The four OPEN parameters of R10. State carries one value of this type, which no step writes, so that a claim
about every state is a claim about every choice of the parameters (log 1, DESIGN CHOICE). -/
structure Config where
  /-- `NLINES`: the number of lines in the register model, at least 2. -/
  nlines : Nat
  /-- `T_INIT`: the iteration bound of INIT's poll. -/
  tInit : Nat
  /-- `T_ACK`: the iteration bound of every WAIT_ACK the commands issue. -/
  tAck : Nat
  /-- `T_NACK`: the iteration bound of every WAIT_NACK the commands issue. -/
  tNack : Nat
deriving DecidableEq, Repr

/-- The values spec/95_test_vectors.md uses unless a vector says otherwise (log 1, DESIGN CHOICE: R10 leaves all four
OPEN). -/
def Config.vectors : Config := { nlines := 32, tInit := 3, tAck := 3, tNack := 3 }

/-- U1: the pad level while a line is driven high against an external low. Free value: applied to the count of changes
of DIR, OUT and EXT_LOW so far, and to the line, so two samples with no change between them agree (R51). Log 6. -/
opaque Config.contentionLevel : Nat → Nat → Level

/-- U9: RBYTE after any command but a successful READ_BYTE. Free value, applied to the count of draws so far. Log 8. -/
opaque Config.freeByte : Nat → Byte

/-- R30, U10: RBUF after a command that failed, its length included. Free value, applied to the count of draws so far.
Log 8. -/
opaque Config.freeBytes : Nat → List Byte

end Sys2Proof
end

