-- ==== Sys2Proof/Syntax.lean ====
section
/-! DEFINITION. The operations of the engine as data, one constructor per row of spec/opcode_table.json
(spec/30_encoding.md R80), and the three packet formats in which they can be encoded (R81 to R85). -/

namespace Sys2Proof

/-- A line's direction (R14): `float`, the engine does not drive the line; `drive`, it drives the output latch. -/
inductive Direction where
  | float
  | drive
deriving DecidableEq, Repr

/-- The Device Descriptor (spec/10_state.md R27). `base` holds the 7-bit bus address left-aligned
(spec/90_conflicts.md C1). -/
structure Descriptor where
  scl : Nat
  sda : Nat
  base : Byte
  pageOff : Byte
deriving DecidableEq, Repr

/-- Which of the four commands (spec/30_encoding.md R82, field `op`). -/
inductive CmdOp where
  | writeByte
  | writePage
  | readByte
  | readPage
deriving DecidableEq, Repr

/-- The seventeen operations of R80, with the operands R80 names. -/
inductive Instr where
  /-- REGSET `l`, `f` (R50). -/
  | regset (l : Nat) (f : Direction)
  /-- REGIN `l` (R51). -/
  | regin (l : Nat)
  /-- DRIVE `l`, `v` (R110). -/
  | drive (l : Nat) (v : Level)
  /-- START (R121). -/
  | start
  /-- STOP (R123). -/
  | stop
  /-- INIT (R125); its bound is the parameter `T_INIT`. -/
  | init
  /-- SHIFT_OUT `b` (R140). -/
  | shiftOut (b : Byte)
  /-- SHIFT_IN (R143). -/
  | shiftIn
  /-- WAIT_ACK `T` (R150). -/
  | waitAck (t : Nat)
  /-- WAIT_NACK `T` (R153). -/
  | waitNack (t : Nat)
  /-- MASTER_ACK (R156). -/
  | masterAck
  /-- SEND_DEV_ADDR `d`, `rw` (R170); `rw` false is write, true is read (R95). -/
  | sendDevAddr (d : Byte) (rw : Bool)
  /-- SEND_BYTE_ADDR `a` (R173). -/
  | sendByteAddr (a : Byte)
  /-- WRITE_BYTE `dev`, `a`, `d` (R185). -/
  | writeByte (dev : Descriptor) (a d : Byte)
  /-- WRITE_PAGE `dev`, `a`, `data`, `count` (R187). -/
  | writePage (dev : Descriptor) (a : Byte) (data : List Byte) (count : Nat)
  /-- READ_BYTE `dev`, `a` (R190). -/
  | readByte (dev : Descriptor) (a : Byte)
  /-- READ_PAGE `dev`, `a`, `count` (R192). -/
  | readPage (dev : Descriptor) (a : Byte) (count : Nat)
deriving DecidableEq, Repr

/-- A command as the abstract record (mnemonic plus named operands) that R81 allows in place of a binary form. Commands
are all the caller can issue (R81), so no other operation is one. -/
inductive Command where
  /-- WRITE_BYTE. -/
  | writeByte (dev : Descriptor) (a d : Byte)
  /-- WRITE_PAGE. -/
  | writePage (dev : Descriptor) (a : Byte) (data : List Byte) (count : Nat)
  /-- READ_BYTE. -/
  | readByte (dev : Descriptor) (a : Byte)
  /-- READ_PAGE. -/
  | readPage (dev : Descriptor) (a : Byte) (count : Nat)
deriving DecidableEq, Repr

/-- The operation a command is. -/
def Command.instr : Command → Instr
  | .writeByte dev a d => .writeByte dev a d
  | .writePage dev a data count => .writePage dev a data count
  | .readByte dev a => .readByte dev a
  | .readPage dev a count => .readPage dev a count

/-- The operands of format `UOP`, named fields outside the 4-bit number (R84). A primitive reads its own fields. -/
structure UopFields where
  /-- DRIVE's line. -/
  l : Nat := 0
  /-- DRIVE's level. -/
  v : BitVec 1 := 0
  /-- SHIFT_OUT's byte. -/
  b : Byte := 0
  /-- The bound of WAIT_ACK and WAIT_NACK. -/
  t : Nat := 0
  /-- SEND_DEV_ADDR's device byte. -/
  d : Byte := 0
  /-- SEND_DEV_ADDR's read/write flag. -/
  rw : BitVec 1 := 0
  /-- SEND_BYTE_ADDR's byte address. -/
  a : Byte := 0
deriving DecidableEq, Repr

/-- The payload of format `CMD`, outside the word (R82). -/
structure Payload where
  wdata : List Byte := []
  count : Nat := 0
deriving DecidableEq, Repr

/-- An encoded operation, in one of the three formats of R81. -/
inductive Packet where
  /-- Format `RM` (R85): selector bit, line, direction bit. -/
  | rm (sel : BitVec 1) (l : Nat) (f : BitVec 1)
  /-- Format `UOP` (R84): the 4-bit number and the operands as named fields. -/
  | uop (num : BitVec 4) (ops : UopFields)
  /-- Format `CMD` (R82): the 48-bit word and its payload. -/
  | cmd (word : BitVec 48) (payload : Payload)
deriving DecidableEq, Repr

/-- Why a packet is no operation, by name. Raised by `decode`; `step` turns what the caller's packet raises into a
refusal (safe: the machine stops where the spec gives no meaning). -/
inductive DecodeError where
  /-- A `CMD` word with any of bits 7:2 non-zero (R98(a), U8). -/
  | reservedBits (z : BitVec 6)
  /-- A `uop` number from 11 to 15 (R84); no step decodes one, they cannot arise (R98(c)). -/
  | unusedUop (num : BitVec 4)
  /-- A WRITE_BYTE word whose payload is not the one byte R82 gives it (log 15, DESIGN CHOICE). -/
  | payloadNotOneByte (n : Nat)
deriving DecidableEq, Repr

end Sys2Proof
end

