-- ==== Sys2Proof/WellFormed.lean ====
section
/-! DEFINITION. The preconditions on an operation's own operands (spec/30_encoding.md R87). The two preconditions that
concern the state, `PHASE = Idle` and the floated data line of SHIFT_IN, stand with the meanings. -/

namespace Sys2Proof

/-- R87, every command: `scl < NLINES`, `sda < NLINES`, `scl != sda`. -/
def Descriptor.wf (n : Nat) (dev : Descriptor) : Bool :=
  decide (dev.scl < n) && decide (dev.sda < n) && decide (dev.scl ≠ dev.sda)

/-- R87, the operand preconditions of each operation, for a register model of `n` lines. -/
def Instr.wf (n : Nat) : Instr → Bool
  | .regset l _ => decide (l < n)
  | .regin l => decide (l < n)
  | .drive l _ => decide (l < n)
  | .start => true
  | .stop => true
  | .init => true
  | .shiftOut _ => true
  | .shiftIn => true
  | .waitAck _ => true
  | .waitNack _ => true
  | .masterAck => true
  | .sendDevAddr _ _ => true
  | .sendByteAddr _ => true
  | .writeByte dev _ _ => dev.wf n
  | .writePage dev _ data count => dev.wf n && decide (count ≤ data.length)
  | .readByte dev _ => dev.wf n
  | .readPage dev _ count => dev.wf n && decide (1 ≤ count)

/-- R82: "The 8-bit line fields limit this binary form to `NLINES <= 256`". -/
def Descriptor.fits (dev : Descriptor) : Bool :=
  decide (dev.scl < 256) && decide (dev.sda < 256)

/-- Whether the binary form of the operation exists: the line fields of a command fit in 8 bits (R82). -/
def Instr.encodable : Instr → Bool
  | .regset _ _ => true
  | .regin _ => true
  | .drive _ _ => true
  | .start => true
  | .stop => true
  | .init => true
  | .shiftOut _ => true
  | .shiftIn => true
  | .waitAck _ => true
  | .waitNack _ => true
  | .masterAck => true
  | .sendDevAddr _ _ => true
  | .sendByteAddr _ => true
  | .writeByte dev _ _ => dev.fits
  | .writePage dev _ _ _ => dev.fits
  | .readByte dev _ => dev.fits
  | .readPage dev _ _ => dev.fits

end Sys2Proof
end

