-- ==== Sys2Proof/Decode.lean ====
section
/-! DEFINITION. From a packet to an operation or a named rejection, and back (spec/30_encoding.md R81 to R85, R98), with
the operation table of spec/opcode_table.json as rows. -/

namespace Sys2Proof

/-- R85: `FLOAT = 0`, `DRIVE = 1`. -/
def Direction.ofBit (b : BitVec 1) : Direction :=
  if b.getLsbD 0 then .drive else .float

/-- R85: `FLOAT = 0`, `DRIVE = 1`. -/
def Direction.bit : Direction → BitVec 1
  | .float => 0
  | .drive => 1

/-- R82, field `op`: the four values, all used. -/
def CmdOp.ofCode (c : BitVec 2) : CmdOp :=
  match c.toNat with
  | 0 => .writeByte
  | 1 => .writePage
  | 2 => .readByte
  | _ => .readPage

/-- R82, field `op`. -/
def CmdOp.code : CmdOp → BitVec 2
  | .writeByte => 0b00
  | .writePage => 0b01
  | .readByte => 0b10
  | .readPage => 0b11

/-- R82: the descriptor fields of a command word, `scl` 15:8, `sda` 23:16, `base` 31:24, `page_off` 39:32. -/
def wordDescriptor (w : BitVec 48) : Descriptor :=
  { scl := (w.extractLsb' 8 8).toNat
    sda := (w.extractLsb' 16 8).toNat
    base := w.extractLsb' 24 8
    pageOff := w.extractLsb' 32 8 }

/-- R82: the command word of a descriptor, a byte address and an `op`; bits 7:2 are 0. -/
def commandWord (op : CmdOp) (dev : Descriptor) (a : Byte) : BitVec 48 :=
  a ++ dev.pageOff ++ dev.base ++ BitVec.ofNat 8 dev.sda ++ BitVec.ofNat 8 dev.scl ++ (0 : BitVec 6) ++ op.code

/-- R84: the eleven primitive numbers; 11 to 15 are unused. -/
def decodeUop (num : BitVec 4) (f : UopFields) : Except DecodeError Instr :=
  match num.toNat with
  | 0 => .ok (.drive f.l (f.v.getLsbD 0))
  | 1 => .ok .start
  | 2 => .ok .stop
  | 3 => .ok .init
  | 4 => .ok (.shiftOut f.b)
  | 5 => .ok .shiftIn
  | 6 => .ok (.waitAck f.t)
  | 7 => .ok (.waitNack f.t)
  | 8 => .ok .masterAck
  | 9 => .ok (.sendDevAddr f.d (f.rw.getLsbD 0))
  | 10 => .ok (.sendByteAddr f.a)
  | _ => .error (.unusedUop num)

/-- R82, R98(a): a command word and its payload. Operands a command does not use are ignored (R28). That the reserved bits
are checked before the payload, and both before the preconditions of R87 that need the state, is the model's order (log
20, DESIGN CHOICE). -/
def decodeCmd (w : BitVec 48) (p : Payload) : Except DecodeError Instr :=
  if w.extractLsb' 2 6 = 0 then
    let dev := wordDescriptor w
    let a : Byte := w.extractLsb' 40 8
    match CmdOp.ofCode (w.extractLsb' 0 2) with
    | .writeByte =>
      match p.wdata with
      | [d] => .ok (.writeByte dev a d)
      | ds => .error (.payloadNotOneByte ds.length)
    | .writePage => .ok (.writePage dev a p.wdata p.count)
    | .readByte => .ok (.readByte dev a)
    | .readPage => .ok (.readPage dev a p.count)
  else .error (.reservedBits (w.extractLsb' 2 6))

/-- R85: `rm` 0 is REGIN, 1 is REGSET. -/
def decodeRm (sel : BitVec 1) (l : Nat) (f : BitVec 1) : Except DecodeError Instr :=
  if sel.getLsbD 0 then .ok (.regset l (Direction.ofBit f)) else .ok (.regin l)

/-- The decoder: total on every packet, rejecting by name. -/
def decode : Packet → Except DecodeError Instr
  | .rm sel l f => decodeRm sel l f
  | .uop num ops => decodeUop num ops
  | .cmd w p => decodeCmd w p

/-- The encoder, from the same tables. It is the inverse of `decode` on an `Instr.encodable` operation. -/
def encode : Instr → Packet
  | .regset l f => .rm 1 l f.bit
  | .regin l => .rm 0 l 0
  | .drive l v => .uop 0 { l := l, v := BitVec.ofBool v }
  | .start => .uop 1 {}
  | .stop => .uop 2 {}
  | .init => .uop 3 {}
  | .shiftOut b => .uop 4 { b := b }
  | .shiftIn => .uop 5 {}
  | .waitAck t => .uop 6 { t := t }
  | .waitNack t => .uop 7 { t := t }
  | .masterAck => .uop 8 {}
  | .sendDevAddr d rw => .uop 9 { d := d, rw := BitVec.ofBool rw }
  | .sendByteAddr a => .uop 10 { a := a }
  | .writeByte dev a d => .cmd (commandWord .writeByte dev a) { wdata := [d] }
  | .writePage dev a data count => .cmd (commandWord .writePage dev a) { wdata := data, count := count }
  | .readByte dev a => .cmd (commandWord .readByte dev a) {}
  | .readPage dev a count => .cmd (commandWord .readPage dev a) { count := count }

/-- The three formats of R81. -/
inductive Format where
  | rm
  | uop
  | cmd
deriving DecidableEq, Repr

/-- One row of spec/opcode_table.json: a word of the row's format is the row's when it agrees with `value` on `mask`. -/
structure TableRow where
  mnemonic : String
  format : Format
  value : BitVec 48
  mask : BitVec 48
deriving DecidableEq, Repr

/-- spec/opcode_table.json, row by row. -/
def opcodeTable : List TableRow :=
  [⟨"REGSET", .rm, 0x1, 0x1⟩, ⟨"REGIN", .rm, 0x0, 0x1⟩] ++
  [⟨"DRIVE", .uop, 0x0, 0xF⟩, ⟨"START", .uop, 0x1, 0xF⟩, ⟨"STOP", .uop, 0x2, 0xF⟩, ⟨"INIT", .uop, 0x3, 0xF⟩,
   ⟨"SHIFT_OUT", .uop, 0x4, 0xF⟩, ⟨"SHIFT_IN", .uop, 0x5, 0xF⟩, ⟨"WAIT_ACK", .uop, 0x6, 0xF⟩,
   ⟨"WAIT_NACK", .uop, 0x7, 0xF⟩, ⟨"MASTER_ACK", .uop, 0x8, 0xF⟩, ⟨"SEND_DEV_ADDR", .uop, 0x9, 0xF⟩,
   ⟨"SEND_BYTE_ADDR", .uop, 0xA, 0xF⟩] ++
  [⟨"WRITE_BYTE", .cmd, 0x0, 0xFF⟩, ⟨"WRITE_PAGE", .cmd, 0x1, 0xFF⟩, ⟨"READ_BYTE", .cmd, 0x2, 0xFF⟩,
   ⟨"READ_PAGE", .cmd, 0x3, 0xFF⟩]

/-- The mnemonic of R80. -/
def Instr.mnemonic : Instr → String
  | .regset _ _ => "REGSET"
  | .regin _ => "REGIN"
  | .drive _ _ => "DRIVE"
  | .start => "START"
  | .stop => "STOP"
  | .init => "INIT"
  | .shiftOut _ => "SHIFT_OUT"
  | .shiftIn => "SHIFT_IN"
  | .waitAck _ => "WAIT_ACK"
  | .waitNack _ => "WAIT_NACK"
  | .masterAck => "MASTER_ACK"
  | .sendDevAddr _ _ => "SEND_DEV_ADDR"
  | .sendByteAddr _ => "SEND_BYTE_ADDR"
  | .writeByte _ _ _ => "WRITE_BYTE"
  | .writePage _ _ _ _ => "WRITE_PAGE"
  | .readByte _ _ => "READ_BYTE"
  | .readPage _ _ _ => "READ_PAGE"

/-- The format a packet is in. -/
def Packet.format : Packet → Format
  | .rm _ _ _ => .rm
  | .uop _ _ => .uop
  | .cmd _ _ => .cmd

/-- The bits the opcode table numbers: the selector, the primitive number, the command word. -/
def Packet.bits : Packet → BitVec 48
  | .rm sel _ _ => sel.setWidth 48
  | .uop num _ => num.setWidth 48
  | .cmd w _ => w

/-- A packet is an instance of a table row. -/
def TableRow.matches (r : TableRow) (p : Packet) : Bool :=
  p.format == r.format && p.bits &&& r.mask == r.value

/-- Two rows of one format that some word of that format would both match. -/
def TableRow.overlaps (r q : TableRow) : Bool :=
  r.format == q.format && (r.value &&& q.mask == q.value &&& r.mask)

/-- The packet of an operation given as a number whose bits are numbered as spec/opcode_table.json numbers them, the
operands that have no bits there being 0. The three formats are three separate interfaces and a number does not say
which one it is for (R81 to R85): more than 8 bits is a command word, 2 to 8 bits a primitive number, 1 bit the
register-model selector (log 13, DESIGN CHOICE). -/
def tablePacket (nbits w : Nat) : Packet :=
  if nbits ≤ 1 then .rm (BitVec.ofNat 1 w) 0 0
  else if nbits ≤ 8 then .uop (BitVec.ofNat 4 w) {}
  else .cmd (BitVec.ofNat 48 w) { wdata := [0] }

/-- What `decode` reads from an operation given as a number. -/
def decodeTableWord (nbits w : Nat) : Option Instr :=
  match decode (tablePacket nbits w) with
  | .ok i => some i
  | .error _ => none

/-- R99: `dev(scl, sda, base, page_off)`. -/
def Descriptor.text (dev : Descriptor) : String :=
  "dev(" ++ toString dev.scl ++ ", " ++ toString dev.sda ++ ", " ++ toString dev.base.toNat ++ ", " ++
    toString dev.pageOff.toNat ++ ")"

/-- R99: the textual form of a command, numbers in decimal; primitives and accesses have no textual form but their
mnemonic. -/
def Instr.text : Instr → String
  | .writeByte dev a d => "WRITE_BYTE " ++ dev.text ++ ", " ++ toString a.toNat ++ ", " ++ toString d.toNat
  | .writePage dev a data count =>
    "WRITE_PAGE " ++ dev.text ++ ", " ++ toString a.toNat ++ ", [" ++
      ", ".intercalate (data.map fun b => toString b.toNat) ++ "], " ++ toString count
  | .readByte dev a => "READ_BYTE " ++ dev.text ++ ", " ++ toString a.toNat
  | .readPage dev a count => "READ_PAGE " ++ dev.text ++ ", " ++ toString a.toNat ++ ", " ++ toString count
  | .regset _ _ => "REGSET"
  | .regin _ => "REGIN"
  | .drive _ _ => "DRIVE"
  | .start => "START"
  | .stop => "STOP"
  | .init => "INIT"
  | .shiftOut _ => "SHIFT_OUT"
  | .shiftIn => "SHIFT_IN"
  | .waitAck _ => "WAIT_ACK"
  | .waitNack _ => "WAIT_NACK"
  | .masterAck => "MASTER_ACK"
  | .sendDevAddr _ _ => "SEND_DEV_ADDR"
  | .sendByteAddr _ => "SEND_BYTE_ADDR"

end Sys2Proof
end

