-- ==== Sys2Proof/Machine/State.lean ====
section
/-! DEFINITION. Everything the spec gives the machine, as plain data (spec/10_state.md), the reasons a step can stop,
and the state after reset. -/

namespace Sys2Proof.Machine

/-- The orchestrator's seven phases, in the spec's order (spec/10_state.md R31). -/
inductive Phase where
  | idle
  | busCheck
  | started
  | addrWritten
  | byteAddrSent
  | dataPhase
  | stopped
deriving DecidableEq, Repr

/-- The three error kinds (spec/60_exceptions.md R210). `ERR` is `none` or one of them (spec/30_encoding.md R96). -/
inductive ErrKind where
  | busStuckLow
  | noAck
  | unexpectedAck
deriving DecidableEq, Repr

/-- One entry of the access trace (spec/00_scope.md R9): a `RegSet` with its arguments, or a `RegIn` with its argument
and the level it returned. -/
inductive Access where
  | set (l : Nat) (f : Direction)
  | get (l : Nat) (v : Level)
deriving DecidableEq, Repr

/-- What can happen to the machine, at the grain of R9: an access of the engine; the environment assigning EXT_LOW
bits (line, bit) between two accesses; a change of PHASE. -/
inductive Event where
  | acc (a : Access)
  | env (changes : List (Nat × Bool))
  | phase (p : Phase)
deriving DecidableEq, Repr

/-- The register model and the environment's hold on the lines, one entry per line (R20, R26). `IN` is no storage
element (R23): it is `Bus.pad`. -/
structure Bus where
  /-- `DIR` (R21). -/
  dir : List Direction
  /-- `OUT` (R22). -/
  out : List Level
  /-- `EXT_LOW` (R26): true where some remote device pulls the line low. -/
  extLow : List Bool
  /-- The model's own: how often DIR, OUT or EXT_LOW has changed; indexes `Config.contentionLevel` (log 6). -/
  epoch : Nat
deriving DecidableEq, Repr

/-- The operand latches (R27, R28), the working registers (R29), PHASE (R31) and the outcome (R30). -/
structure Regs where
  desc : Descriptor
  op : CmdOp
  byteAddr : Byte
  wdata : List Byte
  count : Nat
  /-- `DEVB`. -/
  devb : Byte
  /-- `SR`. -/
  sr : Byte
  /-- `BITIDX`. -/
  bitIdx : Nat
  /-- `POLL`. -/
  poll : Nat
  /-- `IDX`. -/
  idx : Nat
  /-- `PHASE`. -/
  phase : Phase
  /-- `OK`. -/
  ok : Bool
  /-- `ERR`; `none` is the spec's `None`. -/
  err : Option ErrKind
  /-- `RBYTE`. -/
  rbyte : Byte
  /-- `RBUF`. -/
  rbuf : List Byte
  /-- The model's own: how many free read results have been drawn (log 8). -/
  draws : Nat
deriving DecidableEq, Repr

/-- What the caller hands to the engine: a command, the only kind of operation it can issue (R81), as a command word with
its payload (R82) or as the abstract record R81 allows in their place. -/
inductive Request where
  | packet (w : BitVec 48) (p : Payload)
  | record (c : Command)
deriving DecidableEq, Repr

/-- The whole machine. -/
structure State where
  /-- The parameters of R10; no step writes them (log 1). -/
  cfg : Config
  /-- The register model and EXT_LOW. -/
  bus : Bus
  /-- Latches, working registers, phase and outcome. -/
  regs : Regs
  /-- The model's own: what the environment does before each of the coming accesses, one list of (line, bit)
  assignments to EXT_LOW per access; after its end EXT_LOW stays (log 5). -/
  script : List (List (Nat × Bool))
  /-- The model's own: everything that has happened, newest first (log 10). -/
  history : List Event
  /-- The model's own: the commands issued and not yet taken, oldest first (log 11). -/
  requests : List Request
  /-- The model's own: operations run outside any command, oldest first, in the order in which the engine's sequencing
  would issue them (R81); this is how the model exposes the primitives and accesses, as U7 and R257 allow. The caller
  does not write it. It holds operations, not their numbers (R84). Log 21. -/
  exposed : List Instr
  /-- The model's own: INIT has been performed for the exposed transaction in progress, and neither a STOP nor a raise nor
  a command has ended it since (R257). Log 22. -/
  opened : Bool
deriving DecidableEq, Repr

/-- A step stops with a fault: never. "Nothing in this hardware is treated as `fault`"
(spec/93_implementation_defined.md, part 1); the three error kinds end a transaction, not the machine. -/
inductive Fault where
deriving DecidableEq, Repr

/-- A step stops with a refusal (spec/00_scope.md R17): the spec gives the invocation no meaning, no access is performed
and no state is written. All are safe: the machine stops. -/
inductive Refusal where
  /-- No meaning yet; only arms of `exec` raise it. -/
  | notModelled (mnemonic : String)
  /-- A command while `PHASE` is not `Idle` (R33, U8); raised by the four commands. -/
  | busy
  /-- A line identifier not below `NLINES` (R87, U6); raised by every operation that names or uses such a line. -/
  | lineOutOfRange
  /-- A descriptor with `scl = sda` (R87, U5); raised by the four commands. -/
  | sameLine
  /-- WRITE_PAGE with `count` above the number of bytes supplied (R188(c), U4). -/
  | countExceedsData
  /-- READ_PAGE with `count = 0` (R193(b), U3). -/
  | countZero
  /-- SHIFT_IN while the engine asserts the data line (R144, U7). -/
  | dataLineNotFloated
  /-- A packet of the caller that encodes no command; raised by `step` (R98, U8, log 15). -/
  | illegal (e : DecodeError)
deriving DecidableEq, Repr

/-- What a meaning answers. -/
abbrev Answer := Host.Outcome State Fault Refusal

/-- Reset (spec/10_state.md R35, spec/70_reset_and_hazards.md R240): every line floated, PHASE Idle. The spec leaves the
rest unspecified or open; the values here are the log's: parameters (1), OUT (2), outcome (3), latches and working
registers (4), EXT_LOW and the script (5), the queues (11, 21), `opened` (22). -/
def State.reset : State :=
  { cfg := Config.vectors
    bus :=
      { dir := List.replicate Config.vectors.nlines .float
        out := List.replicate Config.vectors.nlines false
        extLow := List.replicate Config.vectors.nlines false
        epoch := 0 }
    regs :=
      { desc := { scl := 0, sda := 1, base := 0, pageOff := 0 }
        op := .writeByte
        byteAddr := 0
        wdata := []
        count := 0
        devb := 0
        sr := 0
        bitIdx := 0
        poll := 0
        idx := 0
        phase := .idle
        ok := true
        err := none
        rbyte := 0
        rbuf := []
        draws := 0 }
    script := []
    history := []
    requests := []
    exposed := []
    opened := false }

end Sys2Proof.Machine
end

