-- ==== Sys2Proof/Machine/Flags.lean ====
section
/-! DEFINITION. The outcome flags OK and ERR, the codes of ERR and PHASE, and the read results at the end of a command
(spec/10_state.md R30, spec/30_encoding.md R95 to R97, spec/93_implementation_defined.md U9, U10). -/

namespace Sys2Proof.Machine

/-- R96: the 2-bit code of `ERR`. -/
def errCode : Option ErrKind → BitVec 2
  | none => 0
  | some .busStuckLow => 1
  | some .noAck => 2
  | some .unexpectedAck => 3

/-- R97: the code of `PHASE`; 7 is unused. -/
def phaseCode : Phase → BitVec 3
  | .idle => 0
  | .busCheck => 1
  | .started => 2
  | .addrWritten => 3
  | .byteAddrSent => 4
  | .dataPhase => 5
  | .stopped => 6

/-- R214(2): `ERR <- K`, `OK <- 0`. -/
def failFlags (k : ErrKind) (r : Regs) : Regs :=
  { r with ok := false, err := some k }

/-- R183: `OK <- 1`, `ERR <- None`. -/
def successFlags (r : Regs) : Regs :=
  { r with ok := true, err := none }

/-- The read results when a command ends. RBYTE keeps its value only after a successful READ_BYTE and is a free value
after anything else (U9); RBUF is a free value after any command that failed (R30, U10, and D22 of
spec/92_eei_decisions.md) and untouched by a success that is no READ_PAGE. Log 8. -/
def settleResults (success : Bool) (r : Regs) : Regs :=
  { r with
    rbyte := if success && r.op == .readByte then r.rbyte else Config.freeByte r.draws
    rbuf := if success then r.rbuf else Config.freeBytes r.draws
    draws := r.draws + 1 }

end Sys2Proof.Machine
end

