-- ==== Sys2Proof/Machine/Operands.lean ====
section
/-! DEFINITION. How operands are assembled and checked: levels and directions, the bits of a byte, the device byte and
frame (spec/30_encoding.md R86 to R89), the refusals of R87. -/

namespace Sys2Proof.Machine

/-- R86: level 1 is direction `FLOAT`, level 0 is direction `DRIVE`. -/
def directionOf (v : Level) : Direction :=
  if v then .float else .drive

/-- R50: the level `RegSet` latches into OUT, 1 for `FLOAT` and 0 for `DRIVE`. -/
def latchOf (f : Direction) : Level :=
  match f with
  | .float => true
  | .drive => false

/-- R57: the bits of a byte in the order they go on the wire, bit 7 first. -/
def bitsOf (b : Byte) : List Level :=
  [b.getLsbD 7, b.getLsbD 6, b.getLsbD 5, b.getLsbD 4, b.getLsbD 3, b.getLsbD 2, b.getLsbD 1, b.getLsbD 0]

/-- R143: `SR[i] <- v`. -/
def writeBit (b : Byte) (i : Nat) (v : Level) : Byte :=
  if v then b ||| (1#8 <<< i) else b &&& ~~~(1#8 <<< i)

/-- R88: `DEVB = (base + page_off) mod 256`. -/
def deviceByte (dev : Descriptor) : Byte :=
  dev.base + dev.pageOff

/-- R89: the device address frame `DEVB[7:1] ++ rw`. -/
def deviceFrame (d : Byte) (rw : Bool) : Byte :=
  d.extractLsb' 1 7 ++ BitVec.ofBool rw

/-- R28, R188(d): the bytes a WRITE_PAGE sends, `data[0..count-1]`. -/
def pageData (data : List Byte) (count : Nat) : List Byte :=
  data.take count

/-- R87, every line operand: `l < NLINES`. -/
def lineOk (s : State) (l : Nat) : Bool :=
  decide (l < s.cfg.nlines)

/-- The lines of the latched descriptor are lines of the register model. Always so after any command (R87); a primitive
asked for on its own in a state where it is not is refused like any use of such a line (U6, log 14). -/
def latchedLinesOk (s : State) : Bool :=
  lineOk s s.regs.desc.scl && lineOk s s.regs.desc.sda

/-- R87, every command, and R33: why a command is refused, if it is. The order of the checks is the model's
(log 20, DESIGN CHOICE), as is that the reserved bits of the word, checked by `decode`, come before them all; each is a
refusal either way. -/
def commandRefusal (dev : Descriptor) (s : State) : Option Refusal :=
  if s.regs.phase ≠ .idle then some .busy
  else if ¬ (lineOk s dev.scl && lineOk s dev.sda) then some .lineOutOfRange
  else if dev.scl = dev.sda then some .sameLine
  else none

/-- R87: a WRITE_PAGE also needs `count <= |data|` (U4). -/
def writePageRefusal (dev : Descriptor) (data : List Byte) (count : Nat) (s : State) : Option Refusal :=
  match commandRefusal dev s with
  | some r => some r
  | none => if count ≤ data.length then none else some .countExceedsData

/-- R87: a READ_PAGE also needs `count >= 1` (U3). -/
def readPageRefusal (dev : Descriptor) (count : Nat) (s : State) : Option Refusal :=
  match commandRefusal dev s with
  | some r => some r
  | none => if count = 0 then some .countZero else none

end Sys2Proof.Machine
end

