-- ==== Sys2Proof/Machine/Ops.lean ====
section
/-! DEFINITION. The shared operations: the pad function, the two register-model accesses with the environment between
them, the bounded poll, raising an error, accepting and ending a command, taking the next request. -/

namespace Sys2Proof.Machine

/-! ## Register model, pads, environment -/

/-- `DIR[l]` (R21). -/
def Bus.dirOf (b : Bus) (l : Nat) : Direction :=
  b.dir.getD l .float

/-- `OUT[l]` (R22). -/
def Bus.outOf (b : Bus) (l : Nat) : Level :=
  b.out.getD l false

/-- `EXT_LOW[l]` (R26). -/
def Bus.pulled (b : Bus) (l : Nat) : Bool :=
  b.extLow.getD l false

/-- The pad function of R53, line by line of the rule; its last line, contention, is a free value (U1, log 6). -/
def Bus.pad (b : Bus) (l : Nat) : Level :=
  match b.dirOf l, b.outOf l, b.pulled l with
  | .drive, false, _ => false
  | .float, _, true => false
  | .float, _, false => true
  | .drive, true, false => true
  | .drive, true, true => Config.contentionLevel b.epoch l

/-- The environment assigns EXT_LOW bits; a line outside the register model has none. -/
def assignLows (v : List Bool) (changes : List (Nat × Bool)) : List Bool :=
  changes.foldl (fun acc c => acc.set c.1 c.2) v

/-- The register model and EXT_LOW after a write; `epoch` counts the writes that change something, so a write that
changes nothing is no change between two samples either (R50, R51). -/
def Bus.written (b b' : Bus) : Bus :=
  { b' with epoch := if b' = b then b.epoch else b.epoch + 1 }

/-- What an event does to the register model and EXT_LOW. `RegSet` writes the latch, then the direction, of its one line
(R50); `RegIn` changes nothing (R51); PHASE is not on the bus. -/
def Event.apply : Event → Bus → Bus
  | .acc (.set l f), b =>
    b.written { b with out := b.out.set l (latchOf f), dir := b.dir.set l f }
  | .acc (.get _ _), b => b
  | .env changes, b =>
    b.written { b with extLow := assignLows b.extLow changes }
  | .phase _, b => b

/-- An event happens: the bus takes its effect and the history records it. -/
def happen (e : Event) (s : State) : State :=
  { s with bus := e.apply s.bus, history := e :: s.history }

/-- The environment's turn before an access (R9, R26): the next entry of the script, or no change. -/
def envTurn (s : State) : State :=
  match s.script with
  | [] => s
  | changes :: rest => { happen (.env changes) s with script := rest }

/-- R50: `RegSet(l, f)`, one access. -/
def regSet (l : Nat) (f : Direction) (s : State) : State :=
  happen (.acc (.set l f)) (envTurn s)

/-- R51: the level `RegIn(l)` returns, the pad at the moment of the access. -/
def sampled (l : Nat) (s : State) : Level :=
  (envTurn s).bus.pad l

/-- R51: `RegIn(l)`, one access. -/
def regIn (l : Nat) (s : State) : State :=
  happen (.acc (.get l (sampled l s))) (envTurn s)

/-- R110: `DRIVE(l, v)` is one `RegSet`. -/
def drive (l : Nat) (v : Level) (s : State) : State :=
  regSet l (directionOf v) s

/-- `DRIVE(scl, v)`, on the clock line of the latched descriptor. -/
def driveScl (v : Level) (s : State) : State :=
  drive s.regs.desc.scl v s

/-- `DRIVE(sda, v)`, on the data line of the latched descriptor. -/
def driveSda (v : Level) (s : State) : State :=
  drive s.regs.desc.sda v s

/-! ## Results of operations that can raise -/

/-- An operation that can raise: it came to its end, or it raised and the flags say what. -/
inductive Res where
  | ok (s : State)
  | raised (s : State)
deriving DecidableEq, Repr

/-- R214(3): after a `raise` no further operation of the sequence is performed. -/
def Res.andThen (r : Res) (f : State → Res) : Res :=
  match r with
  | .ok s => f s
  | .raised s => .raised s

/-- Either way the machine goes on: a primitive asked for on its own. -/
def Res.state : Res → State
  | .ok s => s
  | .raised s => s

/-- `PHASE <- p` (R15). -/
def setPhase (p : Phase) (s : State) : State :=
  let t := happen (.phase p) s
  { t with regs := { t.regs with phase := p } }

/-- `raise K`, the one way an error is taken (R214): `ERR <- K`, `OK <- 0`, `PHASE <- Idle`; the lines stay as they are
and nothing is saved. There is no return from it (R219). -/
def raiseError (k : ErrKind) (s : State) : State :=
  setPhase .idle { s with regs := failFlags k s.regs }

/-! ## The bounded poll -/

/-- `POLL <- POLL + 1`. -/
def countSample (s : State) : State :=
  { s with regs := { s.regs with poll := s.regs.poll + 1 } }

/-- `POLL <- 0`. -/
def clearPoll (s : State) : State :=
  { s with regs := { s.regs with poll := 0 } }

/-- R127, R152: at most as many samples of the data line as the first argument, one `RegIn` each, until one reads
`want`; whether one did. `POLL` counts the samples. -/
def pollSda (want : Level) : Nat → State → Bool × State
  | 0, s => (false, s)
  | n + 1, s =>
    let t := countSample (regIn s.regs.desc.sda s)
    if sampled s.regs.desc.sda s = want then (true, t) else pollSda want n t

/-- `POLL <- 0`, then the poll. -/
def pollFrom0 (want : Level) (bound : Nat) (s : State) : Bool × State :=
  pollSda want bound (clearPoll s)

/-! ## Bit cells -/

/-- R120: PULSE. -/
def pulse (s : State) : State :=
  driveScl false (driveScl true s)

/-- R91: a bit the engine sends. -/
def bitCell (v : Level) (s : State) : State :=
  pulse (driveSda v s)

/-- `BITIDX <- n`. -/
def setBitIdx (n : Nat) (s : State) : State :=
  { s with regs := { s.regs with bitIdx := n } }

/-- `SR <- b`. -/
def setSr (b : Byte) (s : State) : State :=
  { s with regs := { s.regs with sr := b } }

/-- `IDX <- i`. -/
def setIdx (i : Nat) (s : State) : State :=
  { s with regs := { s.regs with idx := i } }

/-! ## A command's beginning and end -/

/-- R33: acceptance. The descriptor and the operands are latched, `DEVB` computed, `PHASE <- BusCheck`. A command that
does not use `wdata` or `count` is given the latch's own value for it (R28). -/
def accept (dev : Descriptor) (op : CmdOp) (a : Byte) (wdata : List Byte) (count : Nat) (s : State) : State :=
  setPhase .busCheck
    { s with
      regs :=
        { s.regs with
          desc := dev
          op := op
          byteAddr := a
          wdata := wdata
          count := count
          devb := deviceByte dev } }

/-- The read results settle when the command ends (U9, U10). -/
def settle (success : Bool) (s : State) : State :=
  { s with regs := settleResults success s.regs }

/-- R183: `finish_ok`. -/
def finishOk (s : State) : State :=
  let t := setPhase .stopped s
  settle true (setPhase .idle { t with regs := successFlags t.regs })

/-- R182, R183: how a command ends; on a failure the `raise` has already set the flags and the phase. -/
def endCommand : Res → Answer
  | .ok s => .next (finishOk s)
  | .raised s => .next (settle false s)

/-! ## A primitive or an access asked for on its own (log 14) -/

/-- R87, U6: a named line must be a line of the register model. -/
def onLine (l : Nat) (s : State) (t : State) : Answer :=
  if lineOk s l then .next t else .refused .lineOutOfRange

/-- A primitive acts on the lines of the latched descriptor (R84). -/
def onLatchedLines (s : State) (t : State) : Answer :=
  if latchedLinesOk s then .next t else .refused .lineOutOfRange

/-! ## What runs next -/

/-- A request as an operation, always a command: a packet of format CMD is decoded, an abstract record is one already
(R81). -/
def readRequest : Request → Except DecodeError Instr
  | .packet w p => decode (.cmd w p)
  | .record c => .ok c.instr

/-- The operations that begin with INIT: INIT, and the four commands, which "include it" (R180, R257). -/
def beginsWithInit : Instr → Bool
  | .init | .writeByte _ _ _ | .writePage _ _ _ _ | .readByte _ _ | .readPage _ _ _ => true
  | .regset _ _ | .regin _ | .drive _ _ | .start | .stop | .shiftOut _ | .shiftIn | .waitAck _ | .waitNack _
  | .masterAck | .sendDevAddr _ _ | .sendByteAddr _ => false

/-- The operation to run next and the state that has taken it: the oldest exposed one (log 21), else the one the caller's
oldest request encodes, if it encodes one; none when the engine waits for a command (R240). R257, "a model that exposes
primitives separately must keep the rule": an exposed transaction that no INIT has opened is opened by one, and its
operations wait (log 22). -/
def nextOperation (s : State) : Option (Except DecodeError Instr × State) :=
  match s.exposed, s.requests with
  | i :: rest, _ =>
    if s.opened || beginsWithInit i then some (.ok i, { s with exposed := rest }) else some (.ok .init, s)
  | [], r :: rest => some (readRequest r, { s with requests := rest })
  | [], [] => none

/-- The last thing that happened is a `raise`: PHASE went to Idle with `OK = 0` (R214). -/
def State.raised (s : State) : Bool :=
  s.history.head? == some (.phase .idle) && !s.regs.ok

/-- Whether the exposed transaction is open after an operation that did not raise, `o` being whether it was before: INIT
opens it, a STOP ends it, and so does a command, a transaction of its own (R257). -/
def openAfter (i : Instr) (o : Bool) : Bool :=
  match i with
  | .init => true
  | .stop | .writeByte _ _ _ | .writePage _ _ _ _ | .readByte _ _ | .readPage _ _ _ => false
  | .regset _ _ | .regin _ | .drive _ _ | .start | .shiftOut _ | .shiftIn | .waitAck _ | .waitNack _ | .masterAck
  | .sendDevAddr _ _ | .sendByteAddr _ => o

/-- What an operation leaves of the exposed transaction. After a raise no further operation of it is performed (R214(3)),
so what was still exposed is dropped and the next one needs an INIT again. -/
def State.afterOperation (i : Instr) (t : State) : State :=
  if t.raised then { t with exposed := [], opened := false } else { t with opened := openAfter i t.opened }

/-- `s` with the operation of a packet as the one that runs next: a command as the caller's request, any other as an
exposed operation of a transaction that INIT has opened (R257); a packet that encodes none leaves nothing to run. -/
def State.withPacket (s : State) (p : Packet) : State :=
  match p, decode p with
  | .cmd w q, _ => { s with requests := [.packet w q], exposed := [] }
  | _, .ok i => { s with exposed := [i], opened := true }
  | _, .error _ => { s with requests := [], exposed := [] }

/-! ## Reading the history -/

/-- The access in an event, if it is one. -/
def Event.access? : Event → Option Access
  | .acc a => some a
  | .env _ => none
  | .phase _ => none

/-- The phase in an event, if it is one. -/
def Event.phase? : Event → Option Phase
  | .acc _ => none
  | .env _ => none
  | .phase p => some p

/-- The access trace so far (R9), earliest first. -/
def State.accesses (s : State) : List Access :=
  s.history.reverse.filterMap Event.access?

/-- The values PHASE has taken so far, earliest first. -/
def State.phases (s : State) : List Phase :=
  s.history.reverse.filterMap Event.phase?

/-! ## Looking at the environment -/

/-- EXT_LOW after the environment's next `k` turns. -/
def lowsAfter : Nat → List (List (Nat × Bool)) → List Bool → List Bool
  | 0, _, v => v
  | _ + 1, [], v => v
  | k + 1, c :: rest, v => lowsAfter k rest (assignLows v c)

/-- `EXT_LOW[l]` at the access that comes after `k` others: what the environment will be doing then. -/
def State.lowAt (s : State) (k l : Nat) : Bool :=
  (lowsAfter (k + 1) s.script s.bus.extLow).getD l false

end Sys2Proof.Machine
end

