-- ==== Sys2Proof/Machine/Access.lean ====
section
/-! DEFINITION. The two register-model accesses, REGSET and REGIN (spec/20_memory.md section 1). -/

namespace Sys2Proof.Machine

/-- REGSET (R50). -/
def execRegset (l : Nat) (f : Direction) (s : State) : Answer :=
  onLine l s (regSet l f s)

/-- REGIN (R51). The level returned is in the access trace; nothing else changes. -/
def execRegin (l : Nat) (s : State) : Answer :=
  onLine l s (regIn l s)

end Sys2Proof.Machine
end

