-- ==== Sys2Proof/Machine/LineDriver.lean ====
section
/-! DEFINITION. The GPIO Line Driver, DRIVE (spec/40_line_driver.md). -/

namespace Sys2Proof.Machine

/-- DRIVE (R110). -/
def execDrive (l : Nat) (v : Level) (s : State) : Answer :=
  onLine l s (drive l v s)

end Sys2Proof.Machine
end

