-- ==== Sys2Proof/Machine/Acknowledge.lean ====
section
/-! DEFINITION. The Acknowledge Protocol, WAIT_ACK, WAIT_NACK and MASTER_ACK (spec/43_acknowledge.md). -/

namespace Sys2Proof.Machine

/-- R150, R153: the polled ninth clock pulse both waits share: data floated, clock raised, poll for a low data line,
clock lowered "always, whatever the outcome". -/
def ackPulse (t : Nat) (s : State) : Bool × State :=
  let p := pollFrom0 false t (driveScl true (driveSda true s))
  (p.1, driveScl false p.2)

/-- R150: NoAck when no sample read low. -/
def waitAck (t : Nat) (s : State) : Res :=
  let p := ackPulse t s
  if p.1 then .ok p.2 else .raised (raiseError .noAck p.2)

/-- R153: UnexpectedAck when some sample read low. -/
def waitNack (t : Nat) (s : State) : Res :=
  let p := ackPulse t s
  if p.1 then .raised (raiseError .unexpectedAck p.2) else .ok p.2

/-- R156: one clock pulse with data held low, then data floated. -/
def masterAck (s : State) : State :=
  driveSda true (pulse (driveSda false s))

/-- WAIT_ACK (R150). -/
def execWaitAck (t : Nat) (s : State) : Answer :=
  onLatchedLines s (waitAck t s).state

/-- WAIT_NACK (R153). -/
def execWaitNack (t : Nat) (s : State) : Answer :=
  onLatchedLines s (waitNack t s).state

/-- MASTER_ACK (R156). -/
def execMasterAck (s : State) : Answer :=
  onLatchedLines s (masterAck s)

end Sys2Proof.Machine
end

