-- ==== Sys2Proof/Machine/Transfer.lean ====
section
/-! DEFINITION. The Bit/Byte Transfer, SHIFT_OUT and SHIFT_IN (spec/42_transfer.md). -/

namespace Sys2Proof.Machine

/-- R140: the bit cells of `SR[n-1]` down to `SR[0]`. -/
def sendBits : Nat → State → State
  | 0, s => s
  | n + 1, s => sendBits n (bitCell (s.regs.sr.getLsbD n) (setBitIdx n s))

/-- R140: `SR <- b`, then eight bit cells, most significant first. -/
def shiftOut (b : Byte) (s : State) : State :=
  sendBits 8 (setSr b s)

/-- R143: one received bit: clock high, one sample of the data line into `SR[i]`, clock low. -/
def receiveBit (i : Nat) (s : State) : State :=
  let t := driveScl true s
  let v := sampled t.regs.desc.sda t
  let u := regIn t.regs.desc.sda t
  driveScl false (setSr (writeBit u.regs.sr i v) u)

/-- R143: the bits `SR[n-1]` down to `SR[0]` are received. -/
def receiveBits : Nat → State → State
  | 0, s => s
  | n + 1, s => receiveBits n (receiveBit n (setBitIdx n s))

/-- R143: `SR <- 0x00`, then eight received bits, most significant first; the result is in `SR`. -/
def shiftIn (s : State) : State :=
  receiveBits 8 (setSr 0 s)

/-- SHIFT_OUT (R140). -/
def execShiftOut (b : Byte) (s : State) : Answer :=
  onLatchedLines s (shiftOut b s)

/-- SHIFT_IN (R143). With the data line asserted low by the engine it is refused (R144, R87, U7). -/
def execShiftIn (s : State) : Answer :=
  if s.bus.dirOf s.regs.desc.sda = .float then onLatchedLines s (shiftIn s) else .refused .dataLineNotFloated

end Sys2Proof.Machine
end

