-- ==== Sys2Proof/Machine/Addressing.lean ====
section
/-! DEFINITION. The Addressing Encoder, SEND_DEV_ADDR and SEND_BYTE_ADDR (spec/44_addressing.md). -/

namespace Sys2Proof.Machine

/-- R170: the bit cells of `d[n]` down to `d[1]`. -/
def sendAddressBits (d : Byte) : Nat → State → State
  | 0, s => s
  | n + 1, s => sendAddressBits d n (bitCell (d.getLsbD (n + 1)) (setBitIdx (n + 1) s))

/-- R170: `d[7]` down to `d[1]`, then the read/write flag. -/
def sendDevAddr (d : Byte) (rw : Bool) (s : State) : State :=
  bitCell rw (sendAddressBits d 7 s)

/-- R173: SHIFT_OUT, then WAIT_ACK with the bound `T_ACK`. -/
def sendByteAddr (a : Byte) (s : State) : Res :=
  let t := shiftOut a s
  waitAck t.cfg.tAck t

/-- SEND_DEV_ADDR (R170). -/
def execSendDevAddr (d : Byte) (rw : Bool) (s : State) : Answer :=
  onLatchedLines s (sendDevAddr d rw s)

/-- SEND_BYTE_ADDR (R173). -/
def execSendByteAddr (a : Byte) (s : State) : Answer :=
  onLatchedLines s (sendByteAddr a s).state

end Sys2Proof.Machine
end

