-- ==== Sys2Proof/Machine/BusSignals.lean ====
section
/-! DEFINITION. The Bus Signal Primitives, START, STOP and INIT (spec/41_bus_signals.md). PULSE is in Ops. -/

namespace Sys2Proof.Machine

/-- R121: data high, clock high, data low, clock low. -/
def startSignal (s : State) : State :=
  driveScl false (driveSda false (driveScl true (driveSda true s)))

/-- R123: clock low, data low, clock high, data high. -/
def stopSignal (s : State) : State :=
  driveSda true (driveScl true (driveSda false (driveScl false s)))

/-- R125: the poll for a high data line, then a STOP; BusStuckLow, with nothing driven, when the bound is exhausted. -/
def busRecovery (s : State) : Res :=
  let p := pollFrom0 true s.cfg.tInit s
  if p.1 then .ok (stopSignal p.2) else .raised (raiseError .busStuckLow p.2)

/-- START (R121). -/
def execStart (s : State) : Answer :=
  onLatchedLines s (startSignal s)

/-- STOP (R123). -/
def execStop (s : State) : Answer :=
  onLatchedLines s (stopSignal s)

/-- INIT (R125). -/
def execInit (s : State) : Answer :=
  onLatchedLines s (busRecovery s).state

end Sys2Proof.Machine
end

