-- ==== Sys2Proof/Machine/Transactions.lean ====
section
/-! DEFINITION. The Transaction Orchestrator, the four commands (spec/45_transactions.md). Operands are read from the
latches acceptance filled (R33, R65). -/

namespace Sys2Proof.Machine

/-- The end of a frame the engine sends: WAIT_ACK with the commands' bound `T_ACK`. -/
def awaitAck (s : State) : Res :=
  waitAck s.cfg.tAck s

/-- PREFIX (R180). -/
def prefixPart (s : State) : Res :=
  (busRecovery s).andThen fun s =>
  (awaitAck (sendDevAddr s.regs.devb false (setPhase .started (startSignal s)))).andThen fun s =>
  (sendByteAddr s.regs.byteAddr (setPhase .addrWritten s)).andThen fun s =>
  .ok (setPhase .byteAddrSent s)

/-- READ_PREFIX (R181). -/
def readPrefixPart (s : State) : Res :=
  (prefixPart s).andThen fun s =>
  let t := startSignal (setPhase .dataPhase s)
  awaitAck (sendDevAddr t.regs.devb true t)

/-- A data byte of a write: SHIFT_OUT, then WAIT_ACK (R185, R187). -/
def sendByte (b : Byte) (s : State) : Res :=
  awaitAck (shiftOut b s)

/-- R185, after acceptance. -/
def writeByteBody (s : State) : Res :=
  (prefixPart s).andThen fun s =>
  (sendByte (s.regs.wdata.headD 0) (setPhase .dataPhase s)).andThen fun s =>
  .ok (stopSignal s)

/-- R187: the loop over the data bytes, the first of which has index `i`. -/
def sendBytes : List Byte → Nat → State → Res
  | [], _, s => .ok s
  | b :: bs, i, s => (sendByte b (setIdx i s)).andThen (sendBytes bs (i + 1))

/-- R187, after acceptance. -/
def writePageBody (s : State) : Res :=
  (prefixPart s).andThen fun s =>
  (sendBytes (pageData s.regs.wdata s.regs.count) 0 (setIdx 0 (setPhase .dataPhase s))).andThen fun s =>
  .ok (stopSignal s)

/-- The end of a read: WAIT_NACK with the bound `T_NACK`, then STOP (R190, R192). -/
def endRead (s : State) : Res :=
  (waitNack s.cfg.tNack s).andThen fun s => .ok (stopSignal s)

/-- R190: `RBYTE <- SHIFT_IN`. -/
def receiveRbyte (s : State) : State :=
  let t := shiftIn s
  { t with regs := { t.regs with rbyte := t.regs.sr } }

/-- R190, after acceptance. -/
def readByteBody (s : State) : Res :=
  (readPrefixPart s).andThen fun s => endRead (receiveRbyte s)

/-- R192: `RBUF <- empty`. -/
def clearRbuf (s : State) : State :=
  { s with regs := { s.regs with rbuf := [] } }

/-- R192: `RBUF[IDX] <- SHIFT_IN`; the bytes come in index order, so the next one goes to the end (log 17). -/
def receiveIntoRbuf (i : Nat) (s : State) : State :=
  let t := shiftIn (setIdx i s)
  { t with regs := { t.regs with rbuf := t.regs.rbuf ++ [t.regs.sr] } }

/-- R192: the loop, with the number of bytes still to come; the next one has index `i`. -/
def receiveBytes : Nat → Nat → State → Res
  | 0, _, s => .ok s
  | 1, i, s => endRead (driveSda true (receiveIntoRbuf i s))
  | n + 2, i, s => receiveBytes (n + 1) (i + 1) (masterAck (receiveIntoRbuf i s))

/-- R192, after acceptance. -/
def readPageBody (s : State) : Res :=
  (readPrefixPart s).andThen fun s => receiveBytes s.regs.count 0 (setIdx 0 (clearRbuf s))

/-- WRITE_BYTE (R185). -/
def execWriteByte (dev : Descriptor) (a d : Byte) (s : State) : Answer :=
  match commandRefusal dev s with
  | some r => .refused r
  | none => endCommand (writeByteBody (accept dev .writeByte a [d] s.regs.count s))

/-- WRITE_PAGE (R187). -/
def execWritePage (dev : Descriptor) (a : Byte) (data : List Byte) (count : Nat) (s : State) : Answer :=
  match writePageRefusal dev data count s with
  | some r => .refused r
  | none => endCommand (writePageBody (accept dev .writePage a data count s))

/-- READ_BYTE (R190). -/
def execReadByte (dev : Descriptor) (a : Byte) (s : State) : Answer :=
  match commandRefusal dev s with
  | some r => .refused r
  | none => endCommand (readByteBody (accept dev .readByte a s.regs.wdata s.regs.count s))

/-- READ_PAGE (R192). -/
def execReadPage (dev : Descriptor) (a : Byte) (count : Nat) (s : State) : Answer :=
  match readPageRefusal dev count s with
  | some r => .refused r
  | none => endCommand (readPageBody (accept dev .readPage a s.regs.wdata count s))

end Sys2Proof.Machine
end

