-- ==== Sys2Proof/Machine/Dispatch.lean ====
section
/-! DEFINITION. One arm per operation of spec/30_encoding.md R80. -/

namespace Sys2Proof.Machine

def exec (i : Instr) (s : State) : Host.Outcome State Fault Refusal :=
  match i with
  | .regset l f => Sys2Proof.Machine.execRegset l f s
  | .regin l => Sys2Proof.Machine.execRegin l s
  | .drive l v => Sys2Proof.Machine.execDrive l v s
  | .start => Sys2Proof.Machine.execStart s
  | .stop => Sys2Proof.Machine.execStop s
  | .init => Sys2Proof.Machine.execInit s
  | .shiftOut b => Sys2Proof.Machine.execShiftOut b s
  | .shiftIn => Sys2Proof.Machine.execShiftIn s
  | .waitAck t => Sys2Proof.Machine.execWaitAck t s
  | .waitNack t => Sys2Proof.Machine.execWaitNack t s
  | .masterAck => Sys2Proof.Machine.execMasterAck s
  | .sendDevAddr d rw => Sys2Proof.Machine.execSendDevAddr d rw s
  | .sendByteAddr a => Sys2Proof.Machine.execSendByteAddr a s
  | .writeByte dev a d => Sys2Proof.Machine.execWriteByte dev a d s
  | .writePage dev a data count => Sys2Proof.Machine.execWritePage dev a data count s
  | .readByte dev a => Sys2Proof.Machine.execReadByte dev a s
  | .readPage dev a count => Sys2Proof.Machine.execReadPage dev a count s

end Sys2Proof.Machine
end

