-- ==== Sys2Proof/Machine/Step.lean ====
section
/-! DEFINITION. One step: the next operation is taken and run to its end; with none, the engine waits (logs 9, 11, 12, 21,
22). -/

namespace Sys2Proof.Machine

/-- A request that encodes no command is refused as illegal before any other precondition of R87 is looked at, so a word
with a reserved bit set is so refused also when the engine is busy or the lines are bad. R87 names no order (log 20,
DESIGN CHOICE). -/
def step (s : State) : Host.Outcome State Fault Refusal :=
  match nextOperation s with
  | none => .next s
  | some (.ok i, t) =>
    match exec i t with
    | .next u => .next (u.afterOperation i)
    | .fault f => .fault f
    | .refused r => .refused r
  | some (.error e, _) => .refused (.illegal e)

/-- The operation whose table bits are `w` is the one the next step runs. -/
def State.withFetchWord (s : State) (nbits w : Nat) : State :=
  s.withPacket (tablePacket nbits w)

end Sys2Proof.Machine
end

