-- ==== Sys2Proof/Machine/Trace.lean ====
section
/-! DEFINITION. The spec's own notation for access traces (spec/00_scope.md R16) and, in it, the traces the spec gives
for each operation; and what the environment must be doing for an operation to go one way or the other. Vocabulary of
the statements: no meaning calls it. -/

namespace Sys2Proof.Machine

/-- R16: `C0 C1`, `D0 D1`, `r0 r1`. -/
inductive Mark where
  | c (v : Level)
  | d (v : Level)
  | r (v : Level)
deriving DecidableEq, Repr

/-- R16: the access a mark stands for, on the lines of a descriptor. -/
def Mark.access (dev : Descriptor) : Mark → Access
  | .c v => .set dev.scl (directionOf v)
  | .d v => .set dev.sda (directionOf v)
  | .r v => .get dev.sda v

/-- A trace in marks as accesses. -/
def marked (dev : Descriptor) (ms : List Mark) : List Access :=
  ms.map (Mark.access dev)

/-- R121: `D1 C1 D0 C0`. -/
def startMarks : List Mark :=
  [.d true, .c true, .d false, .c false]

/-- R123: `C0 D0 C1 D1`. -/
def stopMarks : List Mark :=
  [.c false, .d false, .c true, .d true]

/-- R91: the bit cells of bits the engine sends. -/
def sentMarks (bits : List Level) : List Mark :=
  bits.flatMap fun v => [.d v, .c true, .c false]

/-- R140: the 24 accesses of a byte frame. -/
def frameMarks (b : Byte) : List Mark :=
  sentMarks (bitsOf b)

/-- R143: the bit cells of bits the engine receives. -/
def receivedMarks (bits : List Level) : List Mark :=
  bits.flatMap fun v => [.c true, .r v, .c false]

/-- R127, R152: a poll: `m` samples of the level not awaited, then, if it is seen, one of the awaited level. -/
def pollMarks (want : Level) (m : Nat) (seen : Bool) : List Mark :=
  List.replicate m (.r (!want)) ++ (if seen then [.r want] else [])

/-- R150, R153: the polled ninth clock pulse. -/
def ackMarks (m : Nat) (seen : Bool) : List Mark :=
  [.d true, .c true] ++ pollMarks false m seen ++ [.c false]

/-- R156: `D0 C1 C0 D1`. -/
def masterAckMarks : List Mark :=
  [.d false, .c true, .c false, .d true]

/-- R125: INIT on a bus seen free after `m` samples. -/
def recoveryMarks (m : Nat) : List Mark :=
  pollMarks true m true ++ stopMarks

/-- R180: PREFIX for the device byte `devb` and the byte address `a`, its three polls answered after `m0`, `m1`, `m2`
samples of the other level. -/
def prefixMarks (devb a : Byte) (m0 m1 m2 : Nat) : List Mark :=
  recoveryMarks m0 ++ startMarks ++ frameMarks (deviceFrame devb false) ++ ackMarks m1 true ++
    frameMarks a ++ ackMarks m2 true

/-- R181: READ_PREFIX. -/
def readPrefixMarks (devb a : Byte) (m0 m1 m2 m3 : Nat) : List Mark :=
  prefixMarks devb a m0 m1 m2 ++ startMarks ++ frameMarks (deviceFrame devb true) ++ ackMarks m3 true

/-- R187: the data frames of a write, the `i`-th acknowledged after `ms[i]` samples of the other level. -/
def writtenMarks (bytes : List Byte) (ms : List Nat) : List Mark :=
  (bytes.zip ms).flatMap fun p => frameMarks p.1 ++ ackMarks p.2 true

/-- R192: the data part of a page read: every byte but the last is answered by a master ACK. -/
def pageReadMarks (bytes : List (List Level)) : List Mark :=
  match bytes with
  | [] => []
  | [bits] => receivedMarks bits
  | bits :: rest => receivedMarks bits ++ masterAckMarks ++ pageReadMarks rest

/-- The byte of eight levels, the first of them bit 7 (R57, R145). -/
def byteOfBits (bits : List Level) : Byte :=
  bits.foldl (fun b v => (b <<< 1) ||| (BitVec.ofBool v).setWidth 8) 0

/-! ## What the environment does -/

/-- The sample of the floated data line `sda` taken after `k` other accesses reads `want`: the environment pulls it low
exactly when 0 is wanted (R56). -/
abbrev willRead (s : State) (sda k : Nat) (want : Level) : Prop :=
  s.lowAt k sda = !want

/-- A poll for `want` whose first sample comes after `k` other accesses sees it after `m` samples of the other level. -/
abbrev seenAfter (s : State) (sda : Nat) (want : Level) (k m : Nat) : Prop :=
  (∀ i < m, willRead s sda (k + i) (!want)) ∧ willRead s sda (k + m) want

/-- A poll of `t` samples, the first after `k` other accesses, never sees `want`. -/
abbrev neverSeen (s : State) (sda : Nat) (want : Level) (k t : Nat) : Prop :=
  ∀ i < t, willRead s sda (k + i) (!want)

/-- A poll with bound `t` sees `want` in time, after `m` samples of the other level. -/
abbrev seenInTime (s : State) (sda : Nat) (want : Level) (k t m : Nat) : Prop :=
  m < t ∧ seenAfter s sda want k m

/-- The eight levels SHIFT_IN will sample on the floated line `sda` when its first access comes after `k` others: the
sample is the second access of each of its cells (R143). -/
def levelsAhead (s : State) (sda k : Nat) : List Level :=
  (List.range 8).map fun j => !s.lowAt (k + 3 * j + 1) sda

/-- INIT's poll is answered after `m0` samples: it is the first access of a command (R125). -/
abbrev busFree (s : State) (sda m0 : Nat) : Prop :=
  seenInTime s sda true 0 s.cfg.tInit m0

/-- The write-mode device address is acknowledged after `m1` samples. Before the first sample come INIT (`m0 + 5`
accesses), START (4), the frame (24) and two accesses of WAIT_ACK. -/
abbrev deviceAcks (s : State) (sda m0 m1 : Nat) : Prop :=
  seenInTime s sda false (m0 + 35) s.cfg.tAck m1

/-- The byte address is acknowledged after `m2` samples. -/
abbrev addressAcks (s : State) (sda m0 m1 m2 : Nat) : Prop :=
  seenInTime s sda false (m0 + m1 + 63) s.cfg.tAck m2

/-- Every poll of PREFIX is answered in time (R180); it takes `m0 + m1 + m2 + 65` accesses. -/
abbrev prefixAnswered (s : State) (sda m0 m1 m2 : Nat) : Prop :=
  busFree s sda m0 ∧ deviceAcks s sda m0 m1 ∧ addressAcks s sda m0 m1 m2

/-- The read-mode device address is acknowledged after `m3` samples (R181). -/
abbrev readAcks (s : State) (sda m0 m1 m2 m3 : Nat) : Prop :=
  seenInTime s sda false (m0 + m1 + m2 + 95) s.cfg.tAck m3

/-- Every poll of READ_PREFIX is answered in time (R181); it takes `m0 + m1 + m2 + m3 + 97` accesses. -/
abbrev readPrefixAnswered (s : State) (sda m0 m1 m2 m3 : Nat) : Prop :=
  prefixAnswered s sda m0 m1 m2 ∧ readAcks s sda m0 m1 m2 m3

/-- The data bytes of a write are all acknowledged within the bound `t`, the `i`-th after `ms[i]` samples of the other
level, when the first frame's first access comes after `k` others: a frame is 24 accesses, its acknowledge pulse has
two before the first sample and one after the last. -/
def allAcknowledged (s : State) (sda t : Nat) : Nat → List Nat → Prop
  | _, [] => True
  | k, m :: ms => seenInTime s sda false (k + 26) t m ∧ allAcknowledged s sda t (k + 28 + m) ms

/-- The byte with the bits `bit` goes out bit 7 first (R57): the data line of eight bit cells (R91), the first access of
which is access `k` of `as`, takes `bit 7` down to `bit 0`, 1 floating the line and 0 asserting it low (R86). -/
abbrev sentFrom (dev : Descriptor) (as : List Access) (k : Nat) (bit : Nat → Level) : Prop :=
  ∀ j < 8, as[k + 3 * j]? = some (.set dev.sda (if bit (7 - j) then .float else .drive))

/-- The byte with the bits `bit` comes in bit 7 first (R57): the samples of eight bit cells (R91), the first access of
which is access `k` of `as`, return `bit 7` down to `bit 0`. -/
abbrev receivedFrom (dev : Descriptor) (as : List Access) (k : Nat) (bit : Nat → Level) : Prop :=
  ∀ j < 8, as[k + 3 * j + 1]? = some (.get dev.sda (bit (7 - j)))

/-- R89: the bits of the device address frame, from `base` and `page_off` (R88): the flag in place of bit 0. -/
def addressBit (dev : Descriptor) (rw : Bool) (i : Nat) : Level :=
  if i = 0 then rw else (dev.base + dev.pageOff).getLsbD i

/-- How many accesses the frames and acknowledge pulses of `allAcknowledged` take. -/
def writtenLength (ms : List Nat) : Nat :=
  28 * ms.length + ms.sum

/-- The levels of `n` bytes of a page read whose first access comes after `k` others: 24 accesses a byte, 4 a master
ACK. -/
def pageLevelsAhead (s : State) (sda k n : Nat) : List (List Level) :=
  (List.range n).map fun i => levelsAhead s sda (k + 28 * i)

end Sys2Proof.Machine
end

