-- ==== Sys2Proof/Machine/Wire.lean ====
section
/-! DEFINITION. The bus as a remote device sees it: the symbols of spec/30_encoding.md R92 read off the pads, and the
engine's own moves of the data line (spec/70_reset_and_hazards.md R254). Observers: no meaning calls them. -/

namespace Sys2Proof.Machine

/-- The bus symbols of R92. -/
inductive Symbol where
  | start
  | stop
  /-- A rising clock edge and the bit the receiver takes at it. -/
  | rise (bit : Level)
  | fall
  /-- A change of the data line under a low clock. -/
  | data
deriving DecidableEq, Repr

/-- R92: the symbol of one access, from the pads `scl`, `sda` before it and after it; none when neither changes. -/
def padSymbol (scl sda scl' sda' : Level) : Option Symbol :=
  match scl, scl' with
  | true, true => if sda && !sda' then some .start else if !sda && sda' then some .stop else none
  | false, true => some (.rise sda')
  | true, false => some .fall
  | false, false => if sda == sda' then none else some .data

/-- The bus after a sequence of events, earliest first. -/
def replay (b : Bus) (es : List Event) : Bus :=
  es.foldl (fun acc e => e.apply acc) b

/-- R92: what each access of a sequence of events puts on the lines `scl` and `sda`, a symbol or nothing; only accesses
make symbols. -/
def symbolsFrom (scl sda : Nat) : Bus → List Event → List (Option Symbol)
  | _, [] => []
  | b, .acc a :: es =>
    let b' := Event.apply (.acc a) b
    padSymbol (b.pad scl) (b.pad sda) (b'.pad scl) (b'.pad sda) :: symbolsFrom scl sda b' es
  | b, .env c :: es => symbolsFrom scl sda (Event.apply (.env c) b) es
  | b, .phase _ :: es => symbolsFrom scl sda b es

/-- The START and STOP symbols among what accesses make, `drive` for START (the data line falls) and `float` for STOP
(it rises). -/
def framing (ss : List (Option Symbol)) : List Direction :=
  ss.filterMap fun
    | some .start => some .drive
    | some .stop => some .float
    | some (.rise _) => none
    | some .fall => none
    | some .data => none
    | none => none

/-- The accesses that change the engine's state of the data line while the engine floats the clock, as
the direction they give the data line: `drive` is what START does at its third access, `float` what STOP does at its
fourth (R254). -/
def movesUnderHighClock (scl sda : Nat) : Bus → List Access → List Direction
  | _, [] => []
  | b, .get _ _ :: as => movesUnderHighClock scl sda b as
  | b, .set l f :: as =>
    let rest := movesUnderHighClock scl sda (Event.apply (.acc (.set l f)) b) as
    if l = sda ∧ b.dirOf sda ≠ f ∧ b.dirOf scl = .float then f :: rest else rest

end Sys2Proof.Machine
end

