-- ==== Sys2Proof/Safety.lean ====
section
/-! DEFINITION. What a well-formed state and a safe end of an operation are, in the terms the statements use. -/

namespace Sys2Proof.Machine

/-- R111: `DIR[l] = FLOAT`, `OUT[l] = 1`. -/
def Bus.floated (b : Bus) (l : Nat) : Prop :=
  b.dirOf l = .float ∧ b.outOf l = true

/-- R111: `DIR[l] = DRIVE`, `OUT[l] = 0`. -/
def Bus.assertedLow (b : Bus) (l : Nat) : Prop :=
  b.dirOf l = .drive ∧ b.outOf l = false

/-- R24, the open-drain invariant, of every line: never `DIR = DRIVE` with `OUT = 1`. -/
def Bus.openDrain (b : Bus) : Prop :=
  ∀ l, ¬ (b.dirOf l = .drive ∧ b.outOf l = true)

/-- R36: the DIR and OUT bits of every line but `scl` and `sda` are the same. -/
def Bus.sameElsewhere (scl sda : Nat) (b b' : Bus) : Prop :=
  ∀ l, l ≠ scl → l ≠ sda → b'.dirOf l = b.dirOf l ∧ b'.outOf l = b.outOf l

/-- The registers less the working registers `SR`, `BITIDX`, `POLL`, `IDX`, which "have no meaning outside the operation
that loads them" (R29): what two register files agree on when they differ in those alone. -/
def Regs.lasting (r : Regs) : Regs :=
  { r with sr := 0, bitIdx := 0, poll := 0, idx := 0 }

/-- The canonical form of the line space: `NLINES` entries in each vector (R20, log 18). -/
def Bus.sized (n : Nat) (b : Bus) : Prop :=
  b.dir.length = n ∧ b.out.length = n ∧ b.extLow.length = n

/-- What holds of the machine between steps. -/
structure State.Inv (s : State) : Prop where
  /-- R10. -/
  lines : 2 ≤ s.cfg.nlines
  /-- R20. -/
  sized : s.bus.sized s.cfg.nlines
  /-- R24. -/
  openDrain : s.bus.openDrain
  /-- R27: the latched descriptor is valid. -/
  latch : s.regs.desc.wf s.cfg.nlines = true
  /-- R30: `OK = 1` exactly when `ERR = None`. -/
  outcome : s.regs.ok = true ↔ s.regs.err = none
  /-- R33: the engine is idle between operations. -/
  idle : s.regs.phase = .idle

/-- R33: what acceptance latches; a latch of an operand the command does not have keeps its value (R28, log 16). -/
def commandLatches : Instr → Regs → Regs
  | .writeByte dev a d, r =>
    { r with desc := dev, op := .writeByte, byteAddr := a, wdata := [d], devb := deviceByte dev }
  | .writePage dev a data count, r =>
    { r with desc := dev, op := .writePage, byteAddr := a, wdata := data, count := count, devb := deviceByte dev }
  | .readByte dev a, r => { r with desc := dev, op := .readByte, byteAddr := a, devb := deviceByte dev }
  | .readPage dev a count, r =>
    { r with desc := dev, op := .readPage, byteAddr := a, count := count, devb := deviceByte dev }
  | .regset _ _, r | .regin _, r | .drive _ _, r | .start, r | .stop, r | .init, r | .shiftOut _, r | .shiftIn, r
  | .waitAck _, r | .waitNack _, r | .masterAck, r | .sendDevAddr _ _, r | .sendByteAddr _, r => r

/-- What every end of a command, with `ERR` at `e`, leaves in the registers (R30, R33, R182, R183): the operand latches,
`PHASE`, `OK` and `ERR`, and every other lasting register as it was, but for `RBYTE` and `RBUF`, of which this says only
that a success that is no READ_PAGE leaves `RBUF` alone; `draws` is the model's own counter. That a latch of an operand
the command does not have keeps its value is the model's (log 16, DEDUCED). -/
structure State.Ended (i : Instr) (e : Option ErrKind) (s t : State) : Prop where
  registers : t.regs.lasting =
    ({ commandLatches i s.regs with
        phase := .idle
        ok := e.isNone
        err := e
        rbyte := t.regs.rbyte
        rbuf := t.regs.rbuf
        draws := t.regs.draws }).lasting
  rbuf : e = none → (∀ dev a n, i ≠ .readPage dev a n) → t.regs.rbuf = s.regs.rbuf

/-- R196: how a successful command leaves the machine. -/
def State.endedWell (dev : Descriptor) (t : State) : Prop :=
  t.bus.floated dev.scl ∧ t.bus.floated dev.sda ∧ t.regs.phase = .idle ∧ t.regs.ok = true ∧ t.regs.err = none

/-- R216: the abort state of `NoAck` and `UnexpectedAck`. -/
def State.aborted (dev : Descriptor) (k : ErrKind) (t : State) : Prop :=
  t.bus.assertedLow dev.scl ∧ t.bus.floated dev.sda ∧ t.regs.phase = .idle ∧ t.regs.ok = false ∧ t.regs.err = some k

/-- R211, R216: how `BusStuckLow` leaves the machine that was `s`: no DIR or OUT bit has changed. -/
def State.stuck (s t : State) : Prop :=
  t.bus.dir = s.bus.dir ∧ t.bus.out = s.bus.out ∧ t.regs.phase = .idle ∧ t.regs.ok = false ∧
    t.regs.err = some .busStuckLow

/-- From `s` to `t` exactly the accesses `ms` on the lines of `dev` and the changes `ps` of PHASE were performed, in
this order each (R9, R61, R62), and everything outside the registers and the two lines is as it was: the parameters, the
caller's other commands, the exposed operations and whether INIT has opened them, the DIR and OUT bits of every other line (R36); the environment has had one turn an access. -/
structure State.Performed (dev : Descriptor) (ms : List Mark) (ps : List Phase) (s t : State) : Prop where
  accesses : t.accesses = s.accesses ++ marked dev ms
  phases : t.phases = s.phases ++ ps
  cfg : t.cfg = s.cfg
  requests : t.requests = s.requests
  exposed : t.exposed = s.exposed
  opened : t.opened = s.opened
  elsewhere : s.bus.sameElsewhere dev.scl dev.sda t.bus
  environment : ∀ k l, t.lowAt k l = s.lowAt (ms.length + k) l

/-- When WRITE_BYTE succeeds: on an idle engine with the data line floated, the bus is seen free and the three frames are
acknowledged in time. The data byte's acknowledge is first sampled after `m0 + m1 + m2 + 91` accesses. -/
structure State.WriteByteAnswered (s : State) (dev : Descriptor) (m0 m1 m2 m3 : Nat) : Prop where
  inv : s.Inv
  valid : dev.wf s.cfg.nlines = true
  floated : s.bus.dirOf dev.sda = .float
  opened : prefixAnswered s dev.sda m0 m1 m2
  data : seenInTime s dev.sda false (m0 + m1 + m2 + 91) s.cfg.tAck m3

/-- When a WRITE_PAGE of as many bytes as `ms` has entries succeeds. -/
structure State.WritePageAnswered (s : State) (dev : Descriptor) (m0 m1 m2 : Nat) (ms : List Nat) : Prop where
  inv : s.Inv
  valid : dev.wf s.cfg.nlines = true
  floated : s.bus.dirOf dev.sda = .float
  opened : prefixAnswered s dev.sda m0 m1 m2
  data : allAcknowledged s dev.sda s.cfg.tAck (m0 + m1 + m2 + 65) ms

/-- When a read succeeds whose WAIT_NACK begins after `m0 + m1 + m2 + m3 + k` accesses: the bus is seen free and the three
address frames are acknowledged in time, and the data line stays high through the `T_NACK` samples of the last pulse. -/
structure State.ReadAnswered (s : State) (dev : Descriptor) (m0 m1 m2 m3 k : Nat) : Prop where
  inv : s.Inv
  valid : dev.wf s.cfg.nlines = true
  floated : s.bus.dirOf dev.sda = .float
  opened : readPrefixAnswered s dev.sda m0 m1 m2 m3
  silent : neverSeen s dev.sda false (m0 + m1 + m2 + m3 + k + 2) s.cfg.tNack

/-- R32: the transitions of PHASE; every other is impossible. -/
def Phase.mayFollow : Phase → Phase → Bool
  | .idle, .busCheck => true
  | .busCheck, .idle => true
  | .busCheck, .started => true
  | .started, .addrWritten => true
  | .started, .idle => true
  | .addrWritten, .byteAddrSent => true
  | .addrWritten, .idle => true
  | .byteAddrSent, .dataPhase => true
  | .dataPhase, .stopped => true
  | .dataPhase, .idle => true
  | .stopped, .idle => true
  | _, _ => false

/-- R32: a sequence of phases, from a phase on, takes only transitions of the table. -/
def phasesAllowed (p : Phase) (ps : List Phase) : Bool :=
  match ps with
  | [] => true
  | q :: qs => p.mayFollow q && phasesAllowed q qs

/-- The descriptor and the byte address of a command, none for what is no command: the four commands are what the
caller can issue (R81). -/
def commandTarget : Instr → Option (Descriptor × Byte)
  | .writeByte dev a _ => some (dev, a)
  | .writePage dev a _ _ => some (dev, a)
  | .readByte dev a => some (dev, a)
  | .readPage dev a _ => some (dev, a)
  | .regset _ _ | .regin _ | .drive _ _ | .start | .stop | .init | .shiftOut _ | .shiftIn | .waitAck _ | .waitNack _
  | .masterAck | .sendDevAddr _ _ | .sendByteAddr _ => none

/-- READ_BYTE and READ_PAGE. -/
def isRead : Instr → Bool
  | .readByte _ _ => true
  | .readPage _ _ _ => true
  | .regset _ _ | .regin _ | .drive _ _ | .start | .stop | .init | .shiftOut _ | .shiftIn | .waitAck _ | .waitNack _
  | .masterAck | .sendDevAddr _ _ | .sendByteAddr _ | .writeByte _ _ _ | .writePage _ _ _ _ => false

/-- R87: when an invocation has a meaning in a state. A command needs valid operands and an idle engine, SHIFT_IN a
floated data line, a primitive on the latched lines that they are lines of the register model (log 14). -/
def accepted (i : Instr) (s : State) : Prop :=
  i.wf s.cfg.nlines = true ∧
    match i with
    | .regset _ _ | .regin _ | .drive _ _ => True
    | .writeByte _ _ _ | .writePage _ _ _ _ | .readByte _ _ | .readPage _ _ _ => s.regs.phase = .idle
    | .shiftIn => latchedLinesOk s = true ∧ s.bus.dirOf s.regs.desc.sda = .float
    | .start | .stop | .init | .shiftOut _ | .waitAck _ | .waitNack _ | .masterAck | .sendDevAddr _ _
    | .sendByteAddr _ => latchedLinesOk s = true

end Sys2Proof.Machine
end

