-- ==== Sys2Proof/Certificates/Slice0/Obligations.lean ====
section
/-! DEFINITION. The statements for the provers. Each docstring names the rules of spec/ it formalises. A free value of
the model (RBYTE and RBUF where the spec leaves them unspecified, the contention level) is never given a value by any of
them, and none rests on a reset value the model chose. -/

open Sys2Proof Sys2Proof.Machine

/-! ## Reset and invariants -/

/-- R35, R240, R241: reset floats every line of the register model, is idle, and every line no remote device pulls low
reads high. -/
def Obligations.ResetFloatsEveryLine : Prop :=
  State.reset.regs.phase = .idle ∧
  ∀ l < State.reset.cfg.nlines,
    l < State.reset.bus.dir.length ∧ State.reset.bus.dirOf l = .float ∧
    (State.reset.bus.pulled l = false → State.reset.bus.pad l = true)

/-- The invariant holds at reset. Its clause `R30` about OK and ERR and its clause `R27` about the latched descriptor
rest at reset on values the model chose (logs 3, 4). -/
def Obligations.ResetMeetsInvariant : Prop :=
  State.reset.Inv

/-- R20, R24, R27, R30, R33, R113: every step keeps the register model's shape, the open-drain invariant of every line, a
valid latched descriptor, `OK = 1` exactly when `ERR = None`, and an idle engine. -/
def Obligations.StepKeepsInvariant : Prop :=
  ∀ s t : State, s.Inv → step s = .next t → t.Inv

/-- R9, R24, R61, R113: an operation changes the register model only through the accesses of its trace, one after
another, and after each of them, and after each act of the environment between them, no line is driven high. -/
def Obligations.OpenDrainBetweenAccesses : Prop :=
  ∀ (i : Instr) (s t : State), s.Inv → exec i s = .next t →
    ∃ es : List Event, t.history = es.reverse ++ s.history ∧ t.bus = replay s.bus es ∧
      ∀ k, (replay s.bus (es.take k)).openDrain

/-! ## Fetching and decoding -/

/-- R81, R98, R240 and logs 11, 12 and 21: with no operation exposed, a step takes the caller's oldest request and runs the
operation it encodes; a request that encodes none is refused by name; with no request the engine waits. An exposed
operation runs before the caller's requests (the model's choice, log 21), unless its transaction wants the INIT of R257,
which InitFirst states (log 22). What a step adds to the operation is `afterOperation`: whether the exposed transaction is
open afterwards, and that a raise drops the rest of it. -/
def Obligations.StepRunsDecodedOperation : Prop :=
  (∀ (s : State) (r : Request) (rest : List Request) (i : Instr),
    s.exposed = [] → s.requests = r :: rest → readRequest r = .ok i →
      step s = match exec i { s with requests := rest } with
        | .next t => .next (t.afterOperation i)
        | .fault f => .fault f
        | .refused e => .refused e) ∧
  (∀ (s : State) (r : Request) (rest : List Request) (e : DecodeError),
    s.exposed = [] → s.requests = r :: rest → readRequest r = .error e → step s = .refused (.illegal e)) ∧
  (∀ s : State, s.exposed = [] → s.requests = [] → step s = .next s) ∧
  ∀ (s : State) (i : Instr) (rest : List Instr), s.exposed = i :: rest → s.opened = true ∨ beginsWithInit i = true →
    step s = match exec i { s with exposed := rest } with
      | .next t => .next (t.afterOperation i)
      | .fault f => .fault f
      | .refused e => .refused e

/-- R82, R84, R85: decoding what `encode` writes gives the operation back, with every operand, wherever the binary form
exists (R82: line fields of 8 bits). -/
def Obligations.DecodeEncode : Prop :=
  ∀ i : Instr, i.encodable = true → decode (encode i) = .ok i

/-- R82, R84, R85: no two encodings of one format and of different bits mean the same operation: what a packet decodes
to is encoded in that format by those bits. -/
def Obligations.EncodeDecode : Prop :=
  ∀ (p : Packet) (i : Instr), decode p = .ok i → (encode i).format = p.format ∧ (encode i).bits = p.bits

/-- R80, R98 and spec/opcode_table.json: no packet is an instance of two rows of the table; what `decode` reads is the
operation of the row the packet is an instance of; an instance of no row is rejected. -/
def Obligations.DecodeFollowsTable : Prop :=
  ∀ p : Packet,
    (∀ r ∈ opcodeTable, ∀ q ∈ opcodeTable, r.matches p = true → q.matches p = true → r = q) ∧
    (∀ i, decode p = .ok i → ∃ r ∈ opcodeTable, r.matches p = true ∧ r.mnemonic = i.mnemonic) ∧
    ((∀ r ∈ opcodeTable, r.matches p = false) → ∃ e, decode p = .error e)

/-- R82, R84, R85: words and packets written out from the spec, and what they decode to. -/
def Obligations.WordsDecode : Prop :=
  decode (.cmd 0x1200A01D1C00 { wdata := [0x5A] }) = .ok (.writeByte ⟨28, 29, 0xA0, 0⟩ 0x12 0x5A) ∧
  decode (.cmd 0x1200A01D1C02 {}) = .ok (.readByte ⟨28, 29, 0xA0, 0⟩ 0x12) ∧
  decode (.cmd 0x0002A01D1C02 {}) = .ok (.readByte ⟨28, 29, 0xA0, 2⟩ 0x00) ∧
  decode (.cmd 0x0000A01D1C03 { count := 256 }) = .ok (.readPage ⟨28, 29, 0xA0, 0⟩ 0x00 256) ∧
  decode (.uop 9 { d := 0xA0, rw := 1 }) = .ok (.sendDevAddr 0xA0 true) ∧
  decode (.rm 1 29 1) = .ok (.regset 29 .drive)

/-- R98(a), U8: a command word of the caller with a reserved bit set is refused; no access is performed and nothing is
written. That it is refused under this name also where another precondition of R87 fails is the model's order (log 20). R84, R98(c): a primitive number from 11 to 15 selects nothing. -/
def Obligations.IllegalPacketsRefused : Prop :=
  (∀ (s : State) (rest : List Request) (w : BitVec 48) (p : Payload),
    s.exposed = [] → s.requests = .packet w p :: rest → w.extractLsb' 2 6 ≠ 0 →
      step s = .refused (.illegal (.reservedBits (w.extractLsb' 2 6)))) ∧
  ∀ (num : BitVec 4) (f : UopFields), 11 ≤ num.toNat → decode (.uop num f) = .error (.unusedUop num)

/-! ## Accesses, pads, DRIVE -/

/-- R50, R87: REGSET on a line of the register model completes as one access that latches 1 for FLOAT and 0 for DRIVE
and sets the direction of that one line; it writes no other line and no register. Any other line is refused. -/
def Obligations.RegsetEffect : Prop :=
  (∀ (s : State) (l : Nat) (f : Direction), s.Inv → l < s.cfg.nlines →
    ∃ t, exec (.regset l f) s = .next t ∧
      t.bus.dirOf l = f ∧ t.bus.outOf l = (match f with | .float => true | .drive => false) ∧
      (∀ l', l' ≠ l → t.bus.dirOf l' = s.bus.dirOf l' ∧ t.bus.outOf l' = s.bus.outOf l') ∧
      t.accesses = s.accesses ++ [.set l f] ∧ t.phases = s.phases ∧
      t.regs = s.regs ∧ t.cfg = s.cfg ∧ t.requests = s.requests ∧ t.exposed = s.exposed ∧ t.opened = s.opened ∧
      (∀ k l', t.lowAt k l' = s.lowAt (1 + k) l')) ∧
  ∀ (s : State) (l : Nat) (f : Direction), s.cfg.nlines ≤ l → exec (.regset l f) s = .refused .lineOutOfRange

/-- R51, R53, R56, R87: REGIN on a line of the register model completes as one access that returns 0 while the engine
asserts the line low and otherwise 1 exactly when no remote device pulls it low; it changes no DIR or OUT bit and no
register. Any other line is refused. -/
def Obligations.ReginEffect : Prop :=
  (∀ (s : State) (l : Nat), s.Inv → l < s.cfg.nlines →
    ∃ t, exec (.regin l) s = .next t ∧
      t.accesses = s.accesses ++ [.get l (match s.bus.dirOf l with | .drive => false | .float => !s.lowAt 0 l)] ∧
      t.phases = s.phases ∧ t.bus.dir = s.bus.dir ∧ t.bus.out = s.bus.out ∧
      t.regs = s.regs ∧ t.cfg = s.cfg ∧ t.requests = s.requests ∧ t.exposed = s.exposed ∧ t.opened = s.opened ∧
      (∀ k l', t.lowAt k l' = s.lowAt (1 + k) l')) ∧
  ∀ (s : State) (l : Nat), s.cfg.nlines ≤ l → exec (.regin l) s = .refused .lineOutOfRange

/-- R51: two REGIN of one line with no change of DIR, OUT or EXT_LOW between them return the same level, in every state,
the forbidden driven-high state included, and whatever the environment does before the first. Its turn before the second
may assign what it likes as long as no EXT_LOW bit changes by it. -/
def Obligations.RepeatedReginAgrees : Prop :=
  ∀ (s : State) (l : Nat), l < s.cfg.nlines → (∀ l', s.lowAt 1 l' = s.lowAt 0 l') →
    ∃ t u v, exec (.regin l) s = .next t ∧ exec (.regin l) t = .next u ∧
      u.accesses = s.accesses ++ [.get l v, .get l v]

/-- R53: the pad function, but for its last line, which leaves the level unspecified. -/
def Obligations.PadFunction : Prop :=
  ∀ (b : Bus) (l : Nat),
    (b.dirOf l = .drive ∧ b.outOf l = false → b.pad l = false) ∧
    (b.dirOf l = .float ∧ b.pulled l = true → b.pad l = false) ∧
    (b.dirOf l = .float ∧ b.pulled l = false → b.pad l = true) ∧
    (b.dirOf l = .drive ∧ b.outOf l = true ∧ b.pulled l = false → b.pad l = true)

/-- R86: `DRIVE(l, v)` is `REGSET(l, FLOAT)` for level 1 and `REGSET(l, DRIVE)` for level 0. -/
def Obligations.DriveIssuesRegset : Prop :=
  ∀ (s : State) (l : Nat),
    exec (.drive l true) s = exec (.regset l .float) s ∧ exec (.drive l false) s = exec (.regset l .drive) s

/-- R110: DRIVE, `uop` 0, performs exactly one access, floats the line for level 1 and asserts it low for level 0, writes
no flag and raises nothing; on a line already in that state it is performed and changes no DIR or OUT bit; it leaves the
pad low where a remote device holds a floated line low; a line outside the register model is refused. -/
def Obligations.DriveEffect : Prop :=
  (∀ f : UopFields, decode (.uop 0 f) = .ok (.drive f.l (f.v.getLsbD 0))) ∧
  (∀ (s : State) (l : Nat) (v : Level), s.Inv → l < s.cfg.nlines →
    ∃ t, exec (.drive l v) s = .next t ∧
      t.accesses = s.accesses ++ [.set l (if v then .float else .drive)] ∧ t.phases = s.phases ∧
      (v = true → t.bus.floated l) ∧ (v = false → t.bus.assertedLow l) ∧
      t.bus.pad l = (v && !t.bus.pulled l) ∧
      (∀ l', l' ≠ l → t.bus.dirOf l' = s.bus.dirOf l' ∧ t.bus.outOf l' = s.bus.outOf l') ∧
      ((v = true ∧ s.bus.floated l ∨ v = false ∧ s.bus.assertedLow l) →
        t.bus.dir = s.bus.dir ∧ t.bus.out = s.bus.out) ∧
      t.regs = s.regs ∧ t.cfg = s.cfg ∧ t.requests = s.requests ∧ t.exposed = s.exposed ∧ t.opened = s.opened ∧
      (∀ k l', t.lowAt k l' = s.lowAt (1 + k) l')) ∧
  ∀ (s : State) (l : Nat) (v : Level), s.cfg.nlines ≤ l → exec (.drive l v) s = .refused .lineOutOfRange

/-! ## Bus signals -/

/-- R121: START, `uop` 1, completes as `D1 C1 D0 C0` on the latched lines, writes no flag and no other register, raises nothing,
and leaves both lines asserted low. -/
def Obligations.StartEffect : Prop :=
  (∀ f : UopFields, decode (.uop 1 f) = .ok .start) ∧
  ∀ s : State, s.Inv →
    ∃ t, exec .start s = .next t ∧
      s.Performed s.regs.desc [.d true, .c true, .d false, .c false] [] t ∧
      t.bus.assertedLow s.regs.desc.scl ∧ t.bus.assertedLow s.regs.desc.sda ∧ t.regs = s.regs

/-- R123: STOP, `uop` 2, completes as `C0 D0 C1 D1` on the latched lines, writes no flag and no other register, raises nothing,
and leaves both lines floated. -/
def Obligations.StopEffect : Prop :=
  (∀ f : UopFields, decode (.uop 2 f) = .ok .stop) ∧
  ∀ s : State, s.Inv →
    ∃ t, exec .stop s = .next t ∧
      s.Performed s.regs.desc [.c false, .d false, .c true, .d true] [] t ∧
      t.bus.floated s.regs.desc.scl ∧ t.bus.floated s.regs.desc.sda ∧ t.regs = s.regs

/-- R92, R122, R252: the third access of START is the START symbol exactly when no remote device holds either line low at
it, and unless START finds the clock floated and the data line asserted low, its first two accesses are neither a START
nor a STOP. -/
def Obligations.StartSymbol : Prop :=
  ∀ s : State, s.Inv →
    ∃ t es, exec .start s = .next t ∧ t.history = es.reverse ++ s.history ∧
      ((symbolsFrom s.regs.desc.scl s.regs.desc.sda s.bus es)[2]? = some (some .start) ↔
        s.lowAt 2 s.regs.desc.scl = false ∧ s.lowAt 2 s.regs.desc.sda = false) ∧
      (s.bus.dirOf s.regs.desc.scl = .drive ∨ s.bus.dirOf s.regs.desc.sda = .float →
        framing ((symbolsFrom s.regs.desc.scl s.regs.desc.sda s.bus es).take 2) = [])

/-- R92, R124, R253: the fourth access of STOP is the STOP symbol exactly when no remote device holds either line low at
it, and whatever the lines before, the first three are neither a START nor a STOP. -/
def Obligations.StopSymbol : Prop :=
  ∀ s : State, s.Inv →
    ∃ t es, exec .stop s = .next t ∧ t.history = es.reverse ++ s.history ∧
      ((symbolsFrom s.regs.desc.scl s.regs.desc.sda s.bus es)[3]? = some (some .stop) ↔
        s.lowAt 3 s.regs.desc.scl = false ∧ s.lowAt 3 s.regs.desc.sda = false) ∧
      framing ((symbolsFrom s.regs.desc.scl s.regs.desc.sda s.bus es).take 3) = []

/-- R125: INIT, `uop` 3, samples the data line at most `T_INIT` times. When a sample reads high it stops sampling, issues a STOP
and writes no flag; when none does, because remote devices hold the floated line low or because the engine asserts it
low, it raises BusStuckLow having driven nothing. -/
def Obligations.InitEffect : Prop :=
  (∀ f : UopFields, decode (.uop 3 f) = .ok .init) ∧
  (∀ (s : State) (m : Nat), s.Inv → s.bus.dirOf s.regs.desc.sda = .float →
    seenInTime s s.regs.desc.sda true 0 s.cfg.tInit m →
      ∃ t, exec .init s = .next t ∧
        s.Performed s.regs.desc
          (List.replicate m (.r false) ++ [.r true] ++ [.c false, .d false, .c true, .d true]) [] t ∧
        t.bus.floated s.regs.desc.scl ∧ t.bus.floated s.regs.desc.sda ∧ t.regs.lasting = s.regs.lasting) ∧
  ∀ s : State, s.Inv →
    (s.bus.dirOf s.regs.desc.sda = .float → neverSeen s s.regs.desc.sda true 0 s.cfg.tInit) →
      ∃ t, exec .init s = .next t ∧
        s.Performed s.regs.desc (List.replicate s.cfg.tInit (.r false)) [.idle] t ∧ s.stuck t ∧
        t.regs.lasting = { s.regs.lasting with ok := false, err := some .busStuckLow }

/-! ## Transfer -/

/-- R140, R141, R57: SHIFT_OUT, `uop` 4, loads SR and completes as eight cells `D C1 C0`, bit 7 first, writes no flag and
raises nothing; the clock is left asserted low and the data line at the level of bit 0. -/
def Obligations.ShiftOutEffect : Prop :=
  (∀ f : UopFields, decode (.uop 4 f) = .ok (.shiftOut f.b)) ∧
  ∀ (s : State) (b : Byte), s.Inv →
    ∃ t, exec (.shiftOut b) s = .next t ∧
      s.Performed s.regs.desc
        ([b.getLsbD 7, b.getLsbD 6, b.getLsbD 5, b.getLsbD 4, b.getLsbD 3, b.getLsbD 2, b.getLsbD 1,
          b.getLsbD 0].flatMap fun v => [.d v, .c true, .c false]) [] t ∧
      t.bus.assertedLow s.regs.desc.scl ∧
      (b.getLsbD 0 = true → t.bus.floated s.regs.desc.sda) ∧
      (b.getLsbD 0 = false → t.bus.assertedLow s.regs.desc.sda) ∧
      t.regs.sr = b ∧ t.regs.lasting = s.regs.lasting

/-- R143, R145, R57: with the data line floated SHIFT_IN, `uop` 5, completes as eight cells `C1 r C0`, returns in SR the eight
sampled levels, the first in bit 7, writes no flag and raises nothing; the clock is left asserted low and the data line
floated. -/
def Obligations.ShiftInEffect : Prop :=
  (∀ f : UopFields, decode (.uop 5 f) = .ok .shiftIn) ∧
  ∀ s : State, s.Inv → s.bus.dirOf s.regs.desc.sda = .float →
    ∃ t, exec .shiftIn s = .next t ∧
      s.Performed s.regs.desc
        ((List.range 8).flatMap fun j => [.c true, .r (!s.lowAt (3 * j + 1) s.regs.desc.sda), .c false]) [] t ∧
      (∀ j < 8, t.regs.sr.getLsbD (7 - j) = !s.lowAt (3 * j + 1) s.regs.desc.sda) ∧
      t.bus.assertedLow s.regs.desc.scl ∧ t.bus.dirOf s.regs.desc.sda = .float ∧
      t.bus.outOf s.regs.desc.sda = s.bus.outOf s.regs.desc.sda ∧ t.regs.lasting = s.regs.lasting

/-- R87, R144, U7: SHIFT_IN is refused while the engine drives the data line. -/
def Obligations.ShiftInRefused : Prop :=
  ∀ s : State, s.bus.dirOf s.regs.desc.sda = .drive → exec .shiftIn s = .refused .dataLineNotFloated

/-! ## Acknowledge -/

/-- R150: WAIT_ACK, `uop` 6, floats the data line, raises the clock, samples the data line at most `T` times up to the first low
sample, lowers the clock, and then, when no sample was low, raises NoAck. On both ways out the data line is floated and
the clock asserted low, and no flag but those of the raise is written. -/
def Obligations.WaitAckEffect : Prop :=
  (∀ f : UopFields, decode (.uop 6 f) = .ok (.waitAck f.t)) ∧
  (∀ (s : State) (T m : Nat), s.Inv → seenInTime s s.regs.desc.sda false 2 T m →
    ∃ t, exec (.waitAck T) s = .next t ∧
      s.Performed s.regs.desc
        ([.d true, .c true] ++ List.replicate m (.r true) ++ [.r false] ++ [.c false]) [] t ∧
      t.bus.assertedLow s.regs.desc.scl ∧ t.bus.floated s.regs.desc.sda ∧ t.regs.lasting = s.regs.lasting) ∧
  ∀ (s : State) (T : Nat), s.Inv → neverSeen s s.regs.desc.sda false 2 T →
    ∃ t, exec (.waitAck T) s = .next t ∧
      s.Performed s.regs.desc ([.d true, .c true] ++ List.replicate T (.r true) ++ [.c false]) [.idle] t ∧
      t.aborted s.regs.desc .noAck ∧
      t.regs.lasting = { s.regs.lasting with ok := false, err := some .noAck }

/-- R153, R154: WAIT_NACK performs the same accesses; it completes without a flag written when no sample was low, after
exactly `T` samples, and raises UnexpectedAck when one was. -/
def Obligations.WaitNackEffect : Prop :=
  (∀ (s : State) (T : Nat), s.Inv → neverSeen s s.regs.desc.sda false 2 T →
    ∃ t, exec (.waitNack T) s = .next t ∧
      s.Performed s.regs.desc ([.d true, .c true] ++ List.replicate T (.r true) ++ [.c false]) [] t ∧
      t.bus.assertedLow s.regs.desc.scl ∧ t.bus.floated s.regs.desc.sda ∧ t.regs.lasting = s.regs.lasting) ∧
  ∀ (s : State) (T m : Nat), s.Inv → seenInTime s s.regs.desc.sda false 2 T m →
    ∃ t, exec (.waitNack T) s = .next t ∧
      s.Performed s.regs.desc
        ([.d true, .c true] ++ List.replicate m (.r true) ++ [.r false] ++ [.c false]) [.idle] t ∧
      t.aborted s.regs.desc .unexpectedAck ∧
      t.regs.lasting = { s.regs.lasting with ok := false, err := some .unexpectedAck }

/-- R156, R157: MASTER_ACK, `uop` 8, completes as `D0 C1 C0 D1`, writes no flag and no other register, raises nothing, and leaves
the clock asserted low and the data line floated. -/
def Obligations.MasterAckEffect : Prop :=
  (∀ f : UopFields, decode (.uop 8 f) = .ok .masterAck) ∧
  ∀ s : State, s.Inv →
    ∃ t, exec .masterAck s = .next t ∧
      s.Performed s.regs.desc [.d false, .c true, .c false, .d true] [] t ∧
      t.bus.assertedLow s.regs.desc.scl ∧ t.bus.floated s.regs.desc.sda ∧ t.regs = s.regs

/-! ## Addressing -/

/-- R170, R89, R171: SEND_DEV_ADDR, `uop` 9, completes as seven cells for bits 7 to 1 of the device byte and one for the
read/write flag (0 write, 1 read); bit 0 of the device byte is not sent; no flag is written and nothing raised. -/
def Obligations.SendDevAddrEffect : Prop :=
  (∀ f : UopFields, decode (.uop 9 f) = .ok (.sendDevAddr f.d (f.rw.getLsbD 0))) ∧
  ∀ (s : State) (d : Byte) (rw : Bool), s.Inv →
    ∃ t, exec (.sendDevAddr d rw) s = .next t ∧
      s.Performed s.regs.desc
        ([d.getLsbD 7, d.getLsbD 6, d.getLsbD 5, d.getLsbD 4, d.getLsbD 3, d.getLsbD 2, d.getLsbD 1,
          rw].flatMap fun v => [.d v, .c true, .c false]) [] t ∧
      t.bus.assertedLow s.regs.desc.scl ∧
      (rw = true → t.bus.floated s.regs.desc.sda) ∧ (rw = false → t.bus.assertedLow s.regs.desc.sda) ∧
      t.regs.lasting = s.regs.lasting

/-- R173, R174: SEND_BYTE_ADDR, `uop` 10, sends the byte address bit 7 first and waits for its acknowledge with the bound `T_ACK`;
it raises NoAck, and writes no flag otherwise. The first sample comes after the 24 accesses of the frame and two of
WAIT_ACK. -/
def Obligations.SendByteAddrEffect : Prop :=
  (∀ f : UopFields, decode (.uop 10 f) = .ok (.sendByteAddr f.a)) ∧
  (∀ (s : State) (a : Byte) (m : Nat), s.Inv → seenInTime s s.regs.desc.sda false 26 s.cfg.tAck m →
    ∃ t, exec (.sendByteAddr a) s = .next t ∧
      s.Performed s.regs.desc (frameMarks a ++ ackMarks m true) [] t ∧
      t.bus.assertedLow s.regs.desc.scl ∧ t.bus.floated s.regs.desc.sda ∧ t.regs.lasting = s.regs.lasting) ∧
  ∀ (s : State) (a : Byte), s.Inv → neverSeen s s.regs.desc.sda false 26 s.cfg.tAck →
    ∃ t, exec (.sendByteAddr a) s = .next t ∧
      s.Performed s.regs.desc (frameMarks a ++ ackMarks s.cfg.tAck false) [.idle] t ∧
      t.aborted s.regs.desc .noAck ∧
      t.regs.lasting = { s.regs.lasting with ok := false, err := some .noAck }

/-! ## When an invocation is accepted -/

/-- R17, R33, R87: an invocation completes exactly when its preconditions hold, in every state; there is no fault. -/
def Obligations.CompletesExactlyWhenAccepted : Prop :=
  ∀ (i : Instr) (s : State),
    ((∃ t, exec i s = .next t) ↔ accepted i s) ∧ ∀ f, exec i s ≠ .fault f

/-- R33, R87, R188(c), R193(b), U3 to U6, U8: the refusals of the commands, by name; with more than one cause the first
of busy, line out of range, one line for both, operand count (the order is the model's, log 20). -/
def Obligations.CommandRefusals : Prop :=
  (∀ (i : Instr) (s : State) (dev : Descriptor) (a : Byte), commandTarget i = some (dev, a) →
    (s.regs.phase ≠ .idle → exec i s = .refused .busy) ∧
    (s.regs.phase = .idle → s.cfg.nlines ≤ dev.scl ∨ s.cfg.nlines ≤ dev.sda →
      exec i s = .refused .lineOutOfRange) ∧
    (s.regs.phase = .idle → dev.scl < s.cfg.nlines → dev.scl = dev.sda → exec i s = .refused .sameLine)) ∧
  (∀ (s : State) (dev : Descriptor) (a : Byte) (data : List Byte) (n : Nat),
    s.regs.phase = .idle → dev.wf s.cfg.nlines = true → data.length < n →
      exec (.writePage dev a data n) s = .refused .countExceedsData) ∧
  ∀ (s : State) (dev : Descriptor) (a : Byte), s.regs.phase = .idle → dev.wf s.cfg.nlines = true →
    exec (.readPage dev a 0) s = .refused .countZero

/-- R33, R88: whatever becomes of a command that is accepted, the descriptor, the operation and the byte address are the
latched ones, and the device byte is `(base + page_off) mod 256`. That the latch of an operand the command does not have
keeps its value (in `Ended`) is the model's choice (log 16, DEDUCED). -/
def Obligations.CommandLatchesOperands : Prop :=
  ∀ (i : Instr) (s t : State) (dev : Descriptor) (a : Byte), commandTarget i = some (dev, a) →
    s.Inv → exec i s = .next t →
      t.regs.desc = dev ∧ t.regs.byteAddr = a ∧
      t.regs.devb.toNat = (dev.base.toNat + dev.pageOff.toNat) % 256 ∧
      ∃ e, s.Ended i e t

/-! ## Commands that succeed -/

/-- R185, R180, R183, R196: WRITE_BYTE on an idle engine with the data line floated, the bus seen free in time and the
three frames acknowledged in time, succeeds, with the trace `P S [W] a [a] a [d] a P` of R94 and R186. The data byte's
acknowledge is first sampled after `m0 + m1 + m2 + 91` accesses. That the unused `count` latch keeps its value (in
`Ended`) is the model's choice (log 16, DEDUCED). -/
def Obligations.WriteByteSucceeds : Prop :=
  ∀ (s : State) (dev : Descriptor) (a d : Byte) (m0 m1 m2 m3 : Nat), s.Inv → dev.wf s.cfg.nlines = true →
    s.bus.dirOf dev.sda = .float → prefixAnswered s dev.sda m0 m1 m2 →
    seenInTime s dev.sda false (m0 + m1 + m2 + 91) s.cfg.tAck m3 →
      ∃ t, exec (.writeByte dev a d) s = .next t ∧
        s.Performed dev
          (prefixMarks (deviceByte dev) a m0 m1 m2 ++ frameMarks d ++ ackMarks m3 true ++ stopMarks)
          [.busCheck, .started, .addrWritten, .byteAddrSent, .dataPhase, .stopped, .idle] t ∧
        t.endedWell dev ∧ s.Ended (.writeByte dev a d) none t

/-- R187, R188, R180, R183, R196: WRITE_PAGE likewise, with the first `count` bytes of the data, in order, each
acknowledged in time; `count = 0` is the prefix and the STOP. -/
def Obligations.WritePageSucceeds : Prop :=
  ∀ (s : State) (dev : Descriptor) (a : Byte) (data : List Byte) (count m0 m1 m2 : Nat) (ms : List Nat), s.Inv →
    dev.wf s.cfg.nlines = true → count ≤ data.length → ms.length = count →
    s.bus.dirOf dev.sda = .float → prefixAnswered s dev.sda m0 m1 m2 →
    allAcknowledged s dev.sda s.cfg.tAck (m0 + m1 + m2 + 65) ms →
      ∃ t, exec (.writePage dev a data count) s = .next t ∧
        s.Performed dev
          (prefixMarks (deviceByte dev) a m0 m1 m2 ++ writtenMarks (data.take count) ms ++ stopMarks)
          [.busCheck, .started, .addrWritten, .byteAddrSent, .dataPhase, .stopped, .idle] t ∧
        t.endedWell dev ∧ s.Ended (.writePage dev a data count) none t

/-- R190, R181, R183, R191, R196: READ_BYTE on an idle engine with the data line floated, the prefix answered and the
line left high through `T_NACK` samples, succeeds; `RBYTE` is the eight levels sampled, the first in bit 7; `T_NACK` is
the number of samples. The first data cell comes after `m0 + m1 + m2 + m3 + 97` accesses, the first WAIT_NACK sample 26
accesses later. That the unused `wdata` and `count` latches keep their values (in `Ended`) is the model's choice (log 16,
DEDUCED). -/
def Obligations.ReadByteSucceeds : Prop :=
  ∀ (s : State) (dev : Descriptor) (a : Byte) (m0 m1 m2 m3 : Nat), s.Inv → dev.wf s.cfg.nlines = true →
    s.bus.dirOf dev.sda = .float → readPrefixAnswered s dev.sda m0 m1 m2 m3 →
    neverSeen s dev.sda false (m0 + m1 + m2 + m3 + 123) s.cfg.tNack →
      ∃ t, exec (.readByte dev a) s = .next t ∧
        s.Performed dev
          (readPrefixMarks (deviceByte dev) a m0 m1 m2 m3 ++
            receivedMarks (levelsAhead s dev.sda (m0 + m1 + m2 + m3 + 97)) ++ ackMarks s.cfg.tNack false ++
            stopMarks)
          [.busCheck, .started, .addrWritten, .byteAddrSent, .dataPhase, .stopped, .idle] t ∧
        t.endedWell dev ∧ s.Ended (.readByte dev a) none t ∧
        t.regs.rbyte = byteOfBits (levelsAhead s dev.sda (m0 + m1 + m2 + m3 + 97))

/-- R192, R193, R181, R183, R196, R58: READ_PAGE likewise, for every `count` from 1 up: every byte but the last is
answered by a master ACK, after the last the data line is floated and the NACK checked; `RBUF` is the bytes in the order
received. That the unused `wdata` latch keeps its value (in `Ended`) is the model's choice (log 16, DEDUCED). -/
def Obligations.ReadPageSucceeds : Prop :=
  ∀ (s : State) (dev : Descriptor) (a : Byte) (count m0 m1 m2 m3 : Nat), s.Inv → dev.wf s.cfg.nlines = true →
    1 ≤ count → s.bus.dirOf dev.sda = .float → readPrefixAnswered s dev.sda m0 m1 m2 m3 →
    neverSeen s dev.sda false (m0 + m1 + m2 + m3 + 96 + 28 * count) s.cfg.tNack →
      ∃ t, exec (.readPage dev a count) s = .next t ∧
        s.Performed dev
          (readPrefixMarks (deviceByte dev) a m0 m1 m2 m3 ++
            pageReadMarks (pageLevelsAhead s dev.sda (m0 + m1 + m2 + m3 + 97) count) ++ [.d true] ++
            ackMarks s.cfg.tNack false ++ stopMarks)
          [.busCheck, .started, .addrWritten, .byteAddrSent, .dataPhase, .stopped, .idle] t ∧
        t.endedWell dev ∧ s.Ended (.readPage dev a count) none t ∧
        t.regs.rbuf = (pageLevelsAhead s dev.sda (m0 + m1 + m2 + m3 + 97) count).map byteOfBits

/-- R57, R88, R89, R140, R143, R145, R170: the bit order of what the commands do, access by access. Every byte the engine
sends goes out bit 7 first: the device address frame is bits 7 to 1 of `(base + page_off) mod 256` and then the flag, 0
for write and 1 for read; the byte address and each data byte follow. Every byte it receives comes in bit 7 first: bit
`7 - j` of `RBYTE`, and of each element of `RBUF`, is the level sampled in cell `j`. -/
def Obligations.BitOrder : Prop :=
  (∀ (s : State) (dev : Descriptor) (a d : Byte) (m0 m1 m2 m3 : Nat), s.WriteByteAnswered dev m0 m1 m2 m3 →
    ∃ t as, exec (.writeByte dev a d) s = .next t ∧ t.accesses = s.accesses ++ as ∧
      sentFrom dev as (m0 + 9) (addressBit dev false) ∧ sentFrom dev as (m0 + m1 + 37) a.getLsbD ∧
      sentFrom dev as (m0 + m1 + m2 + 65) d.getLsbD) ∧
  (∀ (s : State) (dev : Descriptor) (a : Byte) (data : List Byte) (m0 m1 m2 : Nat) (ms : List Nat),
    s.WritePageAnswered dev m0 m1 m2 ms → ms.length ≤ data.length →
    ∃ t as, exec (.writePage dev a data ms.length) s = .next t ∧ t.accesses = s.accesses ++ as ∧
      sentFrom dev as (m0 + 9) (addressBit dev false) ∧ sentFrom dev as (m0 + m1 + 37) a.getLsbD ∧
      ∀ i < ms.length,
        sentFrom dev as (m0 + m1 + m2 + 65 + writtenLength (ms.take i)) (data.getD i 0).getLsbD) ∧
  (∀ (s : State) (dev : Descriptor) (a : Byte) (m0 m1 m2 m3 : Nat), s.ReadAnswered dev m0 m1 m2 m3 121 →
    ∃ t as, exec (.readByte dev a) s = .next t ∧ t.accesses = s.accesses ++ as ∧
      sentFrom dev as (m0 + 9) (addressBit dev false) ∧ sentFrom dev as (m0 + m1 + 37) a.getLsbD ∧
      sentFrom dev as (m0 + m1 + m2 + 69) (addressBit dev true) ∧
      receivedFrom dev as (m0 + m1 + m2 + m3 + 97) t.regs.rbyte.getLsbD ∧
      ∀ j < 8, t.regs.rbyte.getLsbD (7 - j) = !s.lowAt (m0 + m1 + m2 + m3 + 97 + 3 * j + 1) dev.sda) ∧
  ∀ (s : State) (dev : Descriptor) (a : Byte) (count m0 m1 m2 m3 : Nat), 1 ≤ count →
    s.ReadAnswered dev m0 m1 m2 m3 (94 + 28 * count) →
    ∃ t as, exec (.readPage dev a count) s = .next t ∧ t.accesses = s.accesses ++ as ∧
      sentFrom dev as (m0 + 9) (addressBit dev false) ∧ sentFrom dev as (m0 + m1 + 37) a.getLsbD ∧
      sentFrom dev as (m0 + m1 + m2 + 69) (addressBit dev true) ∧ t.regs.rbuf.length = count ∧
      ∀ i < count,
        receivedFrom dev as (m0 + m1 + m2 + m3 + 97 + 28 * i) (t.regs.rbuf.getD i 0).getLsbD ∧
        ∀ j < 8, (t.regs.rbuf.getD i 0).getLsbD (7 - j) =
          !s.lowAt (m0 + m1 + m2 + m3 + 97 + 28 * i + 3 * j + 1) dev.sda

/-- R186, R188(f), R191, R193(e): how many accesses the successful commands perform, with `n = m + 1` samples in a poll
answered after `m` samples of the other level. -/
def Obligations.AccessCounts : Prop :=
  (∀ (s : State) (dev : Descriptor) (a d : Byte) (m0 m1 m2 m3 : Nat), s.WriteByteAnswered dev m0 m1 m2 m3 →
    ∃ t, exec (.writeByte dev a d) s = .next t ∧
      t.accesses.length = s.accesses.length + (93 + (m0 + 1) + (m1 + 1) + (m2 + 1) + (m3 + 1))) ∧
  (∀ (s : State) (dev : Descriptor) (a : Byte) (data : List Byte) (m0 m1 m2 : Nat) (ms : List Nat),
    s.WritePageAnswered dev m0 m1 m2 ms → ms.length ≤ data.length →
    ∃ t, exec (.writePage dev a data ms.length) s = .next t ∧
      t.accesses.length = s.accesses.length +
        (66 + (m0 + 1) + (m1 + 1) + (m2 + 1) + (ms.map fun m => 27 + (m + 1)).sum)) ∧
  (∀ (s : State) (dev : Descriptor) (a : Byte) (m0 m1 m2 m3 : Nat), s.ReadAnswered dev m0 m1 m2 m3 121 →
    ∃ t, exec (.readByte dev a) s = .next t ∧
      t.accesses.length = s.accesses.length + (124 + (m0 + 1) + (m1 + 1) + (m2 + 1) + (m3 + 1) + s.cfg.tNack)) ∧
  ∀ (s : State) (dev : Descriptor) (a : Byte) (count m0 m1 m2 m3 : Nat), 1 ≤ count →
    s.ReadAnswered dev m0 m1 m2 m3 (94 + 28 * count) →
    ∃ t, exec (.readPage dev a count) s = .next t ∧
      t.accesses.length = s.accesses.length + (101 + 28 * count + s.cfg.tNack + (m0 + m1 + m2 + m3))

/-- R188(b): WRITE_PAGE of one byte performs the accesses of WRITE_BYTE of that byte, whatever the environment does, with
the same levels read, and ends in the same phase, with the same outcome and the same DIR and OUT bits. -/
def Obligations.PageOfOneIsByte : Prop :=
  ∀ (s t : State) (dev : Descriptor) (a d : Byte) (rest : List Byte), s.Inv →
    exec (.writePage dev a (d :: rest) 1) s = .next t →
      ∃ u, exec (.writeByte dev a d) s = .next u ∧ u.accesses = t.accesses ∧ u.phases = t.phases ∧
        u.bus.dir = t.bus.dir ∧ u.bus.out = t.bus.out ∧ u.regs.ok = t.regs.ok ∧ u.regs.err = t.regs.err

/-! ## Commands that fail -/

/-- R125, R126, R182, R197 step 1, R211, R216: every command, when no sample of the bus check reads high: exactly `T_INIT`
samples, no RegSet, the lines as they were, `ERR = BusStuckLow`. That latches of operands the command does not have keep
their values (in `Ended`) is the model's choice (log 16, DEDUCED). -/
def Obligations.BusStuckLowFails : Prop :=
  ∀ (i : Instr) (s : State) (dev : Descriptor) (a : Byte), commandTarget i = some (dev, a) →
    s.Inv → i.wf s.cfg.nlines = true →
    (s.bus.dirOf dev.sda = .float → neverSeen s dev.sda true 0 s.cfg.tInit) →
      ∃ t, exec i s = .next t ∧
        s.Performed dev (List.replicate s.cfg.tInit (.r false)) [.busCheck, .idle] t ∧
        s.stuck t ∧ s.Ended i (some .busStuckLow) t

/-- R150, R182, R197 step 2, R212, R216, R217: every command, when the device address is not acknowledged within `T_ACK`
samples: `ERR = NoAck`, the abort state, no STOP. That latches of operands the command does not have keep their values (in
`Ended`) is the model's choice (log 16, DEDUCED). -/
def Obligations.DeviceAddressNoAck : Prop :=
  ∀ (i : Instr) (s : State) (dev : Descriptor) (a : Byte) (m0 : Nat), commandTarget i = some (dev, a) →
    s.Inv → i.wf s.cfg.nlines = true → s.bus.dirOf dev.sda = .float → busFree s dev.sda m0 →
    neverSeen s dev.sda false (m0 + 35) s.cfg.tAck →
      ∃ t, exec i s = .next t ∧
        s.Performed dev
          (recoveryMarks m0 ++ startMarks ++ frameMarks (deviceFrame (deviceByte dev) false) ++
            ackMarks s.cfg.tAck false)
          [.busCheck, .started, .idle] t ∧
        t.aborted dev .noAck ∧ s.Ended i (some .noAck) t

/-- R173, R182, R197 step 3, R212, R216, R217: every command, when the byte address is not acknowledged. That
latches of operands the command does not have keep their values (in `Ended`) is the model's choice (log 16, DEDUCED). -/
def Obligations.ByteAddressNoAck : Prop :=
  ∀ (i : Instr) (s : State) (dev : Descriptor) (a : Byte) (m0 m1 : Nat), commandTarget i = some (dev, a) →
    s.Inv → i.wf s.cfg.nlines = true → s.bus.dirOf dev.sda = .float → busFree s dev.sda m0 →
    deviceAcks s dev.sda m0 m1 → neverSeen s dev.sda false (m0 + m1 + 63) s.cfg.tAck →
      ∃ t, exec i s = .next t ∧
        s.Performed dev
          (recoveryMarks m0 ++ startMarks ++ frameMarks (deviceFrame (deviceByte dev) false) ++
            ackMarks m1 true ++ frameMarks a ++ ackMarks s.cfg.tAck false)
          [.busCheck, .started, .addrWritten, .idle] t ∧
        t.aborted dev .noAck ∧ s.Ended i (some .noAck) t

/-- R185, R187, R182, R197 step 4w, R212, R216, R217: a write, when a data byte is not acknowledged: WRITE_BYTE's one
byte, or the byte after the acknowledged `bytes` of a page; what comes after it is not sent. That WRITE_BYTE's unused
`count` latch keeps its value (in `Ended`) is the model's choice (log 16, DEDUCED). -/
def Obligations.DataByteNoAck : Prop :=
  (∀ (s : State) (dev : Descriptor) (a d : Byte) (m0 m1 m2 : Nat), s.Inv → dev.wf s.cfg.nlines = true →
    s.bus.dirOf dev.sda = .float → prefixAnswered s dev.sda m0 m1 m2 →
    neverSeen s dev.sda false (m0 + m1 + m2 + 91) s.cfg.tAck →
      ∃ t, exec (.writeByte dev a d) s = .next t ∧
        s.Performed dev
          (prefixMarks (deviceByte dev) a m0 m1 m2 ++ frameMarks d ++ ackMarks s.cfg.tAck false)
          [.busCheck, .started, .addrWritten, .byteAddrSent, .dataPhase, .idle] t ∧
        t.aborted dev .noAck ∧ s.Ended (.writeByte dev a d) (some .noAck) t) ∧
  ∀ (s : State) (dev : Descriptor) (a b : Byte) (bytes rest : List Byte) (count m0 m1 m2 : Nat) (ms : List Nat),
    s.Inv → dev.wf s.cfg.nlines = true → bytes.length < count → count ≤ (bytes ++ b :: rest).length →
    ms.length = bytes.length → s.bus.dirOf dev.sda = .float → prefixAnswered s dev.sda m0 m1 m2 →
    allAcknowledged s dev.sda s.cfg.tAck (m0 + m1 + m2 + 65) ms →
    neverSeen s dev.sda false (m0 + m1 + m2 + 91 + writtenLength ms) s.cfg.tAck →
      ∃ t, exec (.writePage dev a (bytes ++ b :: rest) count) s = .next t ∧
        s.Performed dev
          (prefixMarks (deviceByte dev) a m0 m1 m2 ++ writtenMarks bytes ms ++ frameMarks b ++
            ackMarks s.cfg.tAck false)
          [.busCheck, .started, .addrWritten, .byteAddrSent, .dataPhase, .idle] t ∧
        t.aborted dev .noAck ∧ s.Ended (.writePage dev a (bytes ++ b :: rest) count) (some .noAck) t

/-- R181, R182, R197 step 4r, R212, R216, R217: a read, when the read-mode device address is not acknowledged.
That the unused `wdata` latch, and READ_BYTE's unused `count` latch, keep their values (in `Ended`) is the model's choice
(log 16, DEDUCED). -/
def Obligations.ReadAddressNoAck : Prop :=
  ∀ (i : Instr) (s : State) (dev : Descriptor) (a : Byte) (m0 m1 m2 : Nat), commandTarget i = some (dev, a) →
    isRead i = true → s.Inv → i.wf s.cfg.nlines = true → s.bus.dirOf dev.sda = .float →
    prefixAnswered s dev.sda m0 m1 m2 → neverSeen s dev.sda false (m0 + m1 + m2 + 95) s.cfg.tAck →
      ∃ t, exec i s = .next t ∧
        s.Performed dev
          (prefixMarks (deviceByte dev) a m0 m1 m2 ++ startMarks ++
            frameMarks (deviceFrame (deviceByte dev) true) ++ ackMarks s.cfg.tAck false)
          [.busCheck, .started, .addrWritten, .byteAddrSent, .dataPhase, .idle] t ∧
        t.aborted dev .noAck ∧ s.Ended i (some .noAck) t

/-- R190, R192, R182, R197 step 5r, R213, R216, R217: a read, when the line goes low during the NACK after the last data
byte, at sample `m + 1`: `ERR = UnexpectedAck`, the abort state, no STOP. Nothing is said of `RBYTE` and `RBUF`, which the
spec leaves unspecified. That the unused `wdata` latch, and READ_BYTE's unused `count` latch, keep their values (in
`Ended`) is the model's choice (log 16, DEDUCED). -/
def Obligations.UnexpectedAckFails : Prop :=
  (∀ (s : State) (dev : Descriptor) (a : Byte) (m0 m1 m2 m3 m : Nat), s.Inv → dev.wf s.cfg.nlines = true →
    s.bus.dirOf dev.sda = .float → readPrefixAnswered s dev.sda m0 m1 m2 m3 →
    seenInTime s dev.sda false (m0 + m1 + m2 + m3 + 123) s.cfg.tNack m →
      ∃ t, exec (.readByte dev a) s = .next t ∧
        s.Performed dev
          (readPrefixMarks (deviceByte dev) a m0 m1 m2 m3 ++
            receivedMarks (levelsAhead s dev.sda (m0 + m1 + m2 + m3 + 97)) ++ ackMarks m true)
          [.busCheck, .started, .addrWritten, .byteAddrSent, .dataPhase, .idle] t ∧
        t.aborted dev .unexpectedAck ∧ s.Ended (.readByte dev a) (some .unexpectedAck) t) ∧
  ∀ (s : State) (dev : Descriptor) (a : Byte) (count m0 m1 m2 m3 m : Nat), s.Inv →
    dev.wf s.cfg.nlines = true → 1 ≤ count → s.bus.dirOf dev.sda = .float →
    readPrefixAnswered s dev.sda m0 m1 m2 m3 →
    seenInTime s dev.sda false (m0 + m1 + m2 + m3 + 96 + 28 * count) s.cfg.tNack m →
      ∃ t, exec (.readPage dev a count) s = .next t ∧
        s.Performed dev
          (readPrefixMarks (deviceByte dev) a m0 m1 m2 m3 ++
            pageReadMarks (pageLevelsAhead s dev.sda (m0 + m1 + m2 + m3 + 97) count) ++ [.d true] ++
            ackMarks m true)
          [.busCheck, .started, .addrWritten, .byteAddrSent, .dataPhase, .idle] t ∧
        t.aborted dev .unexpectedAck ∧ s.Ended (.readPage dev a count) (some .unexpectedAck) t

/-- R95, R96, R97: the codes of the outcome and of the phase. -/
def Obligations.OutcomeCodes : Prop :=
  errCode none = 0 ∧ errCode (some .busStuckLow) = 1 ∧ errCode (some .noAck) = 2 ∧
  errCode (some .unexpectedAck) = 3 ∧
  (∀ s : State, s.Inv → (s.regs.ok = true ↔ errCode s.regs.err = 0)) ∧
  [Phase.idle, .busCheck, .started, .addrWritten, .byteAddrSent, .dataPhase, .stopped].map phaseCode =
    [0, 1, 2, 3, 4, 5, 6] ∧
  ∀ p, phaseCode p ≠ 7

/-! ## All commands, every environment -/

/-- R248, R196, R210, R216, R37: every command that is accepted ends, whatever the environment does, in one of four ways:
in success with both lines floated, or with one of the three error kinds and the lines as R216 says; UnexpectedAck is a
read's. The data line, if the engine floated it before, is floated after. -/
def Obligations.EveryCommandEnds : Prop :=
  ∀ (i : Instr) (s : State) (dev : Descriptor) (a : Byte), commandTarget i = some (dev, a) →
    s.Inv → i.wf s.cfg.nlines = true →
      ∃ t, exec i s = .next t ∧
        (t.endedWell dev ∨ s.stuck t ∨ t.aborted dev .noAck ∨ (isRead i = true ∧ t.aborted dev .unexpectedAck)) ∧
        (s.bus.dirOf dev.sda = .float → t.bus.dirOf dev.sda = .float)

/-- R31, R32, R33: the phases a command goes through are transitions of the table, from Idle back to Idle. -/
def Obligations.PhaseTransitions : Prop :=
  ∀ (i : Instr) (s t : State) (dev : Descriptor) (a : Byte), commandTarget i = some (dev, a) →
    s.Inv → exec i s = .next t →
      ∃ ps, t.phases = s.phases ++ ps ∧ phasesAllowed .idle ps = true ∧ ps.getLast? = some .idle

/-- R36, R52, R262: whatever the environment does, every access of a command is a RegSet of its clock or data line or a
RegIn of its data line; the clock is never read; nothing outside the two lines and the registers changes. -/
def Obligations.OnlyTheTwoLines : Prop :=
  ∀ (i : Instr) (s t : State) (dev : Descriptor) (a : Byte), commandTarget i = some (dev, a) →
    s.Inv → exec i s = .next t →
      ∃ ms ps, s.Performed dev ms ps t

/-- R94, R197, R217, R254: the accesses of a command that move the data line while the engine floats the clock. With the
data line floated before, they are, in order: on success the STOP of INIT, the START, a read's repeated START, and the
final STOP; on a failure after INIT the same without the final STOP; on BusStuckLow none. -/
def Obligations.NoStraySymbols : Prop :=
  ∀ (i : Instr) (s t : State) (dev : Descriptor) (a : Byte) (as : List Access), commandTarget i = some (dev, a) →
    s.Inv → s.bus.dirOf dev.sda = .float → exec i s = .next t → t.accesses = s.accesses ++ as →
      (t.regs.err = none →
        movesUnderHighClock dev.scl dev.sda s.bus as =
          if isRead i then [.float, .drive, .drive, .float] else [.float, .drive, .float]) ∧
      (t.regs.err = some .busStuckLow → movesUnderHighClock dev.scl dev.sda s.bus as = []) ∧
      (t.regs.err = some .noAck →
        movesUnderHighClock dev.scl dev.sda s.bus as = [.float, .drive] ∨
        (isRead i = true ∧ movesUnderHighClock dev.scl dev.sda s.bus as = [.float, .drive, .drive])) ∧
      (t.regs.err = some .unexpectedAck →
        isRead i = true ∧ movesUnderHighClock dev.scl dev.sda s.bus as = [.float, .drive, .drive])

/-- R56, R195, R262, R263: what a command does depends on the environment through the data line alone: two environments
that do the same to the data line, whatever they do to the clock line and every other, give the same accesses with the
same levels read, the same DIR and OUT bits, the same registers. R195 gives the access trace. That `RBYTE` and `RBUF`
agree also where the spec leaves them any value (U9, U10) is the model's choice: its free values there depend on how many
were drawn before, and on nothing else (log 8, DESIGN CHOICE). -/
def Obligations.OnlyTheDataLineMatters : Prop :=
  ∀ (i : Instr) (s s' t : State) (dev : Descriptor) (a : Byte), commandTarget i = some (dev, a) →
    s.Inv → s'.Inv → s'.cfg = s.cfg → s'.regs = s.regs → s'.bus.dir = s.bus.dir → s'.bus.out = s.bus.out →
    (∀ k, s'.lowAt k dev.sda = s.lowAt k dev.sda) → exec i s = .next t →
      ∃ t' as, exec i s' = .next t' ∧ t'.regs = t.regs ∧ t'.bus.dir = t.bus.dir ∧ t'.bus.out = t.bus.out ∧
        t.accesses = s.accesses ++ as ∧ t'.accesses = s'.accesses ++ as

/-! ## What the caller can issue -/

/-- R80, R81, R84: what the caller's requests mean are commands only, no primitive and no access; every command can be
requested. -/
def Obligations.CallerIssuesCommands : Prop :=
  (∀ (r : Request) (i : Instr), readRequest r = .ok i → ∃ dev a, commandTarget i = some (dev, a)) ∧
  ∀ (i : Instr) (dev : Descriptor) (a : Byte), commandTarget i = some (dev, a) → ∃ r : Request, readRequest r = .ok i

/-! ## INIT first -/

/-- R257, and R125, R214 for what INIT does: an exposed transaction that no INIT has opened gets one. Where an operation
that does not itself begin with INIT would be the first of it, the step performs INIT: seen free in time, the bus is left
by a STOP, the transaction is open and the operation comes next; stuck low, the transaction is dropped with
`ERR = BusStuckLow`. And nothing else opens one: a step after which a transaction is open left it open or performed
exactly INIT. That the model exposes operations at all, and inserts the INIT, is its choice (logs 21, 22). -/
def Obligations.InitFirst : Prop :=
  (∀ (s : State) (i : Instr) (rest : List Instr) (m : Nat), s.Inv → s.exposed = i :: rest →
    s.opened = false → beginsWithInit i = false → s.bus.dirOf s.regs.desc.sda = .float →
    seenInTime s s.regs.desc.sda true 0 s.cfg.tInit m →
      ∃ t, step s = .next t ∧ t.accesses = s.accesses ++ marked s.regs.desc (recoveryMarks m) ∧
        t.opened = true ∧ t.exposed = i :: rest ∧ t.requests = s.requests ∧ t.phases = s.phases ∧
        t.bus.floated s.regs.desc.scl ∧ t.bus.floated s.regs.desc.sda ∧ t.regs.lasting = s.regs.lasting) ∧
  (∀ (s : State) (i : Instr) (rest : List Instr), s.Inv → s.exposed = i :: rest →
    s.opened = false → beginsWithInit i = false →
    (s.bus.dirOf s.regs.desc.sda = .float → neverSeen s s.regs.desc.sda true 0 s.cfg.tInit) →
      ∃ t, step s = .next t ∧
        t.accesses = s.accesses ++ marked s.regs.desc (List.replicate s.cfg.tInit (.r false)) ∧
        t.opened = false ∧ t.exposed = [] ∧ t.requests = s.requests ∧ s.stuck t) ∧
  ∀ s t : State, s.Inv → step s = .next t → t.opened = true →
    s.opened = true ∨ ∃ m, t.accesses = s.accesses ++ marked s.regs.desc (recoveryMarks m)
end

