-- ==== Sys2Proof/Laws/State.lean ====
section
/-! SUPPORT. One lemma per field and update, so that no later proof unfolds a record update. -/

namespace Sys2Proof.Machine

variable (e : Event) (s : State) (p : Phase) (k : ErrKind) (b : Byte) (n : Nat)

@[simp] theorem happen_cfg : (happen e s).cfg = s.cfg := rfl
@[simp] theorem happen_bus : (happen e s).bus = e.apply s.bus := rfl
@[simp] theorem happen_regs : (happen e s).regs = s.regs := rfl
@[simp] theorem happen_script : (happen e s).script = s.script := rfl
@[simp] theorem happen_history : (happen e s).history = e :: s.history := rfl
@[simp] theorem happen_requests : (happen e s).requests = s.requests := rfl
@[simp] theorem happen_exposed : (happen e s).exposed = s.exposed := rfl
@[simp] theorem happen_opened : (happen e s).opened = s.opened := rfl

@[simp] theorem setPhase_cfg : (setPhase p s).cfg = s.cfg := rfl
@[simp] theorem setPhase_bus : (setPhase p s).bus = s.bus := rfl
@[simp] theorem setPhase_regs : (setPhase p s).regs = { s.regs with phase := p } := rfl
@[simp] theorem setPhase_script : (setPhase p s).script = s.script := rfl
@[simp] theorem setPhase_history : (setPhase p s).history = .phase p :: s.history := rfl
@[simp] theorem setPhase_requests : (setPhase p s).requests = s.requests := rfl
@[simp] theorem setPhase_exposed : (setPhase p s).exposed = s.exposed := rfl
@[simp] theorem setPhase_opened : (setPhase p s).opened = s.opened := rfl

@[simp] theorem setBitIdx_cfg : (setBitIdx n s).cfg = s.cfg := rfl
@[simp] theorem setBitIdx_bus : (setBitIdx n s).bus = s.bus := rfl
@[simp] theorem setBitIdx_regs : (setBitIdx n s).regs = { s.regs with bitIdx := n } := rfl
@[simp] theorem setBitIdx_script : (setBitIdx n s).script = s.script := rfl
@[simp] theorem setBitIdx_history : (setBitIdx n s).history = s.history := rfl
@[simp] theorem setBitIdx_requests : (setBitIdx n s).requests = s.requests := rfl
@[simp] theorem setBitIdx_exposed : (setBitIdx n s).exposed = s.exposed := rfl
@[simp] theorem setBitIdx_opened : (setBitIdx n s).opened = s.opened := rfl

@[simp] theorem setSr_cfg : (setSr b s).cfg = s.cfg := rfl
@[simp] theorem setSr_bus : (setSr b s).bus = s.bus := rfl
@[simp] theorem setSr_regs : (setSr b s).regs = { s.regs with sr := b } := rfl
@[simp] theorem setSr_script : (setSr b s).script = s.script := rfl
@[simp] theorem setSr_history : (setSr b s).history = s.history := rfl
@[simp] theorem setSr_requests : (setSr b s).requests = s.requests := rfl
@[simp] theorem setSr_exposed : (setSr b s).exposed = s.exposed := rfl
@[simp] theorem setSr_opened : (setSr b s).opened = s.opened := rfl

@[simp] theorem setIdx_cfg : (setIdx n s).cfg = s.cfg := rfl
@[simp] theorem setIdx_bus : (setIdx n s).bus = s.bus := rfl
@[simp] theorem setIdx_regs : (setIdx n s).regs = { s.regs with idx := n } := rfl
@[simp] theorem setIdx_script : (setIdx n s).script = s.script := rfl
@[simp] theorem setIdx_history : (setIdx n s).history = s.history := rfl
@[simp] theorem setIdx_requests : (setIdx n s).requests = s.requests := rfl
@[simp] theorem setIdx_exposed : (setIdx n s).exposed = s.exposed := rfl
@[simp] theorem setIdx_opened : (setIdx n s).opened = s.opened := rfl

@[simp] theorem countSample_cfg : (countSample s).cfg = s.cfg := rfl
@[simp] theorem countSample_bus : (countSample s).bus = s.bus := rfl
@[simp] theorem countSample_script : (countSample s).script = s.script := rfl
@[simp] theorem countSample_history : (countSample s).history = s.history := rfl
@[simp] theorem countSample_requests : (countSample s).requests = s.requests := rfl
@[simp] theorem countSample_exposed : (countSample s).exposed = s.exposed := rfl
@[simp] theorem countSample_opened : (countSample s).opened = s.opened := rfl
@[simp] theorem countSample_regs : (countSample s).regs = { s.regs with poll := s.regs.poll + 1 } := rfl

@[simp] theorem clearPoll_cfg : (clearPoll s).cfg = s.cfg := rfl
@[simp] theorem clearPoll_bus : (clearPoll s).bus = s.bus := rfl
@[simp] theorem clearPoll_script : (clearPoll s).script = s.script := rfl
@[simp] theorem clearPoll_history : (clearPoll s).history = s.history := rfl
@[simp] theorem clearPoll_requests : (clearPoll s).requests = s.requests := rfl
@[simp] theorem clearPoll_exposed : (clearPoll s).exposed = s.exposed := rfl
@[simp] theorem clearPoll_opened : (clearPoll s).opened = s.opened := rfl
@[simp] theorem clearPoll_regs : (clearPoll s).regs = { s.regs with poll := 0 } := rfl

@[simp] theorem clearRbuf_cfg : (clearRbuf s).cfg = s.cfg := rfl
@[simp] theorem clearRbuf_bus : (clearRbuf s).bus = s.bus := rfl
@[simp] theorem clearRbuf_regs : (clearRbuf s).regs = { s.regs with rbuf := [] } := rfl
@[simp] theorem clearRbuf_script : (clearRbuf s).script = s.script := rfl
@[simp] theorem clearRbuf_history : (clearRbuf s).history = s.history := rfl
@[simp] theorem clearRbuf_requests : (clearRbuf s).requests = s.requests := rfl
@[simp] theorem clearRbuf_exposed : (clearRbuf s).exposed = s.exposed := rfl
@[simp] theorem clearRbuf_opened : (clearRbuf s).opened = s.opened := rfl

@[simp] theorem raiseError_cfg : (raiseError k s).cfg = s.cfg := rfl
@[simp] theorem raiseError_bus : (raiseError k s).bus = s.bus := rfl
@[simp] theorem raiseError_regs :
    (raiseError k s).regs = { s.regs with ok := false, err := some k, phase := .idle } := rfl
@[simp] theorem raiseError_script : (raiseError k s).script = s.script := rfl
@[simp] theorem raiseError_history : (raiseError k s).history = .phase .idle :: s.history := rfl
@[simp] theorem raiseError_requests : (raiseError k s).requests = s.requests := rfl
@[simp] theorem raiseError_exposed : (raiseError k s).exposed = s.exposed := rfl
@[simp] theorem raiseError_opened : (raiseError k s).opened = s.opened := rfl

@[simp] theorem settle_cfg (ok : Bool) : (settle ok s).cfg = s.cfg := rfl
@[simp] theorem settle_bus (ok : Bool) : (settle ok s).bus = s.bus := rfl
@[simp] theorem settle_regs (ok : Bool) : (settle ok s).regs = settleResults ok s.regs := rfl
@[simp] theorem settle_script (ok : Bool) : (settle ok s).script = s.script := rfl
@[simp] theorem settle_history (ok : Bool) : (settle ok s).history = s.history := rfl
@[simp] theorem settle_requests (ok : Bool) : (settle ok s).requests = s.requests := rfl
@[simp] theorem settle_exposed (ok : Bool) : (settle ok s).exposed = s.exposed := rfl
@[simp] theorem settle_opened (ok : Bool) : (settle ok s).opened = s.opened := rfl

@[simp] theorem finishOk_cfg : (finishOk s).cfg = s.cfg := rfl
@[simp] theorem finishOk_bus : (finishOk s).bus = s.bus := rfl
@[simp] theorem finishOk_regs :
    (finishOk s).regs = settleResults true { s.regs with phase := .idle, ok := true, err := none } := rfl
@[simp] theorem finishOk_script : (finishOk s).script = s.script := rfl
@[simp] theorem finishOk_history : (finishOk s).history = .phase .idle :: .phase .stopped :: s.history := rfl
@[simp] theorem finishOk_requests : (finishOk s).requests = s.requests := rfl
@[simp] theorem finishOk_exposed : (finishOk s).exposed = s.exposed := rfl
@[simp] theorem finishOk_opened : (finishOk s).opened = s.opened := rfl

@[simp] theorem accept_cfg (dev : Descriptor) (op : CmdOp) (a : Byte) (ds : List Byte) :
    (accept dev op a ds n s).cfg = s.cfg := rfl
@[simp] theorem accept_bus (dev : Descriptor) (op : CmdOp) (a : Byte) (ds : List Byte) :
    (accept dev op a ds n s).bus = s.bus := rfl
@[simp] theorem accept_regs (dev : Descriptor) (op : CmdOp) (a : Byte) (ds : List Byte) :
    (accept dev op a ds n s).regs =
      { s.regs with
        desc := dev, op := op, byteAddr := a, wdata := ds, count := n, devb := deviceByte dev
        phase := .busCheck } := rfl
@[simp] theorem accept_script (dev : Descriptor) (op : CmdOp) (a : Byte) (ds : List Byte) :
    (accept dev op a ds n s).script = s.script := rfl
@[simp] theorem accept_history (dev : Descriptor) (op : CmdOp) (a : Byte) (ds : List Byte) :
    (accept dev op a ds n s).history = .phase .busCheck :: s.history := rfl
@[simp] theorem accept_requests (dev : Descriptor) (op : CmdOp) (a : Byte) (ds : List Byte) :
    (accept dev op a ds n s).requests = s.requests := rfl
@[simp] theorem accept_exposed (dev : Descriptor) (op : CmdOp) (a : Byte) (ds : List Byte) :
    (accept dev op a ds n s).exposed = s.exposed := rfl
@[simp] theorem accept_opened (dev : Descriptor) (op : CmdOp) (a : Byte) (ds : List Byte) :
    (accept dev op a ds n s).opened = s.opened := rfl

@[simp] theorem settleResults_phase (ok : Bool) (r : Regs) : (settleResults ok r).phase = r.phase := rfl
@[simp] theorem settleResults_ok (ok : Bool) (r : Regs) : (settleResults ok r).ok = r.ok := rfl
@[simp] theorem settleResults_err (ok : Bool) (r : Regs) : (settleResults ok r).err = r.err := rfl
@[simp] theorem settleResults_desc (ok : Bool) (r : Regs) : (settleResults ok r).desc = r.desc := rfl

@[simp] theorem written_dir (b b' : Bus) : (b.written b').dir = b'.dir := rfl
@[simp] theorem written_out (b b' : Bus) : (b.written b').out = b'.out := rfl
@[simp] theorem written_extLow (b b' : Bus) : (b.written b').extLow = b'.extLow := rfl
/-- R50, R51: a write that changes nothing leaves the whole bus as it was. -/
theorem written_self (b : Bus) : b.written b = b := by simp [Bus.written]

@[simp] theorem apply_set_dir (l : Nat) (f : Direction) (c : Bus) :
    (Event.apply (.acc (.set l f)) c).dir = c.dir.set l f := rfl
@[simp] theorem apply_set_out (l : Nat) (f : Direction) (c : Bus) :
    (Event.apply (.acc (.set l f)) c).out = c.out.set l (latchOf f) := rfl
@[simp] theorem apply_set_extLow (l : Nat) (f : Direction) (c : Bus) :
    (Event.apply (.acc (.set l f)) c).extLow = c.extLow := rfl
@[simp] theorem apply_get (l : Nat) (v : Level) (c : Bus) : Event.apply (.acc (.get l v)) c = c := rfl
@[simp] theorem apply_phase (c : Bus) : Event.apply (.phase p) c = c := rfl
@[simp] theorem apply_env_dir (cs : List (Nat × Bool)) (c : Bus) : (Event.apply (.env cs) c).dir = c.dir := rfl
@[simp] theorem apply_env_out (cs : List (Nat × Bool)) (c : Bus) : (Event.apply (.env cs) c).out = c.out := rfl
@[simp] theorem apply_env_extLow (cs : List (Nat × Bool)) (c : Bus) :
    (Event.apply (.env cs) c).extLow = assignLows c.extLow cs := rfl

@[simp] theorem afterOperation_cfg (i : Instr) : (s.afterOperation i).cfg = s.cfg := by
  unfold State.afterOperation; split <;> rfl
@[simp] theorem afterOperation_bus (i : Instr) : (s.afterOperation i).bus = s.bus := by
  unfold State.afterOperation; split <;> rfl
@[simp] theorem afterOperation_regs (i : Instr) : (s.afterOperation i).regs = s.regs := by
  unfold State.afterOperation; split <;> rfl
@[simp] theorem afterOperation_script (i : Instr) : (s.afterOperation i).script = s.script := by
  unfold State.afterOperation; split <;> rfl
@[simp] theorem afterOperation_history (i : Instr) : (s.afterOperation i).history = s.history := by
  unfold State.afterOperation; split <;> rfl
@[simp] theorem afterOperation_requests (i : Instr) : (s.afterOperation i).requests = s.requests := by
  unfold State.afterOperation; split <;> rfl
theorem afterOperation_exposed (i : Instr) :
    (s.afterOperation i).exposed = if s.raised then [] else s.exposed := by
  unfold State.afterOperation; split <;> rfl
theorem afterOperation_opened (i : Instr) :
    (s.afterOperation i).opened = (!s.raised && openAfter i s.opened) := by
  unfold State.afterOperation; split <;> simp_all

end Sys2Proof.Machine
end

