-- ==== Sys2Proof/Laws/Ops.lean ====
section
/-! SUPPORT. What the shared operations can do, said once: the relation `Ran` says everything an operation does outside
the registers, and composes; each shared operation has one lemma that gives its `Ran` and one that gives its registers.
Callers cite these and do not unfold the operation. -/

namespace Sys2Proof.Machine

/-! ## Bits of the bus -/

/-- The DIR vector after some accesses. -/
def dirAfter (v : List Direction) (as : List Access) : List Direction :=
  as.foldl (fun v a => match a with | .set l f => v.set l f | .get _ _ => v) v

/-- The OUT vector after some accesses. -/
def outAfter (v : List Level) (as : List Access) : List Level :=
  as.foldl (fun v a => match a with | .set l f => v.set l (latchOf f) | .get _ _ => v) v

@[simp] theorem dirAfter_nil (v : List Direction) : dirAfter v [] = v := rfl
@[simp] theorem dirAfter_set (v : List Direction) (l : Nat) (f : Direction) (as : List Access) :
    dirAfter v (.set l f :: as) = dirAfter (v.set l f) as := rfl
@[simp] theorem dirAfter_get (v : List Direction) (l : Nat) (x : Level) (as : List Access) :
    dirAfter v (.get l x :: as) = dirAfter v as := rfl
@[simp] theorem outAfter_nil (v : List Level) : outAfter v [] = v := rfl
@[simp] theorem outAfter_set (v : List Level) (l : Nat) (f : Direction) (as : List Access) :
    outAfter v (.set l f :: as) = outAfter (v.set l (latchOf f)) as := rfl
@[simp] theorem outAfter_get (v : List Level) (l : Nat) (x : Level) (as : List Access) :
    outAfter v (.get l x :: as) = outAfter v as := rfl

theorem dirAfter_append (v : List Direction) (as bs : List Access) :
    dirAfter v (as ++ bs) = dirAfter (dirAfter v as) bs := by
  simp [dirAfter]

theorem outAfter_append (v : List Level) (as bs : List Access) :
    outAfter v (as ++ bs) = outAfter (outAfter v as) bs := by
  simp [outAfter]

@[simp] theorem dirAfter_length (as : List Access) (v : List Direction) : (dirAfter v as).length = v.length := by
  induction as generalizing v with
  | nil => rfl
  | cons a as ih => cases a <;> simp [ih]

@[simp] theorem outAfter_length (as : List Access) (v : List Level) : (outAfter v as).length = v.length := by
  induction as generalizing v with
  | nil => rfl
  | cons a as ih => cases a <;> simp [ih]

@[simp] theorem assignLows_length (cs : List (Nat × Bool)) (v : List Bool) :
    (assignLows v cs).length = v.length := by
  unfold assignLows
  induction cs generalizing v with
  | nil => rfl
  | cons c cs ih => simp [ih]

theorem getD_set_eq {α : Type} (v : List α) (l l' : Nat) (x d : α) :
    (v.set l x).getD l' d = if l = l' ∧ l < v.length then x else v.getD l' d := by
  simp only [List.getD_eq_getElem?_getD, List.getElem?_set]
  by_cases h : l = l'
  · subst h
    by_cases h2 : l < v.length
    · simp [h2]
    · simp [h2]
  · simp [h]

@[simp] theorem apply_set_dirOf (l l' : Nat) (f : Direction) (b : Bus) :
    (Event.apply (.acc (.set l f)) b).dirOf l' = if l = l' ∧ l < b.dir.length then f else b.dirOf l' :=
  getD_set_eq _ _ _ _ _

@[simp] theorem apply_set_outOf (l l' : Nat) (f : Direction) (b : Bus) :
    (Event.apply (.acc (.set l f)) b).outOf l' =
      if l = l' ∧ l < b.out.length then latchOf f else b.outOf l' :=
  getD_set_eq _ _ _ _ _

@[simp] theorem apply_env_dirOf (cs : List (Nat × Bool)) (l : Nat) (b : Bus) :
    (Event.apply (.env cs) b).dirOf l = b.dirOf l := rfl

@[simp] theorem apply_env_outOf (cs : List (Nat × Bool)) (l : Nat) (b : Bus) :
    (Event.apply (.env cs) b).outOf l = b.outOf l := rfl

/-! ## The history -/

theorem accesses_of_history {s t : State} {es : List Event} (h : t.history = es.reverse ++ s.history) :
    t.accesses = s.accesses ++ es.filterMap Event.access? := by
  simp [State.accesses, h]

theorem phases_of_history {s t : State} {es : List Event} (h : t.history = es.reverse ++ s.history) :
    t.phases = s.phases ++ es.filterMap Event.phase? := by
  simp [State.phases, h]

@[simp] theorem replay_nil (b : Bus) : replay b [] = b := rfl
@[simp] theorem replay_cons (b : Bus) (e : Event) (es : List Event) : replay b (e :: es) = replay (e.apply b) es := rfl
theorem replay_append (b : Bus) (es fs : List Event) : replay b (es ++ fs) = replay (replay b es) fs := by
  simp [replay]

/-! ## `Ran`: everything an operation does outside the registers -/

/-- From `s` to `t` the accesses `as` and the phase changes `ps` happened, in some interleaving with the environment's
turns, one turn an access; nothing else outside the registers changed. -/
structure Ran (s t : State) (as : List Access) (ps : List Phase) : Prop where
  cfg : t.cfg = s.cfg
  requests : t.requests = s.requests
  exposed : t.exposed = s.exposed
  opened : t.opened = s.opened
  events : ∃ es : List Event, t.history = es.reverse ++ s.history ∧ es.filterMap Event.access? = as ∧
    es.filterMap Event.phase? = ps ∧ t.bus = replay s.bus es
  dir : t.bus.dir = dirAfter s.bus.dir as
  out : t.bus.out = outAfter s.bus.out as
  lows : t.bus.extLow.length = s.bus.extLow.length
  lowAt : ∀ k l, t.lowAt k l = s.lowAt (as.length + k) l

theorem Ran.accesses {s t : State} {as : List Access} {ps : List Phase} (h : Ran s t as ps) :
    t.accesses = s.accesses ++ as := by
  obtain ⟨es, h1, h2, -, -⟩ := h.events
  rw [accesses_of_history h1, h2]

theorem Ran.phases {s t : State} {as : List Access} {ps : List Phase} (h : Ran s t as ps) :
    t.phases = s.phases ++ ps := by
  obtain ⟨es, h1, -, h2, -⟩ := h.events
  rw [phases_of_history h1, h2]

theorem Ran.trans {s t u : State} {as bs : List Access} {ps qs : List Phase} (h : Ran s t as ps)
    (k : Ran t u bs qs) : Ran s u (as ++ bs) (ps ++ qs) where
  cfg := k.cfg.trans h.cfg
  requests := k.requests.trans h.requests
  exposed := k.exposed.trans h.exposed
  opened := k.opened.trans h.opened
  events := by
    obtain ⟨es, h1, h2, h3, h4⟩ := h.events
    obtain ⟨fs, k1, k2, k3, k4⟩ := k.events
    exact ⟨es ++ fs, by simp [h1, k1], by simp [h2, k2], by simp [h3, k3], by rw [k4, h4, replay_append]⟩
  dir := by rw [k.dir, h.dir, dirAfter_append]
  out := by rw [k.out, h.out, outAfter_append]
  lows := k.lows.trans h.lows
  lowAt := fun n l => by rw [k.lowAt, h.lowAt, List.length_append, Nat.add_assoc]

/-- A change of registers alone. -/
theorem ran_regs (s : State) (r : Regs) : Ran s { s with regs := r } [] [] where
  cfg := rfl
  requests := rfl
  exposed := rfl
  opened := rfl
  events := ⟨[], rfl, rfl, rfl, rfl⟩
  dir := rfl
  out := rfl
  lows := rfl
  lowAt := fun k l => by simp [State.lowAt]

theorem setPhase_ran (p : Phase) (s : State) : Ran s (setPhase p s) [] [p] where
  cfg := rfl
  requests := rfl
  exposed := rfl
  opened := rfl
  events := ⟨[.phase p], rfl, rfl, rfl, rfl⟩
  dir := rfl
  out := rfl
  lows := rfl
  lowAt := fun k l => by simp [State.lowAt]

theorem raiseError_ran (k : ErrKind) (s : State) : Ran s (raiseError k s) [] [.idle] :=
  (ran_regs s _).trans (setPhase_ran .idle _)

theorem finishOk_ran (s : State) : Ran s (finishOk s) [] [.stopped, .idle] :=
  (((setPhase_ran .stopped s).trans (ran_regs _ _)).trans (setPhase_ran .idle _)).trans (ran_regs _ _)

theorem accept_ran (dev : Descriptor) (op : CmdOp) (a : Byte) (ds : List Byte) (n : Nat) (s : State) :
    Ran s (accept dev op a ds n s) [] [.busCheck] :=
  (ran_regs s _).trans (setPhase_ran .busCheck _)

theorem setSr_ran (b : Byte) (s : State) : Ran s (setSr b s) [] [] := ran_regs s _
theorem setBitIdx_ran (n : Nat) (s : State) : Ran s (setBitIdx n s) [] [] := ran_regs s _
theorem setIdx_ran (n : Nat) (s : State) : Ran s (setIdx n s) [] [] := ran_regs s _
theorem clearRbuf_ran (s : State) : Ran s (clearRbuf s) [] [] := ran_regs s _
theorem settle_ran (ok : Bool) (s : State) : Ran s (settle ok s) [] [] := ran_regs s _

/-! ## Accesses -/

@[simp] theorem envTurn_cfg (s : State) : (envTurn s).cfg = s.cfg := by unfold envTurn; split <;> rfl
@[simp] theorem envTurn_regs (s : State) : (envTurn s).regs = s.regs := by unfold envTurn; split <;> rfl
@[simp] theorem envTurn_requests (s : State) : (envTurn s).requests = s.requests := by
  unfold envTurn; split <;> rfl
@[simp] theorem envTurn_exposed (s : State) : (envTurn s).exposed = s.exposed := by
  unfold envTurn; split <;> rfl
@[simp] theorem envTurn_opened (s : State) : (envTurn s).opened = s.opened := by
  unfold envTurn; split <;> rfl
@[simp] theorem envTurn_dir (s : State) : (envTurn s).bus.dir = s.bus.dir := by unfold envTurn; split <;> rfl
@[simp] theorem envTurn_out (s : State) : (envTurn s).bus.out = s.bus.out := by unfold envTurn; split <;> rfl
@[simp] theorem envTurn_dirOf (s : State) (l : Nat) : (envTurn s).bus.dirOf l = s.bus.dirOf l := by
  simp [Bus.dirOf]
@[simp] theorem envTurn_outOf (s : State) (l : Nat) : (envTurn s).bus.outOf l = s.bus.outOf l := by
  simp [Bus.outOf]
@[simp] theorem envTurn_extLow_length (s : State) : (envTurn s).bus.extLow.length = s.bus.extLow.length := by
  unfold envTurn; split <;> simp

theorem envTurn_pulled (s : State) (l : Nat) : (envTurn s).bus.pulled l = s.lowAt 0 l := by
  unfold envTurn State.lowAt Bus.pulled
  split <;> rename_i h <;> simp [h, lowsAfter]

theorem envTurn_lowsAfter (s : State) (k : Nat) :
    lowsAfter k (envTurn s).script (envTurn s).bus.extLow = lowsAfter (k + 1) s.script s.bus.extLow := by
  unfold envTurn
  split <;> rename_i h
  · cases k <;> simp [h, lowsAfter]
  · simp [h, lowsAfter]

theorem envTurn_events (s : State) :
    ∃ es : List Event, (envTurn s).history = es.reverse ++ s.history ∧ es.filterMap Event.access? = [] ∧
      es.filterMap Event.phase? = [] ∧ (envTurn s).bus = replay s.bus es := by
  unfold envTurn
  split
  · exact ⟨[], rfl, rfl, rfl, rfl⟩
  · rename_i c rest _
    exact ⟨[.env c], rfl, rfl, rfl, rfl⟩

/-- The environment's turn and one access. -/
theorem access_ran (a : Access) (s : State) : Ran s (happen (.acc a) (envTurn s)) [a] [] where
  cfg := by simp
  requests := by simp
  exposed := by simp
  opened := by simp
  events := by
    obtain ⟨es, h1, h2, h3, h4⟩ := envTurn_events s
    exact ⟨es ++ [.acc a], by simp [h1], by simp [h2, Event.access?], by simp [h3, Event.phase?],
      by simp [h4, replay_append]⟩
  dir := by cases a <;> simp
  out := by cases a <;> simp
  lows := by cases a <;> simp
  lowAt := fun k l => by
    have h : (Event.apply (.acc a) (envTurn s).bus).extLow = (envTurn s).bus.extLow := by cases a <;> rfl
    simp only [State.lowAt, happen_bus, happen_script, h, envTurn_lowsAfter, List.length_singleton]
    rw [Nat.add_comm 1 k]

theorem regSet_ran (l : Nat) (f : Direction) (s : State) : Ran s (regSet l f s) [.set l f] [] :=
  access_ran _ s

theorem regIn_ran (l : Nat) (s : State) : Ran s (regIn l s) [.get l (sampled l s)] [] :=
  access_ran _ s

theorem drive_ran (l : Nat) (v : Level) (s : State) : Ran s (drive l v s) [.set l (directionOf v)] [] :=
  regSet_ran _ _ s

@[simp] theorem regSet_regs (l : Nat) (f : Direction) (s : State) : (regSet l f s).regs = s.regs := by simp [regSet]
@[simp] theorem regIn_regs (l : Nat) (s : State) : (regIn l s).regs = s.regs := by simp [regIn]
@[simp] theorem drive_regs (l : Nat) (v : Level) (s : State) : (drive l v s).regs = s.regs := regSet_regs _ _ s
@[simp] theorem driveScl_regs (v : Level) (s : State) : (driveScl v s).regs = s.regs := regSet_regs _ _ s
@[simp] theorem driveSda_regs (v : Level) (s : State) : (driveSda v s).regs = s.regs := regSet_regs _ _ s

theorem driveScl_ran (v : Level) (s : State) : Ran s (driveScl v s) (marked s.regs.desc [.c v]) [] :=
  drive_ran _ v s

theorem driveSda_ran (v : Level) (s : State) : Ran s (driveSda v s) (marked s.regs.desc [.d v]) [] :=
  drive_ran _ v s

/-- R56: a floated line reads what the environment does. -/
theorem sampled_of_float {l : Nat} {s : State} (h : s.bus.dirOf l = .float) : sampled l s = !s.lowAt 0 l := by
  unfold sampled Bus.pad
  rw [envTurn_dirOf, h, envTurn_pulled]
  cases s.lowAt 0 l <;> rfl

/-- R56: a line the engine asserts low reads 0. -/
theorem sampled_of_assertedLow {l : Nat} {s : State} (h : s.bus.assertedLow l) : sampled l s = false := by
  unfold sampled Bus.pad
  rw [envTurn_dirOf, h.1, envTurn_outOf, h.2]

/-! ## Line states after accesses -/

theorem Ran.dirOf {s t : State} {as : List Access} {ps : List Phase} (h : Ran s t as ps) (l : Nat) :
    t.bus.dirOf l = (dirAfter s.bus.dir as).getD l .float := by
  rw [Bus.dirOf, h.dir]

theorem Ran.outOf {s t : State} {as : List Access} {ps : List Phase} (h : Ran s t as ps) (l : Nat) :
    t.bus.outOf l = (outAfter s.bus.out as).getD l false := by
  rw [Bus.outOf, h.out]

theorem dirAfter_getD_of_only_gets (as : List Access) (h : ∀ a ∈ as, ∃ l v, a = .get l v) (v : List Direction) :
    dirAfter v as = v := by
  induction as with
  | nil => rfl
  | cons a as ih =>
    obtain ⟨l, x, rfl⟩ := h a (by simp)
    simpa using ih fun b hb => h b (by simp [hb])

theorem outAfter_getD_of_only_gets (as : List Access) (h : ∀ a ∈ as, ∃ l v, a = .get l v) (v : List Level) :
    outAfter v as = v := by
  induction as with
  | nil => rfl
  | cons a as ih =>
    obtain ⟨l, x, rfl⟩ := h a (by simp)
    simpa using ih fun b hb => h b (by simp [hb])

/-- The state of a line that some accesses do not set. -/
theorem dirAfter_getD_of_not_set (as : List Access) (l : Nat) (d : Direction) (h : ∀ l' f, .set l' f ∈ as → l' ≠ l)
    (v : List Direction) : (dirAfter v as).getD l d = v.getD l d := by
  induction as generalizing v with
  | nil => rfl
  | cons a as ih =>
    have ih' := fun v => ih (fun l' f hm => h l' f (by simp [hm])) v
    cases a with
    | set l' f =>
      have := h l' f (by simp)
      rw [dirAfter_set, ih', getD_set_eq, if_neg fun hc => this hc.1]
    | get l' x => exact ih' v

theorem outAfter_getD_of_not_set (as : List Access) (l : Nat) (d : Level) (h : ∀ l' f, .set l' f ∈ as → l' ≠ l)
    (v : List Level) : (outAfter v as).getD l d = v.getD l d := by
  induction as generalizing v with
  | nil => rfl
  | cons a as ih =>
    have ih' := fun v => ih (fun l' f hm => h l' f (by simp [hm])) v
    cases a with
    | set l' f =>
      have := h l' f (by simp)
      rw [outAfter_set, ih', getD_set_eq, if_neg fun hc => this hc.1]
    | get l' x => exact ih' v

/-- The state of a line after accesses the last of which, of those to the line, is `RegSet(l, f)`. -/
theorem dirAfter_getD_of_last (as bs : List Access) (l : Nat) (f d : Direction) (v : List Direction)
    (hl : l < v.length) (h : ∀ l' g, .set l' g ∈ bs → l' ≠ l) :
    (dirAfter v (as ++ .set l f :: bs)).getD l d = f := by
  rw [dirAfter_append, dirAfter_set, dirAfter_getD_of_not_set _ _ _ h, getD_set_eq]
  simp [hl]

theorem outAfter_getD_of_last (as bs : List Access) (l : Nat) (f : Direction) (d : Level) (v : List Level)
    (hl : l < v.length) (h : ∀ l' g, .set l' g ∈ bs → l' ≠ l) :
    (outAfter v (as ++ .set l f :: bs)).getD l d = latchOf f := by
  rw [outAfter_append, outAfter_set, outAfter_getD_of_not_set _ _ _ h, getD_set_eq]
  simp [hl]

/-- A line after its last `RegSet` of a run, floated or asserted low (R111). -/
theorem Ran.lineAfter {s t : State} {as bs : List Access} {ps : List Phase} {l : Nat} {f : Direction}
    (h : Ran s t (as ++ .set l f :: bs) ps) (hd : l < s.bus.dir.length) (ho : l < s.bus.out.length)
    (hb : ∀ l' g, .set l' g ∈ bs → l' ≠ l) : t.bus.dirOf l = f ∧ t.bus.outOf l = latchOf f :=
  ⟨by rw [h.dirOf, dirAfter_getD_of_last _ _ _ _ _ _ hd hb],
   by rw [h.outOf, outAfter_getD_of_last _ _ _ _ _ _ ho hb]⟩

/-- A line that no access of a run sets keeps its state. -/
theorem Ran.lineSame {s t : State} {as : List Access} {ps : List Phase} {l : Nat} (h : Ran s t as ps)
    (hn : ∀ l' g, .set l' g ∈ as → l' ≠ l) : t.bus.dirOf l = s.bus.dirOf l ∧ t.bus.outOf l = s.bus.outOf l :=
  ⟨by rw [h.dirOf, dirAfter_getD_of_not_set _ _ _ hn, Bus.dirOf],
   by rw [h.outOf, outAfter_getD_of_not_set _ _ _ hn, Bus.outOf]⟩

/-- The canonical form of the line space is kept by every run. -/
theorem Ran.sized {s t : State} {as : List Access} {ps : List Phase} {n : Nat} (h : Ran s t as ps)
    (hs : s.bus.sized n) : t.bus.sized n := by
  obtain ⟨h1, h2, h3⟩ := hs
  exact ⟨by rw [h.dir, dirAfter_length, h1], by rw [h.out, outAfter_length, h2], by rw [h.lows, h3]⟩

theorem replay_openDrain (es : List Event) (b : Bus) (hl : b.dir.length = b.out.length) (h : b.openDrain) :
    (replay b es).openDrain := by
  induction es generalizing b with
  | nil => exact h
  | cons e es ih =>
    rw [replay_cons]
    cases e with
    | phase p => exact ih _ hl h
    | env c => exact ih _ hl h
    | acc a =>
      cases a with
      | get l v => exact ih _ hl h
      | set l f =>
        refine ih _ (by simp [hl]) ?_
        intro l'
        rw [apply_set_dirOf, apply_set_outOf, ← hl]
        split
        · cases f <;> simp [latchOf]
        · exact h l'

/-- R113: the open-drain invariant is kept by every run. -/
theorem Ran.openDrain {s t : State} {as : List Access} {ps : List Phase} (h : Ran s t as ps)
    (hl : s.bus.dir.length = s.bus.out.length) (ho : s.bus.openDrain) : t.bus.openDrain := by
  obtain ⟨es, -, -, -, hb⟩ := h.events
  rw [hb]
  exact replay_openDrain es _ hl ho

/-! ## Marks -/

@[simp] theorem marked_nil (dev : Descriptor) : marked dev [] = [] := rfl
@[simp] theorem marked_cons (dev : Descriptor) (m : Mark) (ms : List Mark) :
    marked dev (m :: ms) = m.access dev :: marked dev ms := rfl
@[simp] theorem marked_append (dev : Descriptor) (ms ns : List Mark) :
    marked dev (ms ++ ns) = marked dev ms ++ marked dev ns := by
  simp [marked]
@[simp] theorem marked_length (dev : Descriptor) (ms : List Mark) : (marked dev ms).length = ms.length := by
  simp [marked]

/-- Marks set no line but the descriptor's two (R36). -/
theorem marked_sets {dev : Descriptor} {ms : List Mark} {l : Nat} {f : Direction} (h : .set l f ∈ marked dev ms) :
    l = dev.scl ∨ l = dev.sda := by
  simp only [marked, List.mem_map] at h
  obtain ⟨m, -, hm⟩ := h
  cases m with
  | c v => exact .inl (by simpa [Mark.access, eq_comm] using congrArg (fun | Access.set l _ => l | .get l _ => l) hm)
  | d v => exact .inr (by simpa [Mark.access, eq_comm] using congrArg (fun | Access.set l _ => l | .get l _ => l) hm)
  | r v => simp [Mark.access] at hm

/-- R36: a run of marks leaves every other line alone. -/
theorem Ran.sameElsewhere {s t : State} {dev : Descriptor} {ms : List Mark} {ps : List Phase}
    (h : Ran s t (marked dev ms) ps) : s.bus.sameElsewhere dev.scl dev.sda t.bus := by
  intro l h1 h2
  refine h.lineSame fun l' g hm => ?_
  rcases marked_sets hm with h | h <;> rw [h] <;> exact Ne.symm (by assumption)

/-- A run of marks in the vocabulary of the statements. -/
theorem Ran.performed {s t : State} {dev : Descriptor} {ms : List Mark} {ps : List Phase}
    (h : Ran s t (marked dev ms) ps) : s.Performed dev ms ps t where
  accesses := h.accesses
  phases := h.phases
  cfg := h.cfg
  requests := h.requests
  exposed := h.exposed
  opened := h.opened
  elsewhere := h.sameElsewhere
  environment := fun k l => by rw [h.lowAt, marked_length]

/-! ## The poll -/

theorem clearPoll_ran (s : State) : Ran s (clearPoll s) [] [] := ran_regs s _

/-- One sample of a poll on the floated data line. -/
theorem pollSample_ran (s : State) (v : Level) (hf : s.bus.dirOf s.regs.desc.sda = .float)
    (hv : willRead s s.regs.desc.sda 0 v) :
    sampled s.regs.desc.sda s = v ∧
      Ran s (countSample (regIn s.regs.desc.sda s)) (marked s.regs.desc [.r v]) [] := by
  have h : sampled s.regs.desc.sda s = v := by rw [sampled_of_float hf, hv, Bool.not_not]
  refine ⟨h, ?_⟩
  have := (regIn_ran s.regs.desc.sda s).trans (ran_regs _ (countSample (regIn s.regs.desc.sda s)).regs)
  rw [h] at this
  exact this

/-- What the environment will do, seen after one more access. -/
theorem Ran.willRead_iff {s t : State} {as : List Access} {ps : List Phase} (h : Ran s t as ps) (l k : Nat)
    (v : Level) : willRead t l k v ↔ willRead s l (as.length + k) v := by
  rw [willRead, willRead, h.lowAt]

theorem Ran.seenAfter_iff {s t : State} {as : List Access} {ps : List Phase} (h : Ran s t as ps) (l k m : Nat)
    (want : Level) : seenAfter t l want k m ↔ seenAfter s l want (as.length + k) m := by
  simp only [seenAfter, h.willRead_iff, Nat.add_assoc]

theorem Ran.neverSeen_iff {s t : State} {as : List Access} {ps : List Phase} (h : Ran s t as ps) (l k n : Nat)
    (want : Level) : neverSeen t l want k n ↔ neverSeen s l want (as.length + k) n := by
  simp only [neverSeen, h.willRead_iff, Nat.add_assoc]

/-- A poll that sees the awaited level after `m` samples of the other one (R127, R152). -/
theorem pollSda_seen (want : Level) (m n : Nat) (s : State) (hf : s.bus.dirOf s.regs.desc.sda = .float)
    (hm : m < n) (h : seenAfter s s.regs.desc.sda want 0 m) :
    ∃ t, pollSda want n s = (true, t) ∧ Ran s t (marked s.regs.desc (pollMarks want m true)) [] ∧
      t.regs = { s.regs with poll := s.regs.poll + m + 1 } := by
  induction m generalizing n s with
  | zero =>
    obtain ⟨n, rfl⟩ : ∃ k, n = k + 1 := ⟨n - 1, by omega⟩
    obtain ⟨hv, hr⟩ := pollSample_ran s want hf h.2
    exact ⟨countSample (regIn s.regs.desc.sda s), by simp [pollSda, hv], by simpa [pollMarks] using hr, by simp⟩
  | succ m ih =>
    obtain ⟨n, rfl⟩ : ∃ k, n = k + 1 := ⟨n - 1, by omega⟩
    obtain ⟨hv, hr⟩ := pollSample_ran s (!want) hf (h.1 0 (by omega))
    have hne : ¬ (!want) = want := by cases want <;> simp
    obtain ⟨t, h1, h2, h3⟩ := ih n (countSample (regIn s.regs.desc.sda s))
      (by simpa using (hr.lineSame (l := s.regs.desc.sda) (by simp [Mark.access])).1.trans hf) (by omega)
      ((hr.seenAfter_iff _ _ _ _).2 ⟨fun i hi => by
        simpa [Nat.add_comm, Nat.add_left_comm] using h.1 (i + 1) (by omega),
        by simpa [Nat.add_comm, Nat.add_left_comm] using h.2⟩)
    refine ⟨t, by simp [pollSda, hv, hne, h1], ?_, ?_⟩
    · simpa [pollMarks, List.replicate_succ] using hr.trans h2
    · rw [h3]; simp; omega

/-- A poll whose every sample reads the other level: as many samples as the bound (R127, R152). -/
theorem pollSda_never (want : Level) (n : Nat) (s : State) (hf : s.bus.dirOf s.regs.desc.sda = .float)
    (h : neverSeen s s.regs.desc.sda want 0 n) :
    ∃ t, pollSda want n s = (false, t) ∧ Ran s t (marked s.regs.desc (pollMarks want n false)) [] ∧
      t.regs = { s.regs with poll := s.regs.poll + n } := by
  induction n generalizing s with
  | zero => exact ⟨s, rfl, by simpa [pollMarks] using ran_regs s s.regs, rfl⟩
  | succ n ih =>
    obtain ⟨hv, hr⟩ := pollSample_ran s (!want) hf (h 0 (by omega))
    have hne : ¬ (!want) = want := by cases want <;> simp
    obtain ⟨t, h1, h2, h3⟩ := ih (countSample (regIn s.regs.desc.sda s))
      (by simpa using (hr.lineSame (l := s.regs.desc.sda) (by simp [Mark.access])).1.trans hf)
      ((hr.neverSeen_iff _ _ _ _).2 fun i hi => by
        simpa [Nat.add_comm, Nat.add_left_comm] using h (i + 1) (by omega))
    refine ⟨t, by simp [pollSda, hv, hne, h1], ?_, ?_⟩
    · simpa [pollMarks, List.replicate_succ] using hr.trans h2
    · rw [h3]; simp; omega

/-- One of the two happens: the outcomes of a poll exclude each other and cover everything (R218). -/
theorem seenAfter_or_neverSeen (s : State) (sda : Nat) (want : Level) (k n : Nat) :
    (∃ m, m < n ∧ seenAfter s sda want k m) ∨ neverSeen s sda want k n := by
  induction n with
  | zero => exact .inr fun i hi => absurd hi (by omega)
  | succ n ih =>
    rcases ih with ⟨m, hm, h⟩ | h
    · exact .inl ⟨m, by omega, h⟩
    · by_cases hw : willRead s sda (k + n) want
      · exact .inl ⟨n, by omega, h, hw⟩
      · refine .inr fun i hi => ?_
        rcases Nat.lt_succ_iff_lt_or_eq.1 hi with h' | rfl
        · exact h i h'
        · simp only [willRead] at hw ⊢
          revert hw
          cases s.lowAt (k + i) sda <;> cases want <;> simp

end Sys2Proof.Machine
end

