-- ==== Sys2Proof/Laws/Primitives.lean ====
section
/-! SUPPORT. What each primitive can do: its `Ran` and its registers, one lemma each, and for those that poll one lemma
per way the poll can go. The lemmas about commands are assembled from these. -/

namespace Sys2Proof.Machine

/-! ## Chaining -/

/-- A `DRIVE(scl, v)` after a run. -/
theorem Ran.driveScl {s t : State} {dev : Descriptor} {ms : List Mark} {ps : List Phase} (v : Level)
    (h : Ran s t (marked dev ms) ps) (hd : t.regs.desc = dev) :
    Ran s (driveScl v t) (marked dev (ms ++ [.c v])) ps := by
  have := h.trans (driveScl_ran v t)
  rw [hd] at this
  simpa using this

/-- A `DRIVE(sda, v)` after a run. -/
theorem Ran.driveSda {s t : State} {dev : Descriptor} {ms : List Mark} {ps : List Phase} (v : Level)
    (h : Ran s t (marked dev ms) ps) (hd : t.regs.desc = dev) :
    Ran s (driveSda v t) (marked dev (ms ++ [.d v])) ps := by
  have := h.trans (driveSda_ran v t)
  rw [hd] at this
  simpa using this

/-- A run of marks after another. -/
theorem Ran.more {s t u : State} {dev : Descriptor} {ms ns : List Mark} {ps qs : List Phase}
    (h : Ran s t (marked dev ms) ps) (k : Ran t u (marked dev ns) qs) :
    Ran s u (marked dev (ms ++ ns)) (ps ++ qs) := by
  rw [marked_append]
  exact h.trans k

theorem ran_refl (s : State) (dev : Descriptor) : Ran s s (marked dev []) [] :=
  ran_regs s s.regs

/-! ## START, STOP, pulses, cells -/

@[simp] theorem startSignal_regs (s : State) : (startSignal s).regs = s.regs := by simp [startSignal]
@[simp] theorem stopSignal_regs (s : State) : (stopSignal s).regs = s.regs := by simp [stopSignal]
@[simp] theorem pulse_regs (s : State) : (pulse s).regs = s.regs := by simp [pulse]
@[simp] theorem bitCell_regs (v : Level) (s : State) : (bitCell v s).regs = s.regs := by simp [bitCell]
@[simp] theorem masterAck_regs (s : State) : (masterAck s).regs = s.regs := by simp [masterAck]

theorem startSignal_ran (s : State) : Ran s (startSignal s) (marked s.regs.desc startMarks) [] :=
  (((driveSda_ran true s).driveScl true (by simp)).driveSda false (by simp)).driveScl false (by simp)

theorem stopSignal_ran (s : State) : Ran s (stopSignal s) (marked s.regs.desc stopMarks) [] :=
  (((driveScl_ran false s).driveSda false (by simp)).driveScl true (by simp)).driveSda true (by simp)

theorem bitCell_ran (v : Level) (s : State) :
    Ran s (bitCell v s) (marked s.regs.desc [.d v, .c true, .c false]) [] :=
  ((driveSda_ran v s).driveScl true (by simp)).driveScl false (by simp)

theorem masterAck_ran (s : State) : Ran s (masterAck s) (marked s.regs.desc masterAckMarks) [] :=
  (((driveSda_ran false s).driveScl true (by simp)).driveScl false (by simp)).driveSda true (by simp)

/-! ## SHIFT_OUT and SEND_DEV_ADDR -/

@[simp] theorem sentMarks_nil : sentMarks [] = [] := rfl
@[simp] theorem sentMarks_cons (v : Level) (vs : List Level) :
    sentMarks (v :: vs) = [.d v, .c true, .c false] ++ sentMarks vs := rfl

/-- The bits `n-1` down to 0. -/
def bitsBelow (b : Byte) : Nat → List Level
  | 0 => []
  | n + 1 => b.getLsbD n :: bitsBelow b n

theorem sendBits_spec (n : Nat) (s : State) :
    Ran s (sendBits n s) (marked s.regs.desc (sentMarks (bitsBelow s.regs.sr n))) [] ∧
      (sendBits n s).regs = { s.regs with bitIdx := if n = 0 then s.regs.bitIdx else 0 } := by
  induction n generalizing s with
  | zero => exact ⟨ran_refl s _, rfl⟩
  | succ n ih =>
    obtain ⟨h1, h2⟩ := ih (bitCell (s.regs.sr.getLsbD n) (setBitIdx n s))
    have hc := (setBitIdx_ran n s).trans (bitCell_ran (s.regs.sr.getLsbD n) (setBitIdx n s))
    refine ⟨?_, ?_⟩
    · simpa [sendBits, bitsBelow] using hc.trans h1
    · rw [sendBits, h2]
      cases n <;> simp

theorem shiftOut_ran (b : Byte) (s : State) : Ran s (shiftOut b s) (marked s.regs.desc (frameMarks b)) [] := by
  have := (setSr_ran b s).trans (sendBits_spec 8 (setSr b s)).1
  simpa [shiftOut, frameMarks, bitsBelow, bitsOf] using this

@[simp] theorem shiftOut_regs (b : Byte) (s : State) :
    (shiftOut b s).regs = { s.regs with sr := b, bitIdx := 0 } := by
  rw [shiftOut, (sendBits_spec 8 (setSr b s)).2]
  simp

/-- The bits `n` down to 1. -/
def addressBitsBelow (d : Byte) : Nat → List Level
  | 0 => []
  | n + 1 => d.getLsbD (n + 1) :: addressBitsBelow d n

theorem sendAddressBits_spec (d : Byte) (n : Nat) (s : State) :
    Ran s (sendAddressBits d n s) (marked s.regs.desc (sentMarks (addressBitsBelow d n))) [] ∧
      (sendAddressBits d n s).regs = { s.regs with bitIdx := if n = 0 then s.regs.bitIdx else 1 } := by
  induction n generalizing s with
  | zero => exact ⟨ran_refl s _, rfl⟩
  | succ n ih =>
    obtain ⟨h1, h2⟩ := ih (bitCell (d.getLsbD (n + 1)) (setBitIdx (n + 1) s))
    have hc := (setBitIdx_ran (n + 1) s).trans (bitCell_ran (d.getLsbD (n + 1)) (setBitIdx (n + 1) s))
    refine ⟨?_, ?_⟩
    · simpa [sendAddressBits, addressBitsBelow] using hc.trans h1
    · rw [sendAddressBits, h2]
      cases n <;> simp

/-- R89: the bits of the device address frame, seven of the device byte and the flag. -/
theorem bitsOf_deviceFrame (d : Byte) (rw : Bool) : bitsOf (deviceFrame d rw) = addressBitsBelow d 7 ++ [rw] := by
  simp only [bitsOf, deviceFrame, addressBitsBelow, BitVec.getLsbD_append, BitVec.getLsbD_extractLsb',
    BitVec.getLsbD_ofBool]
  simp

theorem sentMarks_append (vs ws : List Level) : sentMarks (vs ++ ws) = sentMarks vs ++ sentMarks ws := by
  simp [sentMarks]

theorem sendDevAddr_ran (d : Byte) (rw : Bool) (s : State) :
    Ran s (sendDevAddr d rw s) (marked s.regs.desc (frameMarks (deviceFrame d rw))) [] := by
  obtain ⟨h1, h2⟩ := sendAddressBits_spec d 7 s
  have := h1.trans (bitCell_ran rw (sendAddressBits d 7 s))
  rw [h2] at this
  rw [frameMarks, bitsOf_deviceFrame, sentMarks_append, marked_append]
  exact this

@[simp] theorem sendDevAddr_regs (d : Byte) (rw : Bool) (s : State) :
    (sendDevAddr d rw s).regs = { s.regs with bitIdx := 1 } := by
  rw [sendDevAddr, bitCell_regs, (sendAddressBits_spec d 7 s).2]
  simp

/-! ## SHIFT_IN -/

@[simp] theorem receivedMarks_nil : receivedMarks [] = [] := rfl
@[simp] theorem receivedMarks_cons (v : Level) (vs : List Level) :
    receivedMarks (v :: vs) = [.c true, .r v, .c false] ++ receivedMarks vs := rfl

/-- Marks that move only the clock leave the data line alone. -/
theorem Ran.sdaSame {s t : State} {dev : Descriptor} {ms : List Mark} {ps : List Phase}
    (h : Ran s t (marked dev ms) ps) (hne : dev.scl ≠ dev.sda) (hms : ∀ v, .d v ∉ ms) :
    t.bus.dirOf dev.sda = s.bus.dirOf dev.sda ∧ t.bus.outOf dev.sda = s.bus.outOf dev.sda := by
  refine h.lineSame fun l' g hm => ?_
  simp only [marked, List.mem_map] at hm
  obtain ⟨m, hm, he⟩ := hm
  cases m with
  | c v => rw [Mark.access, Access.set.injEq] at he; rw [← he.1]; exact hne
  | d v => exact absurd hm (hms v)
  | r v => simp [Mark.access] at he

theorem receiveBit_spec (i : Nat) (s : State) (hne : s.regs.desc.scl ≠ s.regs.desc.sda)
    (hf : s.bus.dirOf s.regs.desc.sda = .float) :
    Ran s (receiveBit i s) (marked s.regs.desc (receivedMarks [!s.lowAt 1 s.regs.desc.sda])) [] ∧
      (receiveBit i s).regs =
        { s.regs with sr := writeBit s.regs.sr i (!s.lowAt 1 s.regs.desc.sda) } := by
  have h1 := driveScl_ran true s
  have hv : sampled s.regs.desc.sda (driveScl true s) = !s.lowAt 1 s.regs.desc.sda := by
    rw [sampled_of_float ((h1.sdaSame hne (by simp)).1.trans hf), h1.lowAt]
    simp
  have h2 := (regIn_ran s.regs.desc.sda (driveScl true s)).trans (setSr_ran (writeBit s.regs.sr i
    (!s.lowAt 1 s.regs.desc.sda)) (regIn s.regs.desc.sda (driveScl true s)))
  rw [hv] at h2
  have h3 := (h1.trans h2).trans (driveScl_ran false _)
  refine ⟨?_, by simp [receiveBit, hv]⟩
  simpa [receiveBit, hv, Mark.access] using h3

/-- The result of receiving levels into the bits `n-1` down. -/
def writeBits (b : Byte) : Nat → List Level → Byte
  | n + 1, v :: vs => writeBits (writeBit b n v) n vs
  | _, _ => b

/-- The levels of the next `n` received bits when the first access comes after `k` others. -/
def nextLevels (s : State) (sda : Nat) : Nat → Nat → List Level
  | 0, _ => []
  | n + 1, k => (!s.lowAt (k + 1) sda) :: nextLevels s sda n (k + 3)

theorem Ran.nextLevels_eq {s t : State} {as : List Access} {ps : List Phase} (h : Ran s t as ps) (l n k : Nat) :
    nextLevels t l n k = nextLevels s l n (as.length + k) := by
  induction n generalizing k with
  | zero => rfl
  | succ n ih => simp only [nextLevels, ih, h.lowAt, Nat.add_assoc]

theorem nextLevels_eight (s : State) (sda k : Nat) : nextLevels s sda 8 k = levelsAhead s sda k := by
  simp [nextLevels, levelsAhead, List.range, List.range.loop, Nat.add_assoc]

theorem receiveBits_spec (n : Nat) (s : State) (hne : s.regs.desc.scl ≠ s.regs.desc.sda)
    (hf : s.bus.dirOf s.regs.desc.sda = .float) :
    Ran s (receiveBits n s) (marked s.regs.desc (receivedMarks (nextLevels s s.regs.desc.sda n 0))) [] ∧
      (receiveBits n s).regs =
        { s.regs with
          sr := writeBits s.regs.sr n (nextLevels s s.regs.desc.sda n 0)
          bitIdx := if n = 0 then s.regs.bitIdx else 0 } := by
  induction n generalizing s with
  | zero => exact ⟨ran_refl s _, rfl⟩
  | succ n ih =>
    have hb := setBitIdx_ran n s
    obtain ⟨h1, h2⟩ := receiveBit_spec n (setBitIdx n s) (by simpa using hne) (by simpa using hf)
    have h3 := hb.trans h1
    have hl : (setBitIdx n s).lowAt 1 s.regs.desc.sda = s.lowAt 1 s.regs.desc.sda := by rw [hb.lowAt]; simp
    simp only [setBitIdx_regs, hl, List.nil_append] at h1 h2 h3
    obtain ⟨k1, k2⟩ := ih (receiveBit n (setBitIdx n s)) (by rw [h2]; exact hne)
      (by rw [h2]; exact (h3.sdaSame hne (by simp)).1.trans hf)
    have hn : nextLevels (receiveBit n (setBitIdx n s)) s.regs.desc.sda n 0 = nextLevels s s.regs.desc.sda n 3 := by
      rw [h3.nextLevels_eq]; simp
    simp only [h2, hn] at k1 k2
    refine ⟨?_, ?_⟩
    · simpa [receiveBits, nextLevels] using h3.trans k1
    · rw [receiveBits, k2]
      cases n <;> simp [nextLevels, writeBits]

/-- R145: the result is the eight levels, the first in bit 7. -/
theorem writeBits_eight (a b c d e f g h : Level) :
    writeBits 0 8 [a, b, c, d, e, f, g, h] = byteOfBits [a, b, c, d, e, f, g, h] := by
  revert a b c d e f g h
  decide

theorem shiftIn_spec (s : State) (hne : s.regs.desc.scl ≠ s.regs.desc.sda)
    (hf : s.bus.dirOf s.regs.desc.sda = .float) :
    Ran s (shiftIn s) (marked s.regs.desc (receivedMarks (levelsAhead s s.regs.desc.sda 0))) [] ∧
      (shiftIn s).regs =
        { s.regs with sr := byteOfBits (levelsAhead s s.regs.desc.sda 0), bitIdx := 0 } := by
  have hb := setSr_ran 0 s
  obtain ⟨h1, h2⟩ := receiveBits_spec 8 (setSr 0 s) (by simpa using hne) (by simpa using hf)
  have hn : nextLevels (setSr 0 s) s.regs.desc.sda 8 0 = levelsAhead s s.regs.desc.sda 0 := by
    rw [hb.nextLevels_eq, ← nextLevels_eight]; simp
  simp only [setSr_regs, hn] at h1 h2
  refine ⟨by simpa [shiftIn] using hb.trans h1, ?_⟩
  rw [shiftIn, h2]
  simp only [levelsAhead, List.range, List.range.loop, List.map_cons, List.map_nil, Regs.mk.injEq,
    true_and, and_true]
  exact ⟨writeBits_eight .., rfl⟩

/-! ## WAIT_ACK, WAIT_NACK -/

/-- A floated data line after `DRIVE(sda,1); DRIVE(scl,1)`. -/
theorem floated_for_poll (s : State) (hne : s.regs.desc.scl ≠ s.regs.desc.sda)
    (hin : s.regs.desc.sda < s.bus.dir.length) :
    (driveScl true (driveSda true s)).bus.dirOf s.regs.desc.sda = .float := by
  have h := (driveSda_ran true s).driveScl true (by simp)
  have := h.dirOf s.regs.desc.sda
  rw [this]
  simp [Mark.access, directionOf, dirAfter, hne, hin]

theorem ackPulse_seen (t m : Nat) (s : State) (hne : s.regs.desc.scl ≠ s.regs.desc.sda)
    (hin : s.regs.desc.sda < s.bus.dir.length) (hm : m < t) (h : seenAfter s s.regs.desc.sda false 2 m) :
    ∃ u, ackPulse t s = (true, u) ∧ Ran s u (marked s.regs.desc (ackMarks m true)) [] ∧
      u.regs = { s.regs with poll := m + 1 } := by
  have h1 := (driveSda_ran true s).driveScl true (by simp)
  have h2 := h1.trans (clearPoll_ran _)
  obtain ⟨u, k1, k2, k3⟩ := pollSda_seen false m t (clearPoll (driveScl true (driveSda true s)))
    (by simpa using floated_for_poll s hne hin) hm ((h2.seenAfter_iff _ _ _ _).2 (by simpa using h))
  have h3 := (h2.trans k2).trans (driveScl_ran false u)
  refine ⟨driveScl false u, by simp [ackPulse, pollFrom0, k1], ?_, by simp [k3]⟩
  simpa [k3, ackMarks] using h3

theorem ackPulse_never (t : Nat) (s : State) (hne : s.regs.desc.scl ≠ s.regs.desc.sda)
    (hin : s.regs.desc.sda < s.bus.dir.length) (h : neverSeen s s.regs.desc.sda false 2 t) :
    ∃ u, ackPulse t s = (false, u) ∧ Ran s u (marked s.regs.desc (ackMarks t false)) [] ∧
      u.regs = { s.regs with poll := t } := by
  have h1 := (driveSda_ran true s).driveScl true (by simp)
  have h2 := h1.trans (clearPoll_ran _)
  obtain ⟨u, k1, k2, k3⟩ := pollSda_never false t (clearPoll (driveScl true (driveSda true s)))
    (by simpa using floated_for_poll s hne hin) ((h2.neverSeen_iff _ _ _ _).2 (by simpa using h))
  have h3 := (h2.trans k2).trans (driveScl_ran false u)
  refine ⟨driveScl false u, by simp [ackPulse, pollFrom0, k1], ?_, by simp [k3]⟩
  simpa [k3, ackMarks] using h3

theorem waitAck_seen (t m : Nat) (s : State) (hne : s.regs.desc.scl ≠ s.regs.desc.sda)
    (hin : s.regs.desc.sda < s.bus.dir.length) (hm : m < t) (h : seenAfter s s.regs.desc.sda false 2 m) :
    ∃ u, waitAck t s = .ok u ∧ Ran s u (marked s.regs.desc (ackMarks m true)) [] ∧
      u.regs = { s.regs with poll := m + 1 } := by
  obtain ⟨u, h1, h2, h3⟩ := ackPulse_seen t m s hne hin hm h
  exact ⟨u, by simp [waitAck, h1], h2, h3⟩

theorem waitAck_never (t : Nat) (s : State) (hne : s.regs.desc.scl ≠ s.regs.desc.sda)
    (hin : s.regs.desc.sda < s.bus.dir.length) (h : neverSeen s s.regs.desc.sda false 2 t) :
    ∃ u, waitAck t s = .raised u ∧ Ran s u (marked s.regs.desc (ackMarks t false)) [.idle] ∧
      u.regs = { s.regs with poll := t, ok := false, err := some .noAck, phase := .idle } := by
  obtain ⟨u, h1, h2, h3⟩ := ackPulse_never t s hne hin h
  exact ⟨raiseError .noAck u, by simp [waitAck, h1], by simpa using h2.trans (raiseError_ran .noAck u), by simp [h3]⟩

theorem waitNack_never (t : Nat) (s : State) (hne : s.regs.desc.scl ≠ s.regs.desc.sda)
    (hin : s.regs.desc.sda < s.bus.dir.length) (h : neverSeen s s.regs.desc.sda false 2 t) :
    ∃ u, waitNack t s = .ok u ∧ Ran s u (marked s.regs.desc (ackMarks t false)) [] ∧
      u.regs = { s.regs with poll := t } := by
  obtain ⟨u, h1, h2, h3⟩ := ackPulse_never t s hne hin h
  exact ⟨u, by simp [waitNack, h1], h2, h3⟩

theorem waitNack_seen (t m : Nat) (s : State) (hne : s.regs.desc.scl ≠ s.regs.desc.sda)
    (hin : s.regs.desc.sda < s.bus.dir.length) (hm : m < t) (h : seenAfter s s.regs.desc.sda false 2 m) :
    ∃ u, waitNack t s = .raised u ∧ Ran s u (marked s.regs.desc (ackMarks m true)) [.idle] ∧
      u.regs = { s.regs with poll := m + 1, ok := false, err := some .unexpectedAck, phase := .idle } := by
  obtain ⟨u, h1, h2, h3⟩ := ackPulse_seen t m s hne hin hm h
  exact ⟨raiseError .unexpectedAck u, by simp [waitNack, h1],
    by simpa using h2.trans (raiseError_ran .unexpectedAck u), by simp [h3]⟩

/-! ## INIT -/

theorem busRecovery_seen (m : Nat) (s : State) (hf : s.bus.dirOf s.regs.desc.sda = .float) (hm : m < s.cfg.tInit)
    (h : seenAfter s s.regs.desc.sda true 0 m) :
    ∃ u, busRecovery s = .ok u ∧ Ran s u (marked s.regs.desc (recoveryMarks m)) [] ∧
      u.regs = { s.regs with poll := m + 1 } := by
  have hc := clearPoll_ran s
  obtain ⟨u, k1, k2, k3⟩ := pollSda_seen true m s.cfg.tInit (clearPoll s) (by simpa using hf) hm
    ((hc.seenAfter_iff _ _ _ _).2 (by simpa using h))
  have h3 := (hc.trans k2).trans (stopSignal_ran u)
  refine ⟨stopSignal u, by simp [busRecovery, pollFrom0, k1], ?_, by simp [k3]⟩
  simpa [k3, recoveryMarks] using h3

theorem busRecovery_never (s : State) (hf : s.bus.dirOf s.regs.desc.sda = .float)
    (h : neverSeen s s.regs.desc.sda true 0 s.cfg.tInit) :
    ∃ u, busRecovery s = .raised u ∧ Ran s u (marked s.regs.desc (pollMarks true s.cfg.tInit false)) [.idle] ∧
      u.regs = { s.regs with poll := s.cfg.tInit, ok := false, err := some .busStuckLow, phase := .idle } := by
  have hc := clearPoll_ran s
  obtain ⟨u, k1, k2, k3⟩ := pollSda_never true s.cfg.tInit (clearPoll s) (by simpa using hf)
    ((hc.neverSeen_iff _ _ _ _).2 (by simpa using h))
  have h3 := (hc.trans k2).trans (raiseError_ran .busStuckLow u)
  refine ⟨raiseError .busStuckLow u, by simp [busRecovery, pollFrom0, k1], ?_, by simp [k3]⟩
  simpa using h3

end Sys2Proof.Machine
end

