-- ==== Sys2Proof/Laws/Transactions.lean ====
section
/-! SUPPORT. What the parts of a command can do, one lemma per way they can go, in terms of what the environment does;
assembled from the lemmas about primitives. -/

namespace Sys2Proof.Machine

/-! ## Chaining results -/

@[simp] theorem andThen_ok (s : State) (f : State → Res) : (Res.ok s).andThen f = f s := rfl
@[simp] theorem andThen_raised (s : State) (f : State → Res) : (Res.raised s).andThen f = .raised s := rfl
@[simp] theorem state_ok (s : State) : (Res.ok s).state = s := rfl
@[simp] theorem state_raised (s : State) : (Res.raised s).state = s := rfl

/-- The lines of `dev` are the latched ones, distinct, and entries of the register model. -/
structure Lines (dev : Descriptor) (s : State) : Prop where
  desc : s.regs.desc = dev
  distinct : dev.scl ≠ dev.sda
  sclDir : dev.scl < s.bus.dir.length
  sdaDir : dev.sda < s.bus.dir.length
  sclOut : dev.scl < s.bus.out.length
  sdaOut : dev.sda < s.bus.out.length

theorem Lines.after {dev : Descriptor} {s t : State} {as : List Access} {ps : List Phase} (h : Lines dev s)
    (k : Ran s t as ps) (hd : t.regs.desc = s.regs.desc) : Lines dev t where
  desc := hd.trans h.desc
  distinct := h.distinct
  sclDir := by rw [k.dir, dirAfter_length]; exact h.sclDir
  sdaDir := by rw [k.dir, dirAfter_length]; exact h.sdaDir
  sclOut := by rw [k.out, outAfter_length]; exact h.sclOut
  sdaOut := by rw [k.out, outAfter_length]; exact h.sdaOut

theorem Descriptor.wf_iff (n : Nat) (dev : Descriptor) :
    dev.wf n = true ↔ dev.scl < n ∧ dev.sda < n ∧ dev.scl ≠ dev.sda := by
  simp [Descriptor.wf, and_assoc]

/-- The latched descriptor of a state that meets the invariant. -/
theorem State.Inv.latchedLines {s : State} (h : s.Inv) : Lines s.regs.desc s := by
  obtain ⟨h1, h2, h3⟩ := (Descriptor.wf_iff _ _).1 h.latch
  obtain ⟨k1, k2, -⟩ := h.sized
  exact ⟨rfl, h3, by omega, by omega, by omega, by omega⟩

theorem lines_of_sized {s : State} {n : Nat} (dev : Descriptor) (hs : s.bus.sized n) (hw : dev.wf n = true)
    (hd : s.regs.desc = dev) : Lines dev s := by
  obtain ⟨h1, h2, h3⟩ := (Descriptor.wf_iff _ _).1 hw
  obtain ⟨k1, k2, -⟩ := hs
  exact ⟨hd, h3, by omega, by omega, by omega, by omega⟩

/-! ## The lasting registers -/

theorem lasting_congr {r r' : Regs} (h : r'.lasting = r.lasting) :
    r' = { r with sr := r'.sr, bitIdx := r'.bitIdx, poll := r'.poll, idx := r'.idx } := by
  cases r; cases r'
  simp only [Regs.lasting, Regs.mk.injEq] at h
  simp only [Regs.mk.injEq]
  tauto

/-! ## Lengths of traces -/

@[simp] theorem bitsOf_length (b : Byte) : (bitsOf b).length = 8 := rfl
@[simp] theorem frameMarks_length (b : Byte) : (frameMarks b).length = 24 := rfl
@[simp] theorem startMarks_length : startMarks.length = 4 := rfl
@[simp] theorem stopMarks_length : stopMarks.length = 4 := rfl
@[simp] theorem masterAckMarks_length : masterAckMarks.length = 4 := rfl
@[simp] theorem pollMarks_length (want : Level) (m : Nat) (seen : Bool) :
    (pollMarks want m seen).length = m + seen.toNat := by
  cases seen <;> simp [pollMarks]
@[simp] theorem ackMarks_length (m : Nat) (seen : Bool) : (ackMarks m seen).length = m + seen.toNat + 3 := by
  simp [ackMarks]
@[simp] theorem recoveryMarks_length (m : Nat) : (recoveryMarks m).length = m + 5 := by
  simp [recoveryMarks]
@[simp] theorem levelsAhead_length (s : State) (sda k : Nat) : (levelsAhead s sda k).length = 8 := by
  simp [levelsAhead]
@[simp] theorem receivedMarks_length (bits : List Level) : (receivedMarks bits).length = 3 * bits.length := by
  simp [receivedMarks, Nat.mul_comm]
@[simp] theorem prefixMarks_length (devb a : Byte) (m0 m1 m2 : Nat) :
    (prefixMarks devb a m0 m1 m2).length = m0 + m1 + m2 + 65 := by
  simp [prefixMarks]; omega
@[simp] theorem readPrefixMarks_length (devb a : Byte) (m0 m1 m2 m3 : Nat) :
    (readPrefixMarks devb a m0 m1 m2 m3).length = m0 + m1 + m2 + m3 + 97 := by
  simp [readPrefixMarks]; omega

theorem Ran.levelsAhead_eq {s t : State} {as : List Access} {ps : List Phase} (h : Ran s t as ps) (l k : Nat) :
    levelsAhead t l k = levelsAhead s l (as.length + k) := by
  simp only [levelsAhead, h.lowAt, Nat.add_assoc]

/-! ## The lines after marks -/

/-- After marks whose last on the data line is `D1` the data line is floated. -/
theorem Ran.sdaFloated {s t : State} {dev : Descriptor} {ms ns : List Mark} {ps : List Phase}
    (h : Ran s t (marked dev (ms ++ ns)) ps) (hl : Lines dev s)
    (hn : ∃ as bs, ns = as ++ .d true :: bs ∧ ∀ v, .d v ∉ bs) : t.bus.floated dev.sda := by
  obtain ⟨as, bs, rfl, hb⟩ := hn
  have h' : Ran s t (marked dev (ms ++ as) ++ .set dev.sda .float :: marked dev bs) ps := by
    simpa [Mark.access, directionOf] using h
  refine h'.lineAfter hl.sdaDir hl.sdaOut fun l g hm => ?_
  simp only [marked, List.mem_map] at hm
  obtain ⟨m, hm, he⟩ := hm
  cases m with
  | c v => rw [Mark.access, Access.set.injEq] at he; rw [← he.1]; exact hl.distinct
  | d v => exact absurd hm (hb v)
  | r v => simp [Mark.access] at he

/-- After marks whose last on the clock line is `C v` the clock line is floated or asserted low. -/
theorem Ran.sclAfter {s t : State} {dev : Descriptor} {ms ns : List Mark} {ps : List Phase} {v : Level}
    (h : Ran s t (marked dev (ms ++ ns)) ps) (hl : Lines dev s)
    (hn : ∃ as bs, ns = as ++ .c v :: bs ∧ ∀ w, .c w ∉ bs) :
    t.bus.dirOf dev.scl = directionOf v ∧ t.bus.outOf dev.scl = v := by
  obtain ⟨as, bs, rfl, hb⟩ := hn
  have h' : Ran s t (marked dev (ms ++ as) ++ .set dev.scl (directionOf v) :: marked dev bs) ps := by
    simpa [Mark.access] using h
  have := h'.lineAfter hl.sclDir hl.sclOut fun l g hm => ?_
  · cases v <;> exact this
  · simp only [marked, List.mem_map] at hm
    obtain ⟨m, hm, he⟩ := hm
    cases m with
    | c v => exact absurd hm (hb v)
    | d v => rw [Mark.access, Access.set.injEq] at he; rw [← he.1]; exact Ne.symm hl.distinct
    | r v => simp [Mark.access] at he

theorem ackMarks_endsFloated (m : Nat) (seen : Bool) :
    ∃ as bs, ackMarks m seen = as ++ .d true :: bs ∧ ∀ v, .d v ∉ bs :=
  ⟨[], [.c true] ++ pollMarks false m seen ++ [.c false], rfl, by cases seen <;> simp [pollMarks]⟩

theorem ackMarks_endsLow (m : Nat) (seen : Bool) :
    ∃ as bs, ackMarks m seen = as ++ .c false :: bs ∧ ∀ v, .c v ∉ bs :=
  ⟨[.d true, .c true] ++ pollMarks false m seen, [], rfl, by simp⟩

theorem stopMarks_endsFloated : ∃ as bs, stopMarks = as ++ .d true :: bs ∧ ∀ v, .d v ∉ bs :=
  ⟨[.c false, .d false, .c true], [], rfl, by simp⟩

theorem stopMarks_endsHigh : ∃ as bs, stopMarks = as ++ .c true :: bs ∧ ∀ v, .c v ∉ bs :=
  ⟨[.c false, .d false], [.d true], rfl, by simp⟩

theorem masterAckMarks_endsFloated : ∃ as bs, masterAckMarks = as ++ .d true :: bs ∧ ∀ v, .d v ∉ bs :=
  ⟨[.d false, .c true, .c false], [], rfl, by simp⟩

/-! ## Frames with their acknowledge -/

theorem awaitAck_seen (dev : Descriptor) (m : Nat) (s : State) (hl : Lines dev s)
    (h : seenInTime s dev.sda false 2 s.cfg.tAck m) :
    ∃ u, awaitAck s = .ok u ∧ Ran s u (marked dev (ackMarks m true)) [] ∧ u.regs.lasting = s.regs.lasting := by
  obtain ⟨u, h1, h2, h3⟩ := waitAck_seen s.cfg.tAck m s (by rw [hl.desc]; exact hl.distinct)
    (by rw [hl.desc]; exact hl.sdaDir) h.1 (by rw [hl.desc]; exact h.2)
  exact ⟨u, h1, by rw [← hl.desc]; exact h2, by rw [h3]; rfl⟩

theorem awaitAck_never (dev : Descriptor) (s : State) (hl : Lines dev s)
    (h : neverSeen s dev.sda false 2 s.cfg.tAck) :
    ∃ u, awaitAck s = .raised u ∧ Ran s u (marked dev (ackMarks s.cfg.tAck false)) [.idle] ∧
      u.regs.lasting = { s.regs.lasting with ok := false, err := some .noAck, phase := .idle } := by
  obtain ⟨u, h1, h2, h3⟩ := waitAck_never s.cfg.tAck s (by rw [hl.desc]; exact hl.distinct)
    (by rw [hl.desc]; exact hl.sdaDir) (by rw [hl.desc]; exact h)
  exact ⟨u, h1, by rw [← hl.desc]; exact h2, by rw [h3]; rfl⟩

/-- A frame from an earlier state: what follows a run `s` to `t` whose last accesses send `ns`. -/
theorem awaitAck_seen_after {dev : Descriptor} {s t : State} {ms : List Mark} {ps : List Phase} (m : Nat)
    (hr : Ran s t (marked dev ms) ps) (hl : Lines dev t)
    (h : seenInTime s dev.sda false (ms.length + 2) s.cfg.tAck m) :
    ∃ u, awaitAck t = .ok u ∧ Ran s u (marked dev (ms ++ ackMarks m true)) ps ∧ Lines dev u ∧
      u.regs.lasting = t.regs.lasting := by
  obtain ⟨u, h1, h2, h3⟩ := awaitAck_seen dev m t hl
    (by rw [hr.cfg]; exact ⟨h.1, (hr.seenAfter_iff _ _ _ _).2 (by simpa using h.2)⟩)
  refine ⟨u, h1, by simpa using hr.more h2, hl.after h2 ?_, h3⟩
  exact (congrArg Regs.desc h3 :)

theorem awaitAck_never_after {dev : Descriptor} {s t : State} {ms : List Mark} {ps : List Phase}
    (hr : Ran s t (marked dev ms) ps) (hl : Lines dev t)
    (h : neverSeen s dev.sda false (ms.length + 2) s.cfg.tAck) :
    ∃ u, awaitAck t = .raised u ∧ Ran s u (marked dev (ms ++ ackMarks s.cfg.tAck false)) (ps ++ [.idle]) ∧
      u.regs.lasting = { t.regs.lasting with ok := false, err := some .noAck, phase := .idle } := by
  obtain ⟨u, h1, h2, h3⟩ := awaitAck_never dev t hl
    (by rw [hr.cfg]; exact (hr.neverSeen_iff _ _ _ _).2 (by simpa using h))
  exact ⟨u, h1, by rw [← hr.cfg]; exact hr.more h2, h3⟩

/-! ## PREFIX -/

/-- The state in which PREFIX waits for the device's acknowledge. -/
theorem toDeviceAck {dev : Descriptor} (m0 : Nat) (s : State) (hl : Lines dev s)
    (hf : s.bus.dirOf dev.sda = .float) (h : busFree s dev.sda m0) :
    ∃ r, busRecovery s = .ok r ∧
      Ran s (sendDevAddr s.regs.devb false (setPhase .started (startSignal r)))
        (marked dev (recoveryMarks m0 ++ startMarks ++ frameMarks (deviceFrame s.regs.devb false))) [.started] ∧
      r.regs.lasting = s.regs.lasting := by
  obtain ⟨r, h1, h2, h3⟩ := busRecovery_seen m0 s (by rw [hl.desc]; exact hf) h.1 (by rw [hl.desc]; exact h.2)
  rw [hl.desc] at h2
  have hd : r.regs.desc = dev := by rw [h3]; exact hl.desc
  refine ⟨r, h1, ?_, by rw [h3]; rfl⟩
  have k1 := startSignal_ran r
  have k2 := setPhase_ran .started (startSignal r)
  have k3 := sendDevAddr_ran s.regs.devb false (setPhase .started (startSignal r))
  simp only [setPhase_regs, startSignal_regs, hd] at k1 k3
  simpa using ((h2.trans k1).trans k2).trans k3

theorem prefixPart_stuck {dev : Descriptor} (s : State) (hl : Lines dev s) (hf : s.bus.dirOf dev.sda = .float)
    (h : neverSeen s dev.sda true 0 s.cfg.tInit) :
    ∃ u, prefixPart s = .raised u ∧ Ran s u (marked dev (pollMarks true s.cfg.tInit false)) [.idle] ∧
      u.regs.lasting = { s.regs.lasting with ok := false, err := some .busStuckLow, phase := .idle } := by
  obtain ⟨u, h1, h2, h3⟩ := busRecovery_never s (by rw [hl.desc]; exact hf) (by rw [hl.desc]; exact h)
  exact ⟨u, by simp [prefixPart, h1], by rw [← hl.desc]; exact h2, by rw [h3]; rfl⟩

theorem prefixPart_noDevice {dev : Descriptor} (m0 : Nat) (s : State) (hl : Lines dev s)
    (hf : s.bus.dirOf dev.sda = .float) (h0 : busFree s dev.sda m0)
    (h : neverSeen s dev.sda false (m0 + 35) s.cfg.tAck) :
    ∃ u, prefixPart s = .raised u ∧
      Ran s u (marked dev (recoveryMarks m0 ++ startMarks ++ frameMarks (deviceFrame s.regs.devb false) ++
        ackMarks s.cfg.tAck false)) [.started, .idle] ∧
      u.regs.lasting = { s.regs.lasting with ok := false, err := some .noAck, phase := .idle } := by
  obtain ⟨r, h1, h2, h3⟩ := toDeviceAck m0 s hl hf h0
  have hv : r.regs.devb = s.regs.devb := (congrArg Regs.devb h3 :)
  have hd : r.regs.desc = s.regs.desc := (congrArg Regs.desc h3 :)
  obtain ⟨u, k1, k2, k3⟩ := awaitAck_never_after h2 (hl.after h2 (by simp [hd])) (by simpa using h)
  refine ⟨u, by simp [prefixPart, h1, hv, k1], by simpa using k2, ?_⟩
  rw [k3, ← h3]
  simp [Regs.lasting]

/-- PREFIX as far as the acknowledge of the device address, and the byte address frame sent. -/
theorem toAddressAck {dev : Descriptor} (m0 m1 : Nat) (s : State) (hl : Lines dev s)
    (hf : s.bus.dirOf dev.sda = .float) (h0 : busFree s dev.sda m0) (h1 : deviceAcks s dev.sda m0 m1) :
    ∃ r v, busRecovery s = .ok r ∧ r.regs.lasting = s.regs.lasting ∧
      awaitAck (sendDevAddr s.regs.devb false (setPhase .started (startSignal r))) = .ok v ∧
      v.regs.lasting = { s.regs.lasting with phase := .started } ∧
      Ran s (shiftOut s.regs.byteAddr (setPhase .addrWritten v))
        (marked dev (recoveryMarks m0 ++ startMarks ++ frameMarks (deviceFrame s.regs.devb false) ++
          ackMarks m1 true ++ frameMarks s.regs.byteAddr)) [.started, .addrWritten] := by
  obtain ⟨r, k1, k2, k3⟩ := toDeviceAck m0 s hl hf h0
  have hd : r.regs.desc = s.regs.desc := (congrArg Regs.desc k3 :)
  obtain ⟨v, j1, j2, j3, j4⟩ := awaitAck_seen_after m1 k2 (hl.after k2 (by simp [hd])) (by simpa using h1)
  refine ⟨r, v, k1, k3, j1, ?_, ?_⟩
  · rw [j4, ← k3]; simp [Regs.lasting]
  · have i1 := setPhase_ran .addrWritten v
    have i2 := shiftOut_ran s.regs.byteAddr (setPhase .addrWritten v)
    simp only [setPhase_regs, j3.desc] at i2
    simpa using (j2.trans i1).trans i2

/-- Where the first sample of the byte address's acknowledge stands. -/
theorem addressAck_at (devb a : Byte) (m0 m1 : Nat) :
    (recoveryMarks m0 ++ startMarks ++ frameMarks (deviceFrame devb false) ++ ackMarks m1 true ++
      frameMarks a).length + 2 = m0 + m1 + 63 := by
  simp; omega

theorem prefixPart_noAddress {dev : Descriptor} (m0 m1 : Nat) (s : State) (hl : Lines dev s)
    (hf : s.bus.dirOf dev.sda = .float) (h0 : busFree s dev.sda m0) (h1 : deviceAcks s dev.sda m0 m1)
    (h : neverSeen s dev.sda false (m0 + m1 + 63) s.cfg.tAck) :
    ∃ u, prefixPart s = .raised u ∧
      Ran s u (marked dev (recoveryMarks m0 ++ startMarks ++ frameMarks (deviceFrame s.regs.devb false) ++
        ackMarks m1 true ++ frameMarks s.regs.byteAddr ++ ackMarks s.cfg.tAck false))
        [.started, .addrWritten, .idle] ∧
      u.regs.lasting = { s.regs.lasting with ok := false, err := some .noAck, phase := .idle } := by
  obtain ⟨r, v, k1, k2, k3, k4, k5⟩ := toAddressAck m0 m1 s hl hf h0 h1
  have hv : r.regs.devb = s.regs.devb := (congrArg Regs.devb k2 :)
  have ha : v.regs.byteAddr = s.regs.byteAddr := (congrArg Regs.byteAddr k4 :)
  have hd : v.regs.desc = s.regs.desc := (congrArg Regs.desc k4 :)
  obtain ⟨u, j1, j2, j3⟩ := awaitAck_never_after k5 (hl.after k5 (by simp [hd]))
    (by rw [addressAck_at]; exact h)
  refine ⟨u, by simp [prefixPart, k1, hv, k3, sendByteAddr, ha, show waitAck _ _ = _ from j1], by simpa using j2, ?_⟩
  rw [j3]
  simp only [Regs.lasting, shiftOut_regs, setPhase_regs] at k4 ⊢
  simp only [Regs.mk.injEq] at k4 ⊢
  simp [k4]

theorem prefixPart_ok {dev : Descriptor} (m0 m1 m2 : Nat) (s : State) (hl : Lines dev s)
    (hf : s.bus.dirOf dev.sda = .float) (h : prefixAnswered s dev.sda m0 m1 m2) :
    ∃ u, prefixPart s = .ok u ∧
      Ran s u (marked dev (prefixMarks s.regs.devb s.regs.byteAddr m0 m1 m2))
        [.started, .addrWritten, .byteAddrSent] ∧
      Lines dev u ∧ u.regs.lasting = { s.regs.lasting with phase := .byteAddrSent } := by
  obtain ⟨r, v, k1, k2, k3, k4, k5⟩ := toAddressAck m0 m1 s hl hf h.1 h.2.1
  have hv : r.regs.devb = s.regs.devb := (congrArg Regs.devb k2 :)
  have ha : v.regs.byteAddr = s.regs.byteAddr := (congrArg Regs.byteAddr k4 :)
  have hd : v.regs.desc = s.regs.desc := (congrArg Regs.desc k4 :)
  obtain ⟨u, j1, j2, j3, j4⟩ := awaitAck_seen_after m2 k5 (hl.after k5 (by simp [hd]))
    (by rw [addressAck_at]; exact h.2.2)
  have i1 := setPhase_ran .byteAddrSent u
  refine ⟨setPhase .byteAddrSent u,
    by simp [prefixPart, k1, hv, k3, sendByteAddr, ha, show waitAck _ _ = _ from j1], ?_, j3.after i1 rfl, ?_⟩
  · simpa [prefixMarks] using j2.trans i1
  · have j5 := lasting_congr j4
    simp only [Regs.lasting, shiftOut_regs, setPhase_regs] at k4 j5 ⊢
    rw [j5]
    simp only [Regs.mk.injEq] at k4 ⊢
    simp [k4]

/-! ## READ_PREFIX -/

/-- READ_PREFIX as far as the read-mode device address frame. -/
theorem toReadAck {dev : Descriptor} (m0 m1 m2 : Nat) (s : State) (hl : Lines dev s)
    (hf : s.bus.dirOf dev.sda = .float) (h : prefixAnswered s dev.sda m0 m1 m2) :
    ∃ u, prefixPart s = .ok u ∧ u.regs.devb = s.regs.devb ∧
      (sendDevAddr s.regs.devb true (startSignal (setPhase .dataPhase u))).regs.lasting =
        { s.regs.lasting with phase := .dataPhase } ∧
      Lines dev (sendDevAddr s.regs.devb true (startSignal (setPhase .dataPhase u))) ∧
      Ran s (sendDevAddr s.regs.devb true (startSignal (setPhase .dataPhase u)))
        (marked dev (prefixMarks s.regs.devb s.regs.byteAddr m0 m1 m2 ++ startMarks ++
          frameMarks (deviceFrame s.regs.devb true))) [.started, .addrWritten, .byteAddrSent, .dataPhase] := by
  obtain ⟨u, k1, k2, k3, k4⟩ := prefixPart_ok m0 m1 m2 s hl hf h
  have hr : Ran s (sendDevAddr s.regs.devb true (startSignal (setPhase .dataPhase u)))
      (marked dev (prefixMarks s.regs.devb s.regs.byteAddr m0 m1 m2 ++ startMarks ++
        frameMarks (deviceFrame s.regs.devb true))) [.started, .addrWritten, .byteAddrSent, .dataPhase] := by
    have i1 := setPhase_ran .dataPhase u
    have i2 := startSignal_ran (setPhase .dataPhase u)
    have i3 := sendDevAddr_ran s.regs.devb true (startSignal (setPhase .dataPhase u))
    simp only [setPhase_regs, startSignal_regs, k3.desc] at i2 i3
    simpa using ((k2.trans i1).trans i2).trans i3
  have hg : (sendDevAddr s.regs.devb true (startSignal (setPhase .dataPhase u))).regs.lasting =
      { s.regs.lasting with phase := .dataPhase } := by
    simp only [Regs.lasting, sendDevAddr_regs, startSignal_regs, setPhase_regs] at k4 ⊢
    simp only [Regs.mk.injEq] at k4 ⊢
    simp [k4]
  exact ⟨u, k1, (congrArg Regs.devb k4 :), hg, hl.after hr (congrArg Regs.desc hg :), hr⟩

theorem readPrefixPart_noRead {dev : Descriptor} (m0 m1 m2 : Nat) (s : State) (hl : Lines dev s)
    (hf : s.bus.dirOf dev.sda = .float) (h : prefixAnswered s dev.sda m0 m1 m2)
    (h3 : neverSeen s dev.sda false (m0 + m1 + m2 + 95) s.cfg.tAck) :
    ∃ u, readPrefixPart s = .raised u ∧
      Ran s u (marked dev (prefixMarks s.regs.devb s.regs.byteAddr m0 m1 m2 ++ startMarks ++
        frameMarks (deviceFrame s.regs.devb true) ++ ackMarks s.cfg.tAck false))
        [.started, .addrWritten, .byteAddrSent, .dataPhase, .idle] ∧
      u.regs.lasting = { s.regs.lasting with ok := false, err := some .noAck, phase := .idle } := by
  obtain ⟨u, k1, k2, k3, k4, k5⟩ := toReadAck m0 m1 m2 s hl hf h
  obtain ⟨v, j1, j2, j3⟩ := awaitAck_never_after k5 k4 (by simpa using h3)
  exact ⟨v, by simp [readPrefixPart, k1, k2, j1], j2, by rw [j3, k3]⟩

theorem readPrefixPart_ok {dev : Descriptor} (m0 m1 m2 m3 : Nat) (s : State) (hl : Lines dev s)
    (hf : s.bus.dirOf dev.sda = .float) (h : readPrefixAnswered s dev.sda m0 m1 m2 m3) :
    ∃ u, readPrefixPart s = .ok u ∧
      Ran s u (marked dev (readPrefixMarks s.regs.devb s.regs.byteAddr m0 m1 m2 m3))
        [.started, .addrWritten, .byteAddrSent, .dataPhase] ∧
      Lines dev u ∧ u.bus.dirOf dev.sda = .float ∧ u.regs.lasting = { s.regs.lasting with phase := .dataPhase } := by
  obtain ⟨u, k1, k2, k3, k4, k5⟩ := toReadAck m0 m1 m2 s hl hf h.1
  obtain ⟨v, j1, j2, j3, j4⟩ := awaitAck_seen_after m3 k5 k4 (by simpa using h.2)
  refine ⟨v, by simp [readPrefixPart, k1, k2, j1], by simpa [readPrefixMarks] using j2, j3, ?_, by rw [j4, k3]⟩
  exact (j2.sdaFloated hl (ackMarks_endsFloated m3 true)).1

/-! ## Data bytes of a write -/

theorem sendByte_seen {dev : Descriptor} (b : Byte) (m : Nat) (s : State) (hl : Lines dev s)
    (h : seenInTime s dev.sda false 26 s.cfg.tAck m) :
    ∃ u, sendByte b s = .ok u ∧ Ran s u (marked dev (frameMarks b ++ ackMarks m true)) [] ∧ Lines dev u ∧
      u.regs.lasting = s.regs.lasting := by
  have h1 := shiftOut_ran b s
  rw [hl.desc] at h1
  obtain ⟨u, k1, k2, k3, k4⟩ := awaitAck_seen_after m h1 (hl.after h1 (by simp)) (by simpa using h)
  exact ⟨u, k1, k2, k3, by rw [k4]; simp [Regs.lasting]⟩

theorem sendByte_never {dev : Descriptor} (b : Byte) (s : State) (hl : Lines dev s)
    (h : neverSeen s dev.sda false 26 s.cfg.tAck) :
    ∃ u, sendByte b s = .raised u ∧
      Ran s u (marked dev (frameMarks b ++ ackMarks s.cfg.tAck false)) [.idle] ∧
      u.regs.lasting = { s.regs.lasting with ok := false, err := some .noAck, phase := .idle } := by
  have h1 := shiftOut_ran b s
  rw [hl.desc] at h1
  obtain ⟨u, k1, k2, k3⟩ := awaitAck_never_after h1 (hl.after h1 (by simp)) (by simpa using h)
  exact ⟨u, k1, by simpa using k2, by rw [k3]; simp [Regs.lasting]⟩

theorem Ran.allAcknowledged_iff {s t : State} {as : List Access} {ps : List Phase} (h : Ran s t as ps) (l n k : Nat)
    (ms : List Nat) : allAcknowledged t l n k ms ↔ allAcknowledged s l n (as.length + k) ms := by
  induction ms generalizing k with
  | nil => rfl
  | cons m ms ih => simp only [allAcknowledged, ih, seenInTime, h.seenAfter_iff, Nat.add_assoc]

@[simp] theorem writtenMarks_nil (ms : List Nat) : writtenMarks [] ms = [] := rfl
@[simp] theorem writtenMarks_cons (b : Byte) (bs : List Byte) (m : Nat) (ms : List Nat) :
    writtenMarks (b :: bs) (m :: ms) = frameMarks b ++ ackMarks m true ++ writtenMarks bs ms := rfl

theorem writtenMarks_length (bs : List Byte) (ms : List Nat) (h : ms.length = bs.length) :
    (writtenMarks bs ms).length = writtenLength ms := by
  induction bs generalizing ms with
  | nil => simp [List.length_eq_zero_iff.1 h, writtenLength]
  | cons b bs ih =>
    obtain ⟨m, ms, rfl⟩ : ∃ m ns, ms = m :: ns := List.exists_cons_of_length_eq_add_one h
    have := ih ms (by simpa using h)
    simp [writtenLength] at this ⊢
    omega

theorem sendBytes_ok {dev : Descriptor} (bs : List Byte) (ms : List Nat) (i : Nat) (s : State) (hl : Lines dev s)
    (hn : ms.length = bs.length) (h : allAcknowledged s dev.sda s.cfg.tAck 0 ms) :
    ∃ u, sendBytes bs i s = .ok u ∧ Ran s u (marked dev (writtenMarks bs ms)) [] ∧ Lines dev u ∧
      u.regs.lasting = s.regs.lasting := by
  induction bs generalizing ms i s with
  | nil => exact ⟨s, rfl, ran_refl s dev, hl, rfl⟩
  | cons b bs ih =>
    obtain ⟨m, ms, rfl⟩ : ∃ m ns, ms = m :: ns := List.exists_cons_of_length_eq_add_one hn
    have h0 := setIdx_ran i s
    obtain ⟨u, k1, k2, k3, k4⟩ := sendByte_seen b m (setIdx i s) (hl.after h0 rfl)
      ⟨h.1.1, (h0.seenAfter_iff _ _ _ _).2 (by simpa using h.1.2)⟩
    have h2 := h0.trans k2
    obtain ⟨v, j1, j2, j3, j4⟩ := ih ms (i + 1) u k3 (by simpa using hn)
      ((h2.allAcknowledged_iff _ _ _ _).2 (by rw [h2.cfg]; simpa [Nat.add_assoc, Nat.add_comm, Nat.add_left_comm]
        using h.2))
    refine ⟨v, by simp [sendBytes, k1, j1], by simpa using h2.trans j2, j3, ?_⟩
    rw [j4, k4]
    simp [Regs.lasting]

/-- The data bytes up to one that is not acknowledged. -/
theorem sendBytes_noAck {dev : Descriptor} (bs : List Byte) (b : Byte) (rest : List Byte) (ms : List Nat) (i : Nat)
    (s : State) (hl : Lines dev s) (hn : ms.length = bs.length) (h : allAcknowledged s dev.sda s.cfg.tAck 0 ms)
    (hx : neverSeen s dev.sda false (writtenLength ms + 26) s.cfg.tAck) :
    ∃ u, sendBytes (bs ++ b :: rest) i s = .raised u ∧
      Ran s u (marked dev (writtenMarks bs ms ++ frameMarks b ++ ackMarks s.cfg.tAck false)) [.idle] ∧
      u.regs.lasting = { s.regs.lasting with ok := false, err := some .noAck, phase := .idle } := by
  induction bs generalizing ms i s with
  | nil =>
    obtain rfl := List.length_eq_zero_iff.1 hn
    have h0 := setIdx_ran i s
    obtain ⟨u, k1, k2, k3⟩ := sendByte_never b (setIdx i s) (hl.after h0 rfl)
      ((h0.neverSeen_iff _ _ _ _).2 (by simpa [writtenLength] using hx))
    exact ⟨u, by simp [sendBytes, k1], by simpa using h0.trans k2, by rw [k3]; simp [Regs.lasting]⟩
  | cons c bs ih =>
    obtain ⟨m, ms, rfl⟩ : ∃ m ns, ms = m :: ns := List.exists_cons_of_length_eq_add_one hn
    have h0 := setIdx_ran i s
    obtain ⟨u, k1, k2, k3, k4⟩ := sendByte_seen c m (setIdx i s) (hl.after h0 rfl)
      ⟨h.1.1, (h0.seenAfter_iff _ _ _ _).2 (by simpa using h.1.2)⟩
    have h2 := h0.trans k2
    obtain ⟨v, j1, j2, j3⟩ := ih ms (i + 1) u k3 (by simpa using hn)
      ((h2.allAcknowledged_iff _ _ _ _).2 (by rw [h2.cfg]; simpa [Nat.add_assoc, Nat.add_comm, Nat.add_left_comm]
        using h.2))
      ((h2.neverSeen_iff _ _ _ _).2 (by
        have e : (([] : List Access) ++ marked dev (frameMarks c ++ ackMarks m true)).length +
            (writtenLength ms + 26) = writtenLength (m :: ms) + 26 := by
          simp [writtenLength]; omega
        rw [h2.cfg, e]; exact hx))
    refine ⟨v, by simp [sendBytes, k1, j1], ?_, ?_⟩
    · have := h2.trans j2
      simpa [h2.cfg] using this
    · rw [j3, k4]
      simp [Regs.lasting]

/-! ## The end of a read -/

theorem endRead_never {dev : Descriptor} (s : State) (hl : Lines dev s)
    (h : neverSeen s dev.sda false 2 s.cfg.tNack) :
    ∃ u, endRead s = .ok u ∧ Ran s u (marked dev (ackMarks s.cfg.tNack false ++ stopMarks)) [] ∧
      u.regs.lasting = s.regs.lasting := by
  obtain ⟨u, h1, h2, h3⟩ := waitNack_never s.cfg.tNack s (by rw [hl.desc]; exact hl.distinct)
    (by rw [hl.desc]; exact hl.sdaDir) (by rw [hl.desc]; exact h)
  have k := h2.trans (stopSignal_ran u)
  rw [h3] at k
  rw [hl.desc, ← marked_append] at k
  exact ⟨stopSignal u, by simp [endRead, h1], k, by simp [h3, Regs.lasting]⟩

theorem endRead_seen {dev : Descriptor} (m : Nat) (s : State) (hl : Lines dev s)
    (h : seenInTime s dev.sda false 2 s.cfg.tNack m) :
    ∃ u, endRead s = .raised u ∧ Ran s u (marked dev (ackMarks m true)) [.idle] ∧
      u.regs.lasting = { s.regs.lasting with ok := false, err := some .unexpectedAck, phase := .idle } := by
  obtain ⟨u, h1, h2, h3⟩ := waitNack_seen s.cfg.tNack m s (by rw [hl.desc]; exact hl.distinct)
    (by rw [hl.desc]; exact hl.sdaDir) h.1 (by rw [hl.desc]; exact h.2)
  rw [hl.desc] at h2
  exact ⟨u, by simp [endRead, h1], h2, by rw [h3]; rfl⟩

/-! ## Data bytes of a read -/

theorem receiveRbyte_spec {dev : Descriptor} (s : State) (hl : Lines dev s) (hf : s.bus.dirOf dev.sda = .float) :
    Ran s (receiveRbyte s) (marked dev (receivedMarks (levelsAhead s dev.sda 0))) [] ∧
      (receiveRbyte s).regs.lasting = { s.regs.lasting with rbyte := byteOfBits (levelsAhead s dev.sda 0) } := by
  obtain ⟨h1, h2⟩ := shiftIn_spec s (by rw [hl.desc]; exact hl.distinct) (by rw [hl.desc]; exact hf)
  rw [hl.desc] at h1 h2
  refine ⟨?_, ?_⟩
  · have := h1.trans (ran_regs (shiftIn s) (receiveRbyte s).regs)
    rwa [List.append_nil, List.append_nil] at this
  · simp [receiveRbyte, h2, Regs.lasting]

theorem receiveIntoRbuf_spec {dev : Descriptor} (i : Nat) (s : State) (hl : Lines dev s)
    (hf : s.bus.dirOf dev.sda = .float) :
    Ran s (receiveIntoRbuf i s) (marked dev (receivedMarks (levelsAhead s dev.sda 0))) [] ∧
      (receiveIntoRbuf i s).regs.lasting =
        { s.regs.lasting with rbuf := s.regs.rbuf ++ [byteOfBits (levelsAhead s dev.sda 0)] } := by
  have h0 := setIdx_ran i s
  obtain ⟨h1, h2⟩ := shiftIn_spec (setIdx i s) (by simp [hl.desc, hl.distinct]) (by simpa [hl.desc] using hf)
  simp only [setIdx_regs, hl.desc, h0.levelsAhead_eq, List.length_nil, Nat.add_zero] at h1 h2
  refine ⟨?_, ?_⟩
  · have := (h0.trans h1).trans (ran_regs (shiftIn (setIdx i s)) (receiveIntoRbuf i s).regs)
    rwa [List.append_nil, List.append_nil, List.nil_append] at this
  · simp [receiveIntoRbuf, h2, Regs.lasting, hl.desc]

theorem pageLevelsAhead_succ (s : State) (l k n : Nat) :
    pageLevelsAhead s l k (n + 1) = levelsAhead s l k :: pageLevelsAhead s l (k + 28) n := by
  simp only [pageLevelsAhead, List.range_succ_eq_map, List.map_cons, List.map_map, Nat.mul_zero, Nat.add_zero,
    List.cons.injEq, true_and]
  refine List.map_congr_left fun i _ => ?_
  simp only [Function.comp, Nat.succ_eq_add_one, Nat.mul_add, Nat.add_assoc, Nat.mul_one, Nat.add_comm 28]

@[simp] theorem pageLevelsAhead_length (s : State) (l k n : Nat) : (pageLevelsAhead s l k n).length = n := by
  simp [pageLevelsAhead]

theorem Ran.pageLevelsAhead_eq {s t : State} {as : List Access} {ps : List Phase} (h : Ran s t as ps) (l k n : Nat) :
    pageLevelsAhead t l k n = pageLevelsAhead s l (as.length + k) n := by
  simp only [pageLevelsAhead, h.levelsAhead_eq, Nat.add_assoc]

theorem pageReadMarks_cons (bits : List Level) (rest : List (List Level)) (h : rest ≠ []) :
    pageReadMarks (bits :: rest) = receivedMarks bits ++ masterAckMarks ++ pageReadMarks rest := by
  cases rest with
  | nil => exact absurd rfl h
  | cons => rfl

/-- The bytes of a page read, up to the pulse that ends it. -/
theorem receiveBytes_toEnd {dev : Descriptor} (n i : Nat) (s : State) (hl : Lines dev s)
    (hf : s.bus.dirOf dev.sda = .float) :
    ∃ u, receiveBytes (n + 1) i s = endRead u ∧
      Ran s u (marked dev (pageReadMarks (pageLevelsAhead s dev.sda 0 (n + 1)) ++ [.d true])) [] ∧ Lines dev u ∧
      u.regs.lasting =
        { s.regs.lasting with rbuf := s.regs.rbuf ++ (pageLevelsAhead s dev.sda 0 (n + 1)).map byteOfBits } := by
  induction n generalizing i s with
  | zero =>
    obtain ⟨h1, h2⟩ := receiveIntoRbuf_spec i s hl hf
    have hd : (receiveIntoRbuf i s).regs.desc = dev := (congrArg Regs.desc h2 :).trans hl.desc
    have h3 := h1.driveSda true hd
    refine ⟨_, rfl, ?_, hl.after h3 (by rw [driveSda_regs, hd, hl.desc]), ?_⟩
    · simpa [pageLevelsAhead_succ, pageLevelsAhead, pageReadMarks] using h3
    · rw [driveSda_regs, h2]; simp [pageLevelsAhead]
  | succ n ih =>
    obtain ⟨h1, h2⟩ := receiveIntoRbuf_spec i s hl hf
    have hd : (receiveIntoRbuf i s).regs.desc = dev := (congrArg Regs.desc h2 :).trans hl.desc
    have h3 := masterAck_ran (receiveIntoRbuf i s)
    rw [hd] at h3
    have h4 := h1.more h3
    have hl' := hl.after h4 (by rw [masterAck_regs, hd, hl.desc])
    obtain ⟨u, k1, k2, k3, k4⟩ := ih (i + 1) (masterAck (receiveIntoRbuf i s)) hl'
      (h4.sdaFloated hl masterAckMarks_endsFloated).1
    have e : pageLevelsAhead (masterAck (receiveIntoRbuf i s)) dev.sda 0 (n + 1) =
        pageLevelsAhead s dev.sda 28 (n + 1) := by
      rw [h4.pageLevelsAhead_eq]; simp
    rw [e] at k2 k4
    refine ⟨u, by rw [receiveBytes, k1], ?_, k3, ?_⟩
    · rw [pageLevelsAhead_succ, pageReadMarks_cons _ _ (by rw [pageLevelsAhead_succ]; simp)]
      simpa using h4.more k2
    · rw [k4, masterAck_regs, h2, pageLevelsAhead_succ s dev.sda 0]
      have hb : (receiveIntoRbuf i s).regs.rbuf = s.regs.rbuf ++ [byteOfBits (levelsAhead s dev.sda 0)] :=
        (congrArg Regs.rbuf h2 :)
      simp [hb]

@[simp] theorem pageReadMarks_length (s : State) (l k n : Nat) :
    (pageReadMarks (pageLevelsAhead s l k (n + 1))).length = 28 * n + 24 := by
  induction n generalizing k with
  | zero => simp [pageLevelsAhead, pageReadMarks]
  | succ n ih =>
    rw [pageLevelsAhead_succ, pageReadMarks_cons _ _ (by rw [pageLevelsAhead_succ]; simp)]
    simp [ih]; omega

end Sys2Proof.Machine
end

