-- ==== Sys2Proof/Laws/Commands.lean ====
section
/-! SUPPORT. How a command begins and ends: from what its body does after acceptance to what `exec` answers, and what
the bus check does with a data line the engine asserts low. -/

namespace Sys2Proof.Machine

/-! ## What runs next -/

theorem nextOperation_request {s : State} {r : Request} {rest : List Request} (h0 : s.exposed = [])
    (h1 : s.requests = r :: rest) : nextOperation s = some (readRequest r, { s with requests := rest }) := by
  simp [nextOperation, h0, h1]

theorem nextOperation_exposed {s : State} {i : Instr} {rest : List Instr} (h : s.exposed = i :: rest)
    (ho : s.opened = true ∨ beginsWithInit i = true) :
    nextOperation s = some (.ok i, { s with exposed := rest }) := by
  simp [nextOperation, h, ho]

/-- R257. -/
theorem nextOperation_unopened {s : State} {i : Instr} {rest : List Instr} (h : s.exposed = i :: rest)
    (ho : s.opened = false) (hi : beginsWithInit i = false) : nextOperation s = some (.ok .init, s) := by
  simp [nextOperation, h, ho, hi]

/-! ## What a step adds -/

@[simp] theorem raiseError_raised (k : ErrKind) (s : State) : (raiseError k s).raised = true := by
  simp [State.raised]

/-- R125: INIT that raises, raises last. -/
theorem busRecovery_raised {s u : State} (h : busRecovery s = .raised u) : u.raised = true := by
  simp only [busRecovery] at h
  split at h <;> cases h
  exact raiseError_raised _ _

/-- R31: accesses with no change of PHASE among or after them are no raise. -/
theorem Ran.not_raised {s t : State} {as : List Access} (h : Ran s t as []) (ha : as ≠ []) : t.raised = false := by
  obtain ⟨es, h1, h2, h3, -⟩ := h.events
  rw [State.raised, h1]
  cases hr : es.reverse with
  | nil => rw [List.reverse_eq_nil_iff.1 hr] at h2; exact absurd h2.symm ha
  | cons e fs =>
    have he : e ∈ es := by rw [← List.mem_reverse, hr]; simp
    have := List.filterMap_eq_nil_iff.1 h3 e he
    cases e with
    | acc a => rfl
    | env c => rfl
    | phase p => simp [Event.phase?] at this

/-! ## Acceptance -/

theorem commandRefusal_none {s : State} {dev : Descriptor} (hp : s.regs.phase = .idle)
    (hw : dev.wf s.cfg.nlines = true) : commandRefusal dev s = none := by
  obtain ⟨h1, h2, h3⟩ := (Descriptor.wf_iff _ _).1 hw
  simp [commandRefusal, hp, lineOk, h1, h2, h3]

theorem commandRefusal_eq_none_iff (s : State) (dev : Descriptor) :
    commandRefusal dev s = none ↔ s.regs.phase = .idle ∧ dev.wf s.cfg.nlines = true := by
  refine ⟨fun h => ?_, fun h => commandRefusal_none h.1 h.2⟩
  unfold commandRefusal at h
  rw [Descriptor.wf_iff]
  split at h
  · cases h
  · split at h
    · cases h
    · split at h
      · cases h
      · rename_i h1 h2 h3
        simp only [lineOk, Bool.and_eq_true, decide_eq_true_eq, not_not, ne_eq] at h1 h2 h3
        exact ⟨h1, h2.1, h2.2, h3⟩

theorem execWriteByte_eq {s : State} {dev : Descriptor} (a d : Byte) (hp : s.regs.phase = .idle)
    (hw : dev.wf s.cfg.nlines = true) :
    exec (.writeByte dev a d) s = endCommand (writeByteBody (accept dev .writeByte a [d] s.regs.count s)) := by
  simp [exec, execWriteByte, commandRefusal_none hp hw]

theorem execWritePage_eq {s : State} {dev : Descriptor} (a : Byte) {data : List Byte} {n : Nat}
    (hp : s.regs.phase = .idle) (hw : dev.wf s.cfg.nlines = true) (hn : n ≤ data.length) :
    exec (.writePage dev a data n) s = endCommand (writePageBody (accept dev .writePage a data n s)) := by
  simp [exec, execWritePage, writePageRefusal, commandRefusal_none hp hw, hn]

theorem execReadByte_eq {s : State} {dev : Descriptor} (a : Byte) (hp : s.regs.phase = .idle)
    (hw : dev.wf s.cfg.nlines = true) :
    exec (.readByte dev a) s =
      endCommand (readByteBody (accept dev .readByte a s.regs.wdata s.regs.count s)) := by
  simp [exec, execReadByte, commandRefusal_none hp hw]

theorem execReadPage_eq {s : State} {dev : Descriptor} (a : Byte) {n : Nat} (hp : s.regs.phase = .idle)
    (hw : dev.wf s.cfg.nlines = true) (hn : 1 ≤ n) :
    exec (.readPage dev a n) s = endCommand (readPageBody (accept dev .readPage a s.regs.wdata n s)) := by
  simp [exec, execReadPage, readPageRefusal, commandRefusal_none hp hw, show n ≠ 0 by omega]

/-- What all four commands share: the body after acceptance, which begins with PREFIX, and for a read with READ_PREFIX. -/
theorem command_cases {i : Instr} {dev : Descriptor} {a : Byte} (ht : commandTarget i = some (dev, a)) (s : State)
    (hp : s.regs.phase = .idle) (hw : i.wf s.cfg.nlines = true) :
    ∃ op ds n, ∃ body : State → Res,
      exec i s = endCommand (body (accept dev op a ds n s)) ∧ dev.wf s.cfg.nlines = true ∧
      (∀ u, ∃ f, body u = (prefixPart u).andThen f) ∧
      (isRead i = true → ∀ u, ∃ f, body u = (readPrefixPart u).andThen f) ∧
      commandLatches i s.regs =
        { s.regs with desc := dev, op := op, byteAddr := a, wdata := ds, count := n, devb := deviceByte dev } ∧
      (op = .readPage ↔ ∃ dev a n, i = .readPage dev a n) := by
  have hpre : ∀ (f : State → Res) (u : State), ∃ g, (readPrefixPart u).andThen f = (prefixPart u).andThen g := by
    intro f u
    cases h : prefixPart u with
    | ok v => exact ⟨fun _ => (readPrefixPart u).andThen f, by simp⟩
    | raised v => exact ⟨f, by simp [readPrefixPart, h]⟩
  cases i <;> simp only [commandTarget, reduceCtorEq, Option.some.injEq, Prod.mk.injEq] at ht
  case writeByte =>
    obtain ⟨rfl, rfl⟩ := ht
    exact ⟨_, _, _, writeByteBody, execWriteByte_eq _ _ hp hw, hw, fun u => ⟨_, rfl⟩, by simp [isRead], rfl, by simp⟩
  case writePage =>
    obtain ⟨rfl, rfl⟩ := ht
    simp only [Instr.wf, Bool.and_eq_true, decide_eq_true_eq] at hw
    exact ⟨_, _, _, writePageBody, execWritePage_eq _ hp hw.1 hw.2, hw.1, fun u => ⟨_, rfl⟩, by simp [isRead], rfl,
      by simp⟩
  case readByte =>
    obtain ⟨rfl, rfl⟩ := ht
    exact ⟨_, _, _, readByteBody, execReadByte_eq _ hp hw, hw, fun u => hpre _ u, fun _ u => ⟨_, rfl⟩, rfl, by simp⟩
  case readPage =>
    obtain ⟨rfl, rfl⟩ := ht
    simp only [Instr.wf, Bool.and_eq_true, decide_eq_true_eq] at hw
    exact ⟨_, _, _, readPageBody, execReadPage_eq _ hp hw.1 hw.2, hw.1, fun u => hpre _ u, fun _ u => ⟨_, rfl⟩, rfl,
      by simp⟩

/-- The lines of a command just accepted. -/
theorem accept_lines {s : State} {dev : Descriptor} (hs : s.bus.sized s.cfg.nlines)
    (hw : dev.wf s.cfg.nlines = true) (op : CmdOp) (a : Byte) (ds : List Byte) (n : Nat) :
    Lines dev (accept dev op a ds n s) :=
  lines_of_sized dev (n := s.cfg.nlines) hs hw rfl

/-! ## The end -/

theorem Ran.finished {s t u : State} {as : List Access} {ps qs : List Phase} (h : Ran s t as ps)
    (k : Ran t u [] qs) : Ran s u as (ps ++ qs) := by
  have := h.trans k
  rwa [List.append_nil] at this

theorem Ran.started {s t u : State} {as : List Access} {ps qs : List Phase} (h : Ran s t [] ps) (k : Ran t u as qs) :
    Ran s u as (ps ++ qs) :=
  h.trans k

/-- A command whose body came to its end. -/
theorem command_ok {s u : State} {dev : Descriptor} {op : CmdOp} {a : Byte} {ds : List Byte} {n : Nat}
    {as : List Access} {ps : List Phase} (h : Ran (accept dev op a ds n s) u as ps) :
    Ran s (finishOk u) as ([.busCheck] ++ ps ++ [.stopped, .idle]) :=
  ((accept_ran dev op a ds n s).started h).finished (finishOk_ran u)

/-- A command whose body raised. -/
theorem command_raised {s u : State} {dev : Descriptor} {op : CmdOp} {a : Byte} {ds : List Byte} {n : Nat}
    {as : List Access} {ps : List Phase} (h : Ran (accept dev op a ds n s) u as ps) :
    Ran s (settle false u) as ([.busCheck] ++ ps) := by
  have := ((accept_ran dev op a ds n s).started h).finished (settle_ran false u)
  rwa [List.append_nil] at this

@[simp] theorem settleResults_lasting (success : Bool) (r : Regs) :
    (settleResults success r).lasting =
      { r.lasting with
        rbyte := (settleResults success r).rbyte
        rbuf := (settleResults success r).rbuf
        draws := r.draws + 1 } := rfl

@[simp] theorem settleResults_rbuf (r : Regs) : (settleResults true r).rbuf = r.rbuf := rfl

/-- The registers of a successful command, from those its body leaves. -/
theorem ended_ok {i : Instr} {s u : State} (h : ∃ p b1 b2,
    u.regs.lasting = ({ commandLatches i s.regs with phase := p, rbyte := b1, rbuf := b2 }).lasting ∧
      ((∀ dev a n, i ≠ .readPage dev a n) → b2 = s.regs.rbuf)) : s.Ended i none (finishOk u) := by
  obtain ⟨p, b1, b2, h, h2⟩ := h
  have e2 := lasting_congr h
  refine ⟨?_, ?_⟩
  · simp only [finishOk_regs, settleResults_lasting]
    rw [e2]
    simp [Regs.lasting, settleResults]
  · intro _ hne
    simp only [finishOk_regs, settleResults_rbuf]
    rw [e2]
    simp [h2 hne]

/-- The registers of a failed command, from those the raise leaves. -/
theorem ended_raised {i : Instr} {s u : State} {k : ErrKind} (h : ∃ b1 b2,
    u.regs.lasting =
      ({ commandLatches i s.regs with
          phase := .idle, ok := false, err := some k, rbyte := b1, rbuf := b2 }).lasting) :
    s.Ended i (some k) (settle false u) := by
  obtain ⟨b1, b2, h⟩ := h
  have e2 := lasting_congr h
  refine ⟨?_, ?_⟩
  · simp only [settle_regs, settleResults_lasting]
    rw [e2]
    simp [Regs.lasting, settleResults]
  · exact fun h => by cases h

/-! ## Lines at the end -/

/-- R196: after a final STOP. -/
theorem endedWell_of_stop {s u : State} {dev : Descriptor} {ms : List Mark} {ps : List Phase}
    (h : Ran s u (marked dev (ms ++ stopMarks)) ps) (hl : Lines dev s) : (finishOk u).endedWell dev :=
  ⟨h.sclAfter hl stopMarks_endsHigh, h.sdaFloated hl stopMarks_endsFloated, rfl, rfl, rfl⟩

/-- R216: after an acknowledge pulse that raised. -/
theorem aborted_of_ack {s u : State} {dev : Descriptor} {ms : List Mark} {ps : List Phase} {m : Nat} {seen : Bool}
    {k : ErrKind} (h : Ran s u (marked dev (ms ++ ackMarks m seen)) ps) (hl : Lines dev s)
    (hp : u.regs.phase = .idle) (ho : u.regs.ok = false) (he : u.regs.err = some k) :
    (settle false u).aborted dev k :=
  ⟨h.sclAfter hl (ackMarks_endsLow m seen), h.sdaFloated hl (ackMarks_endsFloated m seen), hp, ho, he⟩

/-! ## A data line the engine asserts low -/

/-- R56, R126: every sample reads 0. -/
theorem pollSda_low (n : Nat) (s : State) (hf : s.bus.assertedLow s.regs.desc.sda) :
    ∃ t, pollSda true n s = (false, t) ∧ Ran s t (marked s.regs.desc (pollMarks true n false)) [] ∧
      t.regs = { s.regs with poll := s.regs.poll + n } := by
  induction n generalizing s with
  | zero => exact ⟨s, rfl, by simpa [pollMarks] using ran_regs s s.regs, rfl⟩
  | succ n ih =>
    have hv := sampled_of_assertedLow hf
    have hr := (regIn_ran s.regs.desc.sda s).trans (ran_regs _ (countSample (regIn s.regs.desc.sda s)).regs)
    rw [hv] at hr
    have hs := hr.lineSame (l := s.regs.desc.sda) (by simp)
    obtain ⟨t, h1, h2, h3⟩ := ih (countSample (regIn s.regs.desc.sda s))
      ⟨by simpa using hs.1.trans hf.1, by simpa using hs.2.trans hf.2⟩
    refine ⟨t, by simp [pollSda, hv, h1], ?_, ?_⟩
    · simpa [pollMarks, List.replicate_succ, Mark.access] using hr.trans h2
    · rw [h3]; simp; omega

/-- INIT with the data line asserted low by the engine. -/
theorem busRecovery_low (s : State) (hf : s.bus.assertedLow s.regs.desc.sda) :
    ∃ u, busRecovery s = .raised u ∧ Ran s u (marked s.regs.desc (pollMarks true s.cfg.tInit false)) [.idle] ∧
      u.regs = { s.regs with poll := s.cfg.tInit, ok := false, err := some .busStuckLow, phase := .idle } := by
  have hc := clearPoll_ran s
  obtain ⟨u, k1, k2, k3⟩ := pollSda_low s.cfg.tInit (clearPoll s) (by simpa using hf)
  have h3 := (hc.trans k2).trans (raiseError_ran .busStuckLow u)
  refine ⟨raiseError .busStuckLow u, by simp [busRecovery, pollFrom0, k1], ?_, by simp [k3]⟩
  simpa using h3

/-- R126, R127: INIT whose every sample reads 0, for either reason. -/
theorem busRecovery_stuck (s : State) (ho : s.bus.openDrain)
    (h : s.bus.dirOf s.regs.desc.sda = .float → neverSeen s s.regs.desc.sda true 0 s.cfg.tInit) :
    ∃ u, busRecovery s = .raised u ∧ Ran s u (marked s.regs.desc (pollMarks true s.cfg.tInit false)) [.idle] ∧
      u.regs = { s.regs with poll := s.cfg.tInit, ok := false, err := some .busStuckLow, phase := .idle } := by
  cases hd : s.bus.dirOf s.regs.desc.sda with
  | float => exact busRecovery_never s hd (h hd)
  | drive =>
    refine busRecovery_low s ⟨hd, ?_⟩
    have := ho s.regs.desc.sda
    cases hx : s.bus.outOf s.regs.desc.sda
    · rfl
    · exact absurd ⟨hd, hx⟩ this

/-- A bus check that fails leaves DIR and OUT alone. -/
theorem stuck_lines {s t : State} {dev : Descriptor} {n : Nat} {ps : List Phase}
    (h : Ran s t (marked dev (pollMarks true n false)) ps) : t.bus.dir = s.bus.dir ∧ t.bus.out = s.bus.out := by
  have hg : ∀ a ∈ marked dev (pollMarks true n false), ∃ l v, a = Access.get l v := by
    intro a ha
    simp only [marked, pollMarks, List.mem_map] at ha
    obtain ⟨m, hm, rfl⟩ := ha
    simp at hm
    exact ⟨dev.sda, false, by rw [hm.2]; rfl⟩
  exact ⟨by rw [h.dir, dirAfter_getD_of_only_gets _ hg], by rw [h.out, outAfter_getD_of_only_gets _ hg]⟩

end Sys2Proof.Machine
end

