-- ==== Sys2Proof/Laws/Decode.lean ====
section
/-! SUPPORT. The fields of a command word (spec/30_encoding.md R82) and what `decode` reads from them. -/

namespace Sys2Proof

/-- R82, bit by bit. -/
theorem commandWord_getLsbD (op : CmdOp) (dev : Descriptor) (a : Byte) (i : Nat) :
    (commandWord op dev a).getLsbD i =
      if i < 2 then op.code.getLsbD i
      else if i < 8 then false
      else if i < 16 then (BitVec.ofNat 8 dev.scl).getLsbD (i - 8)
      else if i < 24 then (BitVec.ofNat 8 dev.sda).getLsbD (i - 16)
      else if i < 32 then dev.base.getLsbD (i - 24)
      else if i < 40 then dev.pageOff.getLsbD (i - 32)
      else a.getLsbD (i - 40) := by
  have e : ∀ (b p x y z : BitVec 8) (c : BitVec 2),
      ((b ++ p ++ x ++ y ++ z ++ (0 : BitVec 6) ++ c : BitVec (8 + 8 + 8 + 8 + 8 + 6 + 2))).getLsbD i =
        if i < 2 then c.getLsbD i
        else if i < 8 then false
        else if i < 16 then z.getLsbD (i - 8)
        else if i < 24 then y.getLsbD (i - 16)
        else if i < 32 then x.getLsbD (i - 24)
        else if i < 40 then p.getLsbD (i - 32)
        else b.getLsbD (i - 40) := by
    intro b p x y z c
    simp only [BitVec.getLsbD_append, Nat.sub_sub]
    (repeat' split) <;> first | rfl | omega | simp
  exact e ..

theorem commandWord_field (op : CmdOp) (dev : Descriptor) (a : Byte) (k n : Nat) (x : BitVec n)
    (h : ∀ i < n, (commandWord op dev a).getLsbD (k + i) = x.getLsbD i) :
    (commandWord op dev a).extractLsb' k n = x := by
  refine BitVec.eq_of_getLsbD_eq fun i hi => ?_
  rw [BitVec.getLsbD_extractLsb', h i hi]
  simp [hi]

section
variable (op : CmdOp) (dev : Descriptor) (a : Byte)

@[simp] theorem commandWord_code : (commandWord op dev a).extractLsb' 0 2 = op.code :=
  commandWord_field _ _ _ _ _ _ fun i hi => by
    rw [commandWord_getLsbD, if_pos (by omega), Nat.zero_add]

@[simp] theorem commandWord_reserved : (commandWord op dev a).extractLsb' 2 6 = 0 :=
  commandWord_field _ _ _ _ _ _ fun i hi => by
    rw [commandWord_getLsbD, if_neg (by omega), if_pos (by omega)]; simp

@[simp] theorem commandWord_scl : (commandWord op dev a).extractLsb' 8 8 = BitVec.ofNat 8 dev.scl :=
  commandWord_field _ _ _ _ _ _ fun i hi => by
    rw [commandWord_getLsbD, if_neg (by omega), if_neg (by omega), if_pos (by omega), Nat.add_sub_cancel_left]

@[simp] theorem commandWord_sda : (commandWord op dev a).extractLsb' 16 8 = BitVec.ofNat 8 dev.sda :=
  commandWord_field _ _ _ _ _ _ fun i hi => by
    rw [commandWord_getLsbD, if_neg (by omega), if_neg (by omega), if_neg (by omega), if_pos (by omega),
      Nat.add_sub_cancel_left]

@[simp] theorem commandWord_base : (commandWord op dev a).extractLsb' 24 8 = dev.base :=
  commandWord_field _ _ _ _ _ _ fun i hi => by
    rw [commandWord_getLsbD, if_neg (by omega), if_neg (by omega), if_neg (by omega), if_neg (by omega),
      if_pos (by omega), Nat.add_sub_cancel_left]

@[simp] theorem commandWord_pageOff : (commandWord op dev a).extractLsb' 32 8 = dev.pageOff :=
  commandWord_field _ _ _ _ _ _ fun i hi => by
    rw [commandWord_getLsbD, if_neg (by omega), if_neg (by omega), if_neg (by omega), if_neg (by omega),
      if_neg (by omega), if_pos (by omega), Nat.add_sub_cancel_left]

@[simp] theorem commandWord_byteAddr : (commandWord op dev a).extractLsb' 40 8 = a :=
  commandWord_field _ _ _ _ _ _ fun i hi => by
    rw [commandWord_getLsbD, if_neg (by omega), if_neg (by omega), if_neg (by omega), if_neg (by omega),
      if_neg (by omega), if_neg (by omega), Nat.add_sub_cancel_left]

@[simp] theorem ofCode_code : CmdOp.ofCode op.code = op := by
  cases op <;> rfl

end

theorem wordDescriptor_commandWord (op : CmdOp) (dev : Descriptor) (a : Byte) (h : dev.fits = true) :
    wordDescriptor (commandWord op dev a) = dev := by
  simp only [Descriptor.fits, Bool.and_eq_true, decide_eq_true_eq] at h
  cases dev
  simp only [wordDescriptor, commandWord_scl, commandWord_sda, commandWord_base, commandWord_pageOff,
    BitVec.toNat_ofNat, Descriptor.mk.injEq, and_true]
  exact ⟨Nat.mod_eq_of_lt h.1, Nat.mod_eq_of_lt h.2⟩

/-- The low byte of a command word, all that spec/opcode_table.json looks at. -/
theorem commandWord_low (op : CmdOp) (dev : Descriptor) (a : Byte) :
    commandWord op dev a &&& 255#48 = op.code.setWidth 48 := by
  refine BitVec.eq_of_getLsbD_eq fun i hi => ?_
  have key : (255#48).getLsbD i = decide (i < 8) := by
    revert i
    decide
  rw [BitVec.getLsbD_and, BitVec.getLsbD_setWidth, key, commandWord_getLsbD]
  split
  · simp [hi, show i < 8 by omega]
  · rw [BitVec.getLsbD_of_ge op.code i (by omega)]
    split <;> simp [*]

@[simp] theorem matches_rm (r : TableRow) (sel : BitVec 1) (l : Nat) (f : BitVec 1) :
    r.matches (.rm sel l f) = (Format.rm == r.format && sel.setWidth 48 &&& r.mask == r.value) := rfl
@[simp] theorem matches_uop (r : TableRow) (num : BitVec 4) (ops : UopFields) :
    r.matches (.uop num ops) = (Format.uop == r.format && num.setWidth 48 &&& r.mask == r.value) := rfl
@[simp] theorem matches_cmd (r : TableRow) (w : BitVec 48) (p : Payload) :
    r.matches (.cmd w p) = (Format.cmd == r.format && w &&& r.mask == r.value) := rfl

end Sys2Proof
end

