-- ==== Sys2Proof/Laws/PerInstr.lean ====
section
/-! SUPPORT. A family of statements about every operation as syntax, one lemma per constructor. -/

namespace Sys2Proof.Laws.EncodesOwnRow

/-- The packet of an operation is an instance of the table row that has its mnemonic (R80, R82, R84, R85). -/
def Statement (i : Instr) : Prop :=
  ∃ r ∈ opcodeTable, r.mnemonic = i.mnemonic ∧ r.matches (encode i) = true

theorem ofRow {i : Instr} (r : TableRow) (hr : r ∈ opcodeTable) (hm : r.mnemonic = i.mnemonic)
    (h : r.matches (encode i) = true) : Statement i :=
  ⟨r, hr, hm, h⟩

theorem regset (l : Nat) (f : Direction) : Statement (.regset l f) :=
  ofRow ⟨"REGSET", .rm, 0x1, 0x1⟩ (by decide) rfl (by simp [encode])
theorem regin (l : Nat) : Statement (.regin l) := ofRow ⟨"REGIN", .rm, 0x0, 0x1⟩ (by decide) rfl (by simp [encode])
theorem drive (l : Nat) (v : Level) : Statement (.drive l v) :=
  ofRow ⟨"DRIVE", .uop, 0x0, 0xF⟩ (by decide) rfl (by simp [encode])
theorem start : Statement .start := ofRow ⟨"START", .uop, 0x1, 0xF⟩ (by decide) rfl (by simp [encode])
theorem stop : Statement .stop := ofRow ⟨"STOP", .uop, 0x2, 0xF⟩ (by decide) rfl (by simp [encode])
theorem init : Statement .init := ofRow ⟨"INIT", .uop, 0x3, 0xF⟩ (by decide) rfl (by simp [encode])
theorem shiftOut (b : Byte) : Statement (.shiftOut b) :=
  ofRow ⟨"SHIFT_OUT", .uop, 0x4, 0xF⟩ (by decide) rfl (by simp [encode])
theorem shiftIn : Statement .shiftIn := ofRow ⟨"SHIFT_IN", .uop, 0x5, 0xF⟩ (by decide) rfl (by simp [encode])
theorem waitAck (t : Nat) : Statement (.waitAck t) := ofRow ⟨"WAIT_ACK", .uop, 0x6, 0xF⟩ (by decide) rfl (by simp [encode])
theorem waitNack (t : Nat) : Statement (.waitNack t) :=
  ofRow ⟨"WAIT_NACK", .uop, 0x7, 0xF⟩ (by decide) rfl (by simp [encode])
theorem masterAck : Statement .masterAck := ofRow ⟨"MASTER_ACK", .uop, 0x8, 0xF⟩ (by decide) rfl (by simp [encode])
theorem sendDevAddr (d : Byte) (rw : Bool) : Statement (.sendDevAddr d rw) :=
  ofRow ⟨"SEND_DEV_ADDR", .uop, 0x9, 0xF⟩ (by decide) rfl (by simp [encode])
theorem sendByteAddr (a : Byte) : Statement (.sendByteAddr a) :=
  ofRow ⟨"SEND_BYTE_ADDR", .uop, 0xA, 0xF⟩ (by decide) rfl (by simp [encode])
theorem writeByte (dev : Descriptor) (a d : Byte) : Statement (.writeByte dev a d) :=
  ofRow ⟨"WRITE_BYTE", .cmd, 0x0, 0xFF⟩ (by decide) rfl (by simp [encode, commandWord_low, CmdOp.code])
theorem writePage (dev : Descriptor) (a : Byte) (data : List Byte) (count : Nat) :
    Statement (.writePage dev a data count) :=
  ofRow ⟨"WRITE_PAGE", .cmd, 0x1, 0xFF⟩ (by decide) rfl (by simp [encode, commandWord_low, CmdOp.code])
theorem readByte (dev : Descriptor) (a : Byte) : Statement (.readByte dev a) :=
  ofRow ⟨"READ_BYTE", .cmd, 0x2, 0xFF⟩ (by decide) rfl (by simp [encode, commandWord_low, CmdOp.code])
theorem readPage (dev : Descriptor) (a : Byte) (count : Nat) : Statement (.readPage dev a count) :=
  ofRow ⟨"READ_PAGE", .cmd, 0x3, 0xFF⟩ (by decide) rfl (by simp [encode, commandWord_low, CmdOp.code])

end Sys2Proof.Laws.EncodesOwnRow
end

