-- ==== Sys2Proof/Tests/Vectors.lean ====
section
/-! SUPPORT. What the tests share: the state the vectors of spec/95_test_vectors.md start from, and traces in the compact
notation of spec/00_scope.md R16. -/

namespace Sys2Proof.Tests

open Sys2Proof Sys2Proof.Machine

abbrev c0 : Mark := .c false
abbrev c1 : Mark := .c true
abbrev d0 : Mark := .d false
abbrev d1 : Mark := .d true
abbrev r0 : Mark := .r false
abbrev r1 : Mark := .r true

/-- The descriptor of the vectors: `dev(28, 29, 0xA0, 0)`. -/
def dev : Descriptor := ⟨28, 29, 0xA0, 0⟩

/-- The state the vectors start from: reset, with the descriptor latched for the primitives, and an environment. -/
def vec (script : List (List (Nat × Bool))) : State :=
  { State.reset with regs := { State.reset.regs with desc := dev }, script := script }

/-- The "scripted" environment of section 2: it acts on the data line before the samples of a trace, and each sample
reads the level the trace says. -/
def scripted (ms : List Mark) : List (List (Nat × Bool)) :=
  ms.map fun
    | .r v => [(29, !v)]
    | .c _ => []
    | .d _ => []

/-- The same state with the clock asserted low and the data line as given: "mid-frame". -/
def midFrame (sda : Direction) (script : List (List (Nat × Bool))) : State :=
  { regSet 29 sda (regSet 28 .drive (vec [])) with script := script, history := [] }

/-- `exec` answers a next state of which `p` holds. -/
def next (i : Instr) (s : State) (p : State → Bool) : Bool :=
  match exec i s with
  | .next t => p t
  | .fault _ => false
  | .refused _ => false

/-- `exec` answers a next state whose new accesses are `ms`. -/
def trace (i : Instr) (s : State) (ms : List Mark) : Bool :=
  next i s fun t => t.accesses == marked dev ms

/-- `exec` refuses for the reason `r`. -/
def refusal (i : Instr) (s : State) : Option Refusal :=
  match exec i s with
  | .next _ => none
  | .fault _ => none
  | .refused r => some r

/-- The lines of the vectors: direction and latch of clock and data. -/
def lines (t : State) : Direction × Level × Direction × Level :=
  (t.bus.dirOf 28, t.bus.outOf 28, t.bus.dirOf 29, t.bus.outOf 29)

/-- Both lines floated. -/
abbrev idleLines : Direction × Level × Direction × Level := (.float, true, .float, true)

/-- The abort state: clock asserted low, data floated. -/
abbrev abortLines : Direction × Level × Direction × Level := (.drive, false, .float, true)

/-- INIT on a bus seen free at the first sample, and START. -/
def opening : List Mark := [r1, c0, d0, c1, d1] ++ [d1, c1, d0, c0]

/-- The frame 0xA0, cell by cell, from V30. -/
def frameA0 : List Mark :=
  [d1, c1, c0, d0, c1, c0, d1, c1, c0, d0, c1, c0, d0, c1, c0, d0, c1, c0, d0, c1, c0, d0, c1, c0]

/-- The frame 0xA1, from V31. -/
def frameA1 : List Mark :=
  [d1, c1, c0, d0, c1, c0, d1, c1, c0, d0, c1, c0, d0, c1, c0, d0, c1, c0, d0, c1, c0, d1, c1, c0]

/-- The frame 0x12, from V30. -/
def frame12 : List Mark :=
  [d0, c1, c0, d0, c1, c0, d0, c1, c0, d1, c1, c0, d0, c1, c0, d0, c1, c0, d1, c1, c0, d0, c1, c0]

/-- An acknowledge seen at the first sample. -/
def acked : List Mark := [d1, c1, r0, c0]

/-- PREFIX of V30 and V31, 65 accesses. -/
def prefix12 : List Mark := opening ++ frameA0 ++ acked ++ frame12 ++ acked

/-- V30: `WRITE_BYTE dev(28,29,0xA0,0), 0x12, 0x5A`, 97 accesses. -/
def v30 : List Mark :=
  prefix12 ++
    [d0, c1, c0, d1, c1, c0, d0, c1, c0, d1, c1, c0, d1, c1, c0, d0, c1, c0, d1, c1, c0, d0, c1, c0] ++ acked ++
    [c0, d0, c1, d1]

/-- V31 up to and with SHIFT_IN, 121 accesses; the byte is 0x5A. -/
def v31data : List Mark :=
  prefix12 ++ [d1, c1, d0, c0] ++ frameA1 ++ acked ++
    [c1, r0, c0, c1, r1, c0, c1, r0, c0, c1, r1, c0, c1, r1, c0, c1, r0, c0, c1, r1, c0, c1, r0, c0]

/-- V31: `READ_BYTE dev(28,29,0xA0,0), 0x12`, 131 accesses. -/
def v31 : List Mark := v31data ++ [d1, c1, r1, r1, r1, c0] ++ [c0, d0, c1, d1]

/-- V3, P3: nobody acknowledges the device address, 39 accesses. -/
def v3 : List Mark := opening ++ frameA0 ++ [d1, c1, r1, r1, r1, c0]

end Sys2Proof.Tests
end

