-- ==== Sys2Proof/Tests/EepromF.lean ====
section
/-! SUPPORT. The spec's test fixture EEPROM-F (spec/95_test_vectors.md section 2), an environment and no part of the
engine (log 19), and the program P1 run against it. -/

namespace Sys2Proof.Tests

open Sys2Proof Sys2Proof.Machine

/-- The fixture's modes. -/
inductive EMode where
  | idle
  | dev
  | word
  | data
  | ack
  | rd
  | rdack
deriving DecidableEq, Repr

/-- The fixture's state; `mem` lists the bytes that are not 0xFF, newest first. -/
structure Eeprom where
  mem : List (Byte × Byte) := []
  ptr : Byte := 0
  mode : EMode := .idle
  bc : Nat := 0
  sh : Byte := 0
  nxt : EMode := .idle
  rd : Byte := 0
  mack : Bool := false
  low : Bool := false
deriving DecidableEq, Repr

def Eeprom.read (e : Eeprom) (a : Byte) : Byte :=
  match e.mem.find? fun c => c.1 == a with
  | some c => c.2
  | none => 0xFF

/-- Rule 4, "load". -/
def Eeprom.load (e : Eeprom) : Eeprom :=
  let b := e.read e.ptr
  { e with rd := b, ptr := e.ptr + 1, mode := .rd, bc := 0, low := !b.getLsbD 7 }

/-- Rule 4, the end of a received byte. -/
def Eeprom.byteDone (e : Eeprom) : Eeprom :=
  let e' : Eeprom :=
    match e.mode with
    | .dev =>
      if e.sh.extractLsb' 1 7 = 0b1010000#7 then
        { e with low := true, nxt := if e.sh.getLsbD 0 then .rd else .word, mode := .ack }
      else { e with mode := .idle }
    | .word => { e with ptr := e.sh, low := true, nxt := .data, mode := .ack }
    | _ =>
      { e with
        mem := (e.ptr, e.sh) :: e.mem
        ptr := (e.ptr &&& 0xF0#8) ||| ((e.ptr + 1) &&& 0x0F#8)
        low := true
        nxt := .data
        mode := .ack }
  { e' with bc := 0, sh := 0 }

/-- Rule 4: a falling clock edge. -/
def Eeprom.fell (e : Eeprom) : Eeprom :=
  match e.mode with
  | .idle => e
  | .dev | .word | .data => if e.bc = 8 then e.byteDone else e
  | .ack =>
    let e := { e with low := false }
    if e.nxt = .rd then e.load else { e with mode := e.nxt }
  | .rd =>
    let bc := e.bc + 1
    if bc < 8 then { e with bc := bc, low := !e.rd.getLsbD (7 - bc) }
    else { e with bc := bc, low := false, mode := .rdack, mack := false }
  | .rdack => if e.mack then e.load else { e with mode := .idle, low := false }

/-- Rule 3: a rising clock edge. -/
def Eeprom.rose (sda : Level) (e : Eeprom) : Eeprom :=
  match e.mode with
  | .dev | .word | .data =>
    if e.bc < 8 then { e with sh := (e.sh <<< 1) ||| (BitVec.ofBool sda).setWidth 8, bc := e.bc + 1 } else e
  | .rdack => { e with mack := !sda }
  | .idle | .ack | .rd => e

/-- Rules 1 to 4: the reaction to a change of the pads. -/
def Eeprom.react (scl sda scl' sda' : Level) (e : Eeprom) : Eeprom :=
  match scl, scl' with
  | true, true =>
    if sda && !sda' then { e with mode := .dev, bc := 0, sh := 0, low := false }
    else if !sda && sda' then { e with mode := .idle, low := false }
    else e
  | false, true => e.rose sda'
  | true, false => e.fell
  | false, false => e

/-- What the fixture does to EXT_LOW of the data line while the engine performs the accesses `ms`: its contribution
before each access, its reaction after. -/
def Eeprom.follow : List Mark → Bus → Eeprom → List (List (Nat × Bool)) × Eeprom
  | [], _, e => ([], e)
  | m :: ms, b, e =>
    let b := Event.apply (.env [(29, e.low)]) b
    let b' := Event.apply (.acc (m.access dev)) b
    let r := Eeprom.follow ms b' (e.react (b.pad 28) (b.pad 29) (b'.pad 28) (b'.pad 29))
    ([(29, e.low)] :: r.1, r.2)

/-- The engine, with the fixture `e` on the bus, performs exactly the accesses `ms`, every level read included, of which
`p` holds of the state after and `q` of the fixture after. -/
def against (i : Instr) (s : State) (ms : List Mark) (e : Eeprom) (p : State → Bool) (q : Eeprom → Bool) : Bool :=
  let f := Eeprom.follow ms s.bus e
  next i { s with script := f.1 } fun t => t.accesses == marked dev ms && p t && q f.2

/-- P1, command 1 (V30): `mem[0x12] = 0x5A`, `ptr = 0x13`, the fixture idle; symbols `STOP, START, STOP`. -/
theorem test_p1_writeByte :
    against (.writeByte dev 0x12 0x5A) (vec []) v30 {} (fun t => t.regs.ok && lines t == idleLines &&
        framing (symbolsFrom 28 29 (vec []).bus t.history.reverse) == [.float, .drive, .float])
      (fun e => e.read 0x12 == 0x5A && e.ptr == 0x13 && e.mode == .idle && e.read 0x13 == 0xFF) = true := by
  decide +kernel

/-- P1, command 2 (V31): the byte comes back; symbols `STOP, START, START, STOP` (V5). -/
theorem test_p1_readByte :
    against (.readByte dev 0x12) (vec []) v31 { mem := [(0x12, 0x5A)] }
      (fun t => t.regs.ok && t.regs.rbyte == 0x5A && lines t == idleLines &&
        framing (symbolsFrom 28 29 (vec []).bus t.history.reverse) == [.float, .drive, .drive, .float])
      (fun e => e.ptr == 0x13 && e.mode == .idle) = true := by
  decide +kernel

end Sys2Proof.Tests
end

