-- ==== Sys2Proof/Tests/Slice0.lean ====
section
/-! SUPPORT. The model's own tests and the witnesses of the statements. Every expected result is from spec/: the vectors
of 95_test_vectors.md, the tables of 30_encoding.md. -/

namespace Sys2Proof.Tests

open Sys2Proof Sys2Proof.Machine

/-! ## WellFormed: an ill-formed term for each check of R87 -/

theorem test_wf_regset_line : (Instr.regset 32 .drive).wf 32 = false := by decide
theorem test_wf_regin_line : (Instr.regin 32).wf 32 = false := by decide
theorem test_wf_drive_line : (Instr.drive 32 false).wf 32 = false := by decide
theorem test_wf_command_scl : (Instr.writeByte ⟨32, 29, 0xA0, 0⟩ 0 0).wf 32 = false := by decide
theorem test_wf_command_sda : (Instr.readByte ⟨28, 32, 0xA0, 0⟩ 0).wf 32 = false := by decide
theorem test_wf_command_same_line : (Instr.readByte ⟨28, 28, 0xA0, 0⟩ 0).wf 32 = false := by decide
theorem test_wf_page_same_line : (Instr.writePage ⟨28, 28, 0xA0, 0⟩ 0 [1] 1).wf 32 = false := by decide
theorem test_wf_writePage_count : (Instr.writePage dev 0 [1, 2] 3).wf 32 = false := by decide
theorem test_wf_readPage_count : (Instr.readPage dev 0 0).wf 32 = false := by decide
theorem test_wf_boundaries :
    (Instr.regset 31 .drive).wf 32 && (Instr.writePage dev 0 [] 0).wf 32 && (Instr.writePage dev 0 [1, 2] 2).wf 32 &&
      (Instr.readPage dev 0 1).wf 32 && (Instr.readByte ⟨0, 31, 0, 0⟩ 0).wf 32 = true := by decide
theorem test_encodable : (Instr.readByte ⟨255, 256, 0, 0⟩ 0).encodable = false := by decide

/-! ## Decoding: a packet written out from the spec for each constructor -/

/-- R85: `rm` 1 is REGSET, `f` 1 is DRIVE. -/
theorem test_decode_regset : decode (.rm 1 29 1) = .ok (.regset 29 .drive) := by decide
theorem test_decode_regset_float : decode (.rm 1 29 0) = .ok (.regset 29 .float) := by decide
theorem test_decode_regin : decode (.rm 0 29 0) = .ok (.regin 29) := by decide
/-- R84: the numbers 0 to 10. -/
theorem test_decode_drive : decode (.uop 0 { l := 28, v := 1 }) = .ok (.drive 28 true) := by decide
theorem test_decode_start : decode (.uop 1 {}) = .ok .start := by decide
theorem test_decode_stop : decode (.uop 2 {}) = .ok .stop := by decide
theorem test_decode_init : decode (.uop 3 {}) = .ok .init := by decide
theorem test_decode_shiftOut : decode (.uop 4 { b := 0xA5 }) = .ok (.shiftOut 0xA5) := by decide
theorem test_decode_shiftIn : decode (.uop 5 {}) = .ok .shiftIn := by decide
theorem test_decode_waitAck : decode (.uop 6 { t := 3 }) = .ok (.waitAck 3) := by decide
theorem test_decode_waitNack : decode (.uop 7 { t := 3 }) = .ok (.waitNack 3) := by decide
theorem test_decode_masterAck : decode (.uop 8 {}) = .ok .masterAck := by decide
theorem test_decode_sendDevAddr : decode (.uop 9 { d := 0xA0, rw := 1 }) = .ok (.sendDevAddr 0xA0 true) := by decide
theorem test_decode_sendByteAddr : decode (.uop 10 { a := 0x12 }) = .ok (.sendByteAddr 0x12) := by decide
/-- P1, command 1. -/
theorem test_decode_writeByte :
    decode (.cmd 0x1200A01D1C00 { wdata := [0x5A] }) = .ok (.writeByte dev 0x12 0x5A) := by decide
/-- P6, command 1, its first bytes. -/
theorem test_decode_writePage :
    decode (.cmd 0x0E00A01D1C01 { wdata := [0x10, 0x11], count := 2 }) =
      .ok (.writePage dev 0x0E [0x10, 0x11] 2) := by decide
/-- P7, command 2: a page offset. -/
theorem test_decode_readByte :
    decode (.cmd 0x0002A01D1C02 {}) = .ok (.readByte ⟨28, 29, 0xA0, 2⟩ 0x00) := by decide
/-- P4, command 1. -/
theorem test_decode_readPage : decode (.cmd 0x0000A01D1C03 { count := 4 }) = .ok (.readPage dev 0x00 4) := by decide
/-- V39: reserved bit 2 set. -/
theorem test_decode_reserved : decode (.cmd 0x1200A01D1C04 {}) = .error (.reservedBits 1) := by decide
/-- R84: 11 to 15 are unused. -/
theorem test_decode_unused : decode (.uop 11 {}) = .error (.unusedUop 11) := by decide
theorem test_decode_payload :
    decode (.cmd 0x1200A01D1C00 { wdata := [1, 2] }) = .error (.payloadNotOneByte 2) := by decide
/-- The other way: P1's word. -/
theorem test_encode_word : commandWord .readByte dev 0x12 = 0x1200A01D1C02 := by decide
/-- spec/opcode_table.json: no word belongs to two rows. -/
theorem test_rows_disjoint : opcodeTable.Pairwise fun r q => r.overlaps q = false := by decide
theorem test_table_word : decodeTableWord 8 5 = some .shiftIn ∧ decodeTableWord 1 1 = some (.regset 0 .float) := by
  decide
/-- R99: the textual form of P1's first command. -/
theorem test_text : (Instr.writeByte dev 18 90).text = "WRITE_BYTE dev(28, 29, 160, 0), 18, 90" := by decide +kernel

/-! ## Accesses and DRIVE -/

/-- V10, third row: from a latch at 0. -/
theorem test_regset : next (.regset 29 .drive) (vec []) (fun t => t.bus.dirOf 29 == .drive && !t.bus.outOf 29 &&
    t.bus.dirOf 28 == .float && t.accesses == [.set 29 .drive]) = true := by decide
/-- V10: a floated line pulled low reads 0. -/
theorem test_regin : next (.regin 29) (vec [[(29, true)]]) (fun t => t.accesses == [.get 29 false]) = true := by
  decide
/-- V10: an asserted line reads 0 whatever the environment does. -/
theorem test_regin_asserted : next (.regin 29) (midFrame .drive []) (fun t => t.accesses == [.get 29 false]) = true := by
  decide
/-- V11: a floated line held low stays low. -/
theorem test_drive_high : next (.drive 29 true) (midFrame .drive [[(29, true)]])
    (fun t => t.bus.dirOf 29 == .float && t.bus.outOf 29 && !t.bus.pad 29) = true := by decide
/-- V12. -/
theorem test_drive_refused : refusal (.drive 32 false) (vec []) = some .lineOutOfRange := by decide

/-! ## Bus signals -/

/-- V13. -/
theorem test_start : next .start (vec []) (fun t => t.accesses == marked dev [d1, c1, d0, c0] &&
    lines t == (.drive, false, .drive, false) && framing (symbolsFrom 28 29 (vec []).bus t.history.reverse) == [.drive]) =
    true := by decide
/-- V14: a repeated START from data asserted low makes no STOP. -/
theorem test_start_repeated : next .start (midFrame .drive []) (fun t =>
    framing (symbolsFrom 28 29 (midFrame .drive []).bus t.history.reverse) == [.drive]) = true := by decide
/-- V15, from idle lines. -/
theorem test_stop : next .stop (vec []) (fun t => t.accesses == marked dev [c0, d0, c1, d1] &&
    lines t == idleLines && framing (symbolsFrom 28 29 (vec []).bus t.history.reverse) == [.float]) = true := by decide
/-- V15, last sentence: the data line held low during the last access. -/
theorem test_stop_held : next .stop (midFrame .float [[], [], [], [(29, true)]]) (fun t =>
    framing (symbolsFrom 28 29 (midFrame .float []).bus t.history.reverse) == []) = true := by decide
/-- V17. -/
theorem test_init_late : next .init (vec (scripted [r0, r0, r1])) (fun t =>
    t.accesses == marked dev [r0, r0, r1, c0, d0, c1, d1] && lines t == idleLines) = true := by decide
/-- V18. -/
theorem test_init_stuck : next .init (vec (scripted [r0, r0, r0])) (fun t =>
    t.accesses == marked dev [r0, r0, r0] && t.regs.err == some .busStuckLow && !t.regs.ok) = true := by decide

/-! ## Transfer -/

/-- V19. -/
theorem test_shiftOut : next (.shiftOut 0xA5) (midFrame .float []) (fun t => lines t == abortLines &&
    t.accesses == marked dev [d1, c1, c0, d0, c1, c0, d1, c1, c0, d0, c1, c0, d0, c1, c0, d1, c1, c0, d0, c1, c0,
      d1, c1, c0]) = true := by decide
/-- V20. -/
theorem test_shiftIn :
    let ms := [c1, r0, c0, c1, r1, c0, c1, r0, c0, c1, r1, c0, c1, r1, c0, c1, r0, c0, c1, r1, c0, c1, r0, c0]
    next .shiftIn (midFrame .float (scripted ms)) (fun t => t.accesses == marked dev ms && t.regs.sr == 0x5A &&
      lines t == abortLines) = true := by decide
/-- V21. -/
theorem test_shiftIn_refused : refusal .shiftIn (midFrame .drive []) = some .dataLineNotFloated := by decide

/-! ## Acknowledge -/

/-- V22: ACK at the third sample. -/
theorem test_waitAck : next (.waitAck 3) (midFrame .drive (scripted [d1, c1, r1, r1, r0, c0])) (fun t =>
    t.accesses == marked dev [d1, c1, r1, r1, r0, c0] && t.regs.err == none && lines t == abortLines) = true := by
  decide
/-- V22: `T = 0`. -/
theorem test_waitAck_zero : next (.waitAck 0) (midFrame .float []) (fun t =>
    t.accesses == marked dev [d1, c1, c0] && t.regs.err == some .noAck && lines t == abortLines) = true := by decide
/-- V24: the line stays high. -/
theorem test_waitNack : next (.waitNack 3) (midFrame .float []) (fun t =>
    t.accesses == marked dev [d1, c1, r1, r1, r1, c0] && t.regs.err == none && lines t == abortLines) = true := by
  decide
/-- V24: low at the third sample. -/
theorem test_waitNack_low : next (.waitNack 3) (midFrame .float (scripted [d1, c1, r1, r1, r0])) (fun t =>
    t.accesses == marked dev [d1, c1, r1, r1, r0, c0] && t.regs.err == some .unexpectedAck) = true := by decide
/-- V25. -/
theorem test_masterAck : next .masterAck (midFrame .float []) (fun t =>
    t.accesses == marked dev [d0, c1, c0, d1] && lines t == abortLines) = true := by decide

/-! ## Addressing -/

/-- V26: `0xA7`, write, sends `0xA6`. -/
theorem test_sendDevAddr : next (.sendDevAddr 0xA7 false) (midFrame .drive []) (fun t => t.accesses == marked dev
    [d1, c1, c0, d0, c1, c0, d1, c1, c0, d0, c1, c0, d0, c1, c0, d1, c1, c0, d1, c1, c0, d0, c1, c0]) = true := by
  decide
/-- V26: `0x00`, read, sends `0x01`. -/
theorem test_sendDevAddr_read : next (.sendDevAddr 0x00 true) (midFrame .drive []) (fun t => t.accesses == marked dev
    [d0, c1, c0, d0, c1, c0, d0, c1, c0, d0, c1, c0, d0, c1, c0, d0, c1, c0, d0, c1, c0, d1, c1, c0]) = true := by
  decide
/-- V27. -/
theorem test_sendByteAddr : trace (.sendByteAddr 0x12) (midFrame .float (scripted (frame12 ++ acked)))
    (frame12 ++ acked) = true := by decide
theorem test_sendByteAddr_noAck : next (.sendByteAddr 0x12) (midFrame .float []) (fun t =>
    t.accesses == marked dev (frame12 ++ [d1, c1, r1, r1, r1, c0]) && t.regs.err == some .noAck) = true := by decide
/-- V28: `0xFE + 0x04` wraps. -/
theorem test_deviceByte : deviceByte ⟨28, 29, 0xFE, 4⟩ = 0x02 ∧ deviceByte ⟨28, 29, 0xA1, 1⟩ = 0xA2 := by decide

/-! ## Commands -/

/-- V3: no device. -/
theorem test_writeByte_noDevice : next (.writeByte dev 0x12 0x5A) (vec []) (fun t => t.accesses == marked dev v3 &&
    t.regs.err == some .noAck && t.phases == [.busCheck, .started, .idle] && lines t == abortLines) = true := by
  decide
/-- V33: `count = 0`; from V30's environment, whose third acknowledge is not reached. -/
theorem test_writePage_zero : next (.writePage dev 0x12 [] 0) (vec (scripted prefix12)) (fun t =>
    t.accesses == marked dev (prefix12 ++ [c0, d0, c1, d1]) && t.regs.ok && lines t == idleLines) = true := by decide
/-- V34: only the first `count` bytes; 125 accesses. -/
theorem test_writePage_two :
    let data : List Mark :=
      [d0, c1, c0, d0, c1, c0, d0, c1, c0, d1, c1, c0, d0, c1, c0, d0, c1, c0, d0, c1, c0, d1, c1, c0] ++ acked ++
      [d0, c1, c0, d0, c1, c0, d1, c1, c0, d0, c1, c0, d0, c1, c0, d0, c1, c0, d1, c1, c0, d0, c1, c0] ++ acked
    let ms := prefix12 ++ data ++ [c0, d0, c1, d1]
    ms.length = 125 ∧
      trace (.writePage dev 0x12 [0x11, 0x22, 0x33] 2) (vec (scripted ms)) ms = true := by decide +kernel
/-- P5: low at the second WAIT_NACK sample, 126 accesses. -/
theorem test_readByte_unexpectedAck :
    let ms := v31data ++ [d1, c1, r1, r0, c0]
    next (.readByte dev 0x12) (vec (scripted ms)) (fun t => t.accesses == marked dev ms && t.accesses.length == 126 &&
      t.regs.err == some .unexpectedAck && lines t == abortLines) = true := by decide +kernel
/-- V35: the tail of a page of one, 132 accesses. -/
theorem test_readPage_one :
    let ms := v31data ++ [d1] ++ [d1, c1, r1, r1, r1, c0] ++ [c0, d0, c1, d1]
    next (.readPage dev 0x12 1) (vec (scripted ms)) (fun t => t.accesses == marked dev ms &&
      t.accesses.length == 132 && t.regs.rbuf == [0x5A] && t.regs.ok) = true := by decide +kernel
/-- V32's shape: a master ACK between bytes, here two bytes, 160 accesses. -/
theorem test_readPage_two :
    let ms := v31data ++ [d0, c1, c0, d1] ++
      [c1, r1, c0, c1, r1, c0, c1, r0, c0, c1, r1, c0, c1, r0, c0, c1, r0, c0, c1, r0, c0, c1, r1, c0] ++
      [d1] ++ [d1, c1, r1, r1, r1, c0] ++ [c0, d0, c1, d1]
    ms.length = 160 ∧ next (.readPage dev 0x12 2) (vec (scripted ms)) (fun t => t.accesses == marked dev ms &&
      t.regs.rbuf == [0x5A, 0xD1] && lines t == idleLines) = true := by decide +kernel
/-- V39, P3: busy, one line for both, out of range, operand counts. -/
theorem test_refusals :
    refusal (.readByte dev 0) (setPhase .busCheck (vec [])) = some .busy ∧
    refusal (.readByte ⟨28, 28, 0xA0, 0⟩ 0) (vec []) = some .sameLine ∧
    refusal (.readByte ⟨28, 32, 0xA0, 0⟩ 0) (vec []) = some .lineOutOfRange ∧
    refusal (.writePage dev 0 [1, 2] 3) (vec []) = some .countExceedsData ∧
    refusal (.readPage dev 0 0) (vec []) = some .countZero := by decide

/-! ## A step -/

/-- The first request runs and the next one waits. -/
theorem test_step :
    (match step { vec [[(29, true)]] with
        requests := [.packet 0x1200A01D1C02 {}, .record (.readPage dev 0x12 1)] } with
      | .next t => t.accesses == marked dev [r0, r0, r0] && t.requests == [.record (.readPage dev 0x12 1)]
      | .fault _ => false
      | .refused _ => false) = true := by decide
/-- An exposed primitive runs before the caller's request, which stays. -/
theorem test_step_exposed :
    (match step { vec [] with
        exposed := [.start, .stop], opened := true, requests := [.packet 0x1200A01D1C02 {}] } with
      | .next t => t.accesses == marked dev [d1, c1, d0, c0] && t.exposed == [.stop] && t.requests.length == 1
      | .fault _ => false
      | .refused _ => false) = true := by decide
/-- R257: with no INIT before, the step performs INIT and the exposed START waits. -/
theorem test_step_init_first :
    (match step { vec [] with exposed := [.start] } with
      | .next t => t.accesses == marked dev [r1, c0, d0, c1, d1] && t.exposed == [.start] && t.opened
      | .fault _ => false
      | .refused _ => false) = true := by decide
/-- The host's placement of a table word, from reset: START, `uop` 1, and READ_BYTE, whose poll of a line held low takes
`T_INIT` samples. -/
theorem test_withFetchWord :
    (match step (State.reset.withFetchWord 8 1) with
      | .next t => t.accesses.length == 4
      | .fault _ => false
      | .refused _ => false) = true ∧
    (match step (State.withFetchWord (vec [[(29, true)]]) 48 0x1200A01D1C02) with
      | .next t => t.accesses.length == 3
      | .fault _ => false
      | .refused _ => false) = true := by decide

end Sys2Proof.Tests
end

