-- ==== Sys2Proof/Tests/Witnesses.lean ====
section
/-! SUPPORT. For every statement with hypotheses, a state and operands that meet all of them together, each clause at a
boundary of its range. The states are those of the vectors. -/

namespace Sys2Proof.Tests

open Sys2Proof Sys2Proof.Machine

/-! ## States that meet the invariant -/

theorem openDrain_of_lines {b : Bus} (h : ∀ l < b.dir.length, ¬ (b.dirOf l = .drive ∧ b.outOf l = true)) :
    b.openDrain := by
  intro l
  by_cases hb : l < b.dir.length
  · exact h l hb
  · intro hc
    have : b.dirOf l = .float := by
      rw [Bus.dirOf, List.getD_eq_getElem?_getD, List.getElem?_eq_none (by omega)]; rfl
    rw [this] at hc
    exact absurd hc.1 (by decide)

/-- The environment's script is no part of the invariant. -/
theorem inv_of_script {s : State} (h : s.Inv) (script : List (List (Nat × Bool))) :
    { s with script := script }.Inv :=
  ⟨h.lines, h.sized, h.openDrain, h.latch, h.outcome, h.idle⟩

/-- Nor are the exposed operations. -/
theorem inv_of_exposed {s : State} (h : s.Inv) (is : List Instr) : { s with exposed := is }.Inv :=
  ⟨h.lines, h.sized, h.openDrain, h.latch, h.outcome, h.idle⟩

theorem vec_inv (script : List (List (Nat × Bool))) : (vec script).Inv :=
  inv_of_script (s := vec [])
    ⟨by decide, ⟨rfl, rfl, rfl⟩, openDrain_of_lines (by decide), by decide, by decide, rfl⟩ script

theorem midFrame_inv (sda : Direction) (script : List (List (Nat × Bool))) : (midFrame sda script).Inv := by
  refine inv_of_script (s := midFrame sda []) ?_ script
  cases sda <;> exact ⟨by decide, ⟨rfl, rfl, rfl⟩, openDrain_of_lines (by decide), by decide, by decide, rfl⟩

theorem endCommand_next (r : Res) : ∃ t, endCommand r = .next t := by
  cases r <;> exact ⟨_, rfl⟩

/-- Every command of the vectors, in every environment, is accepted. -/
theorem command_next (i : Instr) (script : List (List (Nat × Bool)))
    (h : i = .writeByte dev 0x12 0x5A ∨ i = .writePage dev 0x12 [1, 2] 2 ∨ i = .readByte dev 0x12 ∨
      i = .readPage dev 0x12 1) : ∃ t, exec i (vec script) = .next t := by
  have hw : dev.wf 32 = true := by decide
  rcases h with rfl | rfl | rfl | rfl
  · rw [execWriteByte_eq _ _ rfl hw]; exact endCommand_next _
  · rw [execWritePage_eq _ rfl hw (by decide)]; exact endCommand_next _
  · rw [execReadByte_eq _ rfl hw]; exact endCommand_next _
  · rw [execReadPage_eq _ rfl hw (by decide)]; exact endCommand_next _

/-! ## Reset, step, decoding -/

theorem witness_ResetFloatsEveryLine : 31 < State.reset.cfg.nlines ∧ State.reset.bus.pulled 31 = false := by decide

/-- A step whose request encodes an operation that completes. -/
theorem step_of_request {s t : State} {r : Request} {rest : List Request} {i : Instr} (h0 : s.exposed = [])
    (h1 : s.requests = r :: rest) (h2 : readRequest r = .ok i) (h3 : exec i { s with requests := rest } = .next t) :
    step s = .next (t.afterOperation i) := by
  simp only [step, nextOperation_request h0 h1, h2, h3]

theorem witness_StepKeepsInvariant :
    ∃ s t : State, s.Inv ∧ step s = .next t ∧ s.requests = [.record (.writeByte dev 0x12 0x5A)] := by
  obtain ⟨t, ht⟩ := command_next (.writeByte dev 0x12 0x5A) [] (.inl rfl)
  refine ⟨{ vec [] with requests := [.record (.writeByte dev 0x12 0x5A)] }, _, ?_,
    step_of_request (rest := []) rfl rfl rfl ht, rfl⟩
  obtain ⟨h1, h2, h3, h4, h5, h6⟩ := vec_inv []
  exact ⟨h1, h2, h3, h4, h5, h6⟩

theorem witness_OpenDrainBetweenAccesses :
    (∃ t, (midFrame .drive []).Inv ∧ exec .stop (midFrame .drive []) = .next t) ∧
    ∃ t, (vec []).Inv ∧ exec (.readPage dev 0x12 1) (vec []) = .next t := by
  refine ⟨⟨_, midFrame_inv _ _, rfl⟩, ?_⟩
  obtain ⟨t, ht⟩ := command_next (.readPage dev 0x12 1) [] (by simp)
  exact ⟨t, vec_inv _, ht⟩

theorem witness_StepRunsDecodedOperation :
    (∃ s : State, s.exposed = [] ∧ s.requests = [.packet 0x1200A01D1C02 {}] ∧
      readRequest (.packet 0x1200A01D1C02 {}) = .ok (.readByte dev 0x12)) ∧
    (∃ s : State, s.exposed = [] ∧ s.requests = [.packet 0x04 {}] ∧
      readRequest (.packet 0x04 {}) = .error (.reservedBits 1)) ∧
    (∃ s : State, s.exposed = [] ∧ s.requests = []) ∧ 
    (∃ s : State, s.exposed = [.sendByteAddr 0x12] ∧ s.opened = true) ∧
    ∃ s : State, s.exposed = [.init] ∧ beginsWithInit .init = true :=
  ⟨⟨{ vec [] with requests := _ }, rfl, rfl, by decide⟩, ⟨{ vec [] with requests := _ }, rfl, rfl, by decide⟩,
    ⟨vec [], rfl, rfl⟩, ⟨{ vec [] with exposed := _, opened := true }, rfl, rfl⟩,
    { vec [] with exposed := _ }, rfl, rfl⟩

theorem witness_DecodeEncode :
    (Instr.readPage ⟨255, 0, 0xFF, 0xFF⟩ 0xFF 256).encodable = true ∧ (Instr.regset 300 .float).encodable = true := by
  decide

theorem witness_EncodeDecode :
    decode (.cmd 0xFFFFFFFFFF03 { count := 1 }) = .ok (.readPage ⟨255, 255, 0xFF, 0xFF⟩ 0xFF 1) ∧
    decode (.uop 10 { a := 0xFF }) = .ok (.sendByteAddr 0xFF) ∧ decode (.rm 0 0 0) = .ok (.regin 0) := by
  decide

theorem witness_DecodeFollowsTable :
    decode (.uop 10 {}) = .ok (.sendByteAddr 0) ∧ (∀ r ∈ opcodeTable, r.matches (.uop 11 {}) = false) ∧
    ∀ r ∈ opcodeTable, r.matches (.cmd 0x80 {}) = false := by
  decide

theorem witness_IllegalPacketsRefused :
    (∃ s : State, s.exposed = [] ∧ s.requests = [.packet 0x04 {}]) ∧ (0x04 : BitVec 48).extractLsb' 2 6 ≠ 0 ∧
    (0x80 : BitVec 48).extractLsb' 2 6 ≠ 0 ∧ 11 ≤ (11 : BitVec 4).toNat ∧ 11 ≤ (15 : BitVec 4).toNat :=
  ⟨⟨{ vec [] with requests := _ }, rfl, rfl⟩, by decide, by decide, by decide, by decide⟩

/-! ## Accesses -/

theorem witness_RegsetEffect :
    (vec []).Inv ∧ 0 < (vec []).cfg.nlines ∧ 31 < (vec []).cfg.nlines ∧ (vec []).cfg.nlines ≤ 32 :=
  ⟨vec_inv _, by decide, by decide, by decide⟩

theorem witness_ReginEffect :
    (midFrame .drive []).Inv ∧ 31 < (midFrame .drive []).cfg.nlines ∧ (midFrame .drive []).cfg.nlines ≤ 32 :=
  ⟨midFrame_inv _ _, by decide, by decide⟩

/-- No environment, and one that acts before the first sample and assigns again, changing nothing, before the second. -/
theorem witness_RepeatedReginAgrees :
    31 < (vec []).cfg.nlines ∧ (∀ l', (vec []).lowAt 1 l' = (vec []).lowAt 0 l') ∧
    ∀ l', (vec [[(29, true)], [(29, true)]]).lowAt 1 l' = (vec [[(29, true)], [(29, true)]]).lowAt 0 l' :=
  ⟨by decide, fun _ => rfl, fun _ => rfl⟩

/-- Each line of R53 in a register model of one line. -/
theorem witness_PadFunction :
    let b (f : Direction) (v low : Bool) : Bus := { dir := [f], out := [v], extLow := [low], epoch := 0 }
    ((b .drive false true).dirOf 0 = .drive ∧ (b .drive false true).outOf 0 = false) ∧
    ((b .float false true).dirOf 0 = .float ∧ (b .float false true).pulled 0 = true) ∧
    ((b .float true false).dirOf 0 = .float ∧ (b .float true false).pulled 0 = false) ∧
    ((b .drive true false).dirOf 0 = .drive ∧ (b .drive true false).outOf 0 = true ∧
      (b .drive true false).pulled 0 = false) := by
  decide

theorem witness_DriveEffect :
    (midFrame .float []).Inv ∧ 31 < (midFrame .float []).cfg.nlines ∧ (midFrame .float []).bus.floated 29 ∧
    (midFrame .float []).bus.assertedLow 28 ∧ (midFrame .float []).cfg.nlines ≤ 32 :=
  ⟨midFrame_inv _ _, by decide, ⟨rfl, rfl⟩, ⟨rfl, rfl⟩, by decide⟩

/-! ## Primitives -/

theorem witness_StartEffect : (vec []).Inv ∧ (midFrame .drive []).Inv := ⟨vec_inv _, midFrame_inv _ _⟩

theorem witness_StopEffect : (vec []).Inv ∧ (midFrame .drive []).Inv := ⟨vec_inv _, midFrame_inv _ _⟩

/-- From idle lines, and as a repeated START with the data line asserted low. -/
theorem witness_StartSymbol :
    ((vec []).Inv ∧ (vec []).bus.dirOf 29 = .float) ∧ (midFrame .drive []).Inv ∧
      (midFrame .drive []).bus.dirOf 28 = .drive :=
  ⟨⟨vec_inv _, rfl⟩, midFrame_inv _ _, rfl⟩

theorem witness_StopSymbol : (vec []).Inv ∧ (midFrame .float [[], [], [], [(29, true)]]).Inv :=
  ⟨vec_inv _, midFrame_inv _ _⟩

/-- Seen at the first sample, at the last one of the bound; never seen; not looked at, the engine asserting the line. -/
theorem witness_InitEffect :
    ((vec []).Inv ∧ (vec []).bus.dirOf 29 = .float ∧ seenInTime (vec []) 29 true 0 3 0) ∧
    ((vec (scripted [r0, r0, r1])).Inv ∧ seenInTime (vec (scripted [r0, r0, r1])) 29 true 0 3 2) ∧
    ((vec [[(29, true)]]).Inv ∧ neverSeen (vec [[(29, true)]]) 29 true 0 3) ∧
    ((midFrame .drive []).Inv ∧ (midFrame .drive []).bus.dirOf 29 = .drive) :=
  ⟨⟨vec_inv _, rfl, by decide⟩, ⟨vec_inv _, by decide⟩, ⟨vec_inv _, by decide⟩, midFrame_inv _ _, rfl⟩

theorem witness_ShiftOutEffect :
    (midFrame .float []).Inv ∧ (0x01 : Byte).getLsbD 0 = true ∧ (0xFE : Byte).getLsbD 0 = false :=
  ⟨midFrame_inv _ _, by decide, by decide⟩

theorem witness_ShiftInEffect : (midFrame .float []).Inv ∧ (midFrame .float []).bus.dirOf 29 = .float :=
  ⟨midFrame_inv _ _, rfl⟩

theorem witness_ShiftInRefused : (midFrame .drive []).bus.dirOf (midFrame .drive []).regs.desc.sda = .drive := by decide

/-- Seen at the first and at the last sample of the bound; never seen; bound 0. -/
theorem witness_WaitAckEffect :
    ((midFrame .drive [[(29, true)]]).Inv ∧ seenInTime (midFrame .drive [[(29, true)]]) 29 false 2 1 0) ∧
    ((midFrame .float (scripted [d1, c1, r1, r1, r0])).Inv ∧
      seenInTime (midFrame .float (scripted [d1, c1, r1, r1, r0])) 29 false 2 3 2) ∧
    ((midFrame .float []).Inv ∧ neverSeen (midFrame .float []) 29 false 2 3 ∧
      neverSeen (midFrame .float []) 29 false 2 0) :=
  ⟨⟨midFrame_inv _ _, by decide⟩, ⟨midFrame_inv _ _, by decide⟩, midFrame_inv _ _, by decide, by decide⟩

theorem witness_WaitNackEffect :
    ((midFrame .float []).Inv ∧ neverSeen (midFrame .float []) 29 false 2 3 ∧
      neverSeen (midFrame .float []) 29 false 2 0) ∧
    (midFrame .float (scripted [d1, c1, r1, r0])).Inv ∧
      seenInTime (midFrame .float (scripted [d1, c1, r1, r0])) 29 false 2 2 1 :=
  ⟨⟨midFrame_inv _ _, by decide, by decide⟩, midFrame_inv _ _, by decide⟩

theorem witness_MasterAckEffect : (midFrame .float []).Inv := midFrame_inv _ _

theorem witness_SendDevAddrEffect : (midFrame .drive []).Inv := midFrame_inv _ _

theorem witness_SendByteAddrEffect :
    ((midFrame .drive (scripted (frame12 ++ acked))).Inv ∧
      seenInTime (midFrame .drive (scripted (frame12 ++ acked))) 29 false 26 3 0) ∧
    (midFrame .drive []).Inv ∧ neverSeen (midFrame .drive []) 29 false 26 3 :=
  ⟨⟨midFrame_inv _ _, by decide⟩, midFrame_inv _ _, by decide⟩

/-! ## Acceptance -/

theorem witness_CompletesExactlyWhenAccepted :
    accepted (.writePage dev 0x12 [1, 2] 2) (vec []) ∧ ¬ accepted (.writePage dev 0x12 [1, 2] 3) (vec []) ∧
    accepted .shiftIn (midFrame .float []) ∧ ¬ accepted .shiftIn (midFrame .drive []) := by
  refine ⟨⟨by decide, rfl⟩, fun h => absurd h.1 (by decide), ⟨by decide, by decide, rfl⟩, fun h => ?_⟩
  exact absurd h.2.2 (by decide)

theorem witness_CommandRefusals :
    (setPhase .stopped (vec [])).regs.phase ≠ .idle ∧ (vec []).regs.phase = .idle ∧
    commandTarget (.readByte ⟨32, 29, 0, 0⟩ 0) = some (⟨32, 29, 0, 0⟩, 0) ∧ (vec []).cfg.nlines ≤ 32 ∧
    commandTarget (.readPage ⟨31, 31, 0, 0⟩ 0 1) = some (⟨31, 31, 0, 0⟩, 0) ∧ 31 < (vec []).cfg.nlines ∧
    dev.wf (vec []).cfg.nlines = true ∧ ([1, 2] : List Byte).length < 3 := by
  decide

theorem witness_CommandLatchesOperands :
    ∃ t, commandTarget (.readByte dev 0x12) = some (dev, 0x12) ∧ (vec []).Inv ∧
      exec (.readByte dev 0x12) (vec []) = .next t := by
  obtain ⟨t, ht⟩ := command_next (.readByte dev 0x12) [] (by simp)
  exact ⟨t, rfl, vec_inv _, ht⟩

/-! ## Commands that succeed -/

/-- INIT seen at its last sample, the third acknowledge at its last one. -/
def lateWrite : List Mark :=
  [r0, r0] ++ opening ++ frameA0 ++ acked ++ frame12 ++ acked ++ frame12 ++ [d1, c1, r1, r1, r0, c0]

theorem witness_WriteByteSucceeds :
    (vec (scripted v30)).Inv ∧ dev.wf (vec (scripted v30)).cfg.nlines = true ∧
    (vec (scripted v30)).bus.dirOf 29 = .float ∧ prefixAnswered (vec (scripted v30)) 29 0 0 0 ∧
    seenInTime (vec (scripted v30)) 29 false 91 3 0 ∧
    (vec (scripted lateWrite)).Inv ∧ prefixAnswered (vec (scripted lateWrite)) 29 2 0 0 ∧
    seenInTime (vec (scripted lateWrite)) 29 false (2 + 0 + 0 + 91) 3 2 :=
  ⟨vec_inv _, by decide, rfl, by decide +kernel, by decide +kernel, vec_inv _, by decide +kernel, by decide +kernel⟩

/-- No byte, and a page of two. -/
theorem witness_WritePageSucceeds :
    let ms := prefix12 ++ frame12 ++ acked ++ frame12 ++ [d1, c1, r1, r0, c0]
    (vec (scripted ms)).Inv ∧ dev.wf (vec (scripted ms)).cfg.nlines = true ∧
    (vec (scripted ms)).bus.dirOf 29 = .float ∧ prefixAnswered (vec (scripted ms)) 29 0 0 0 ∧
    (0 ≤ ([] : List Byte).length ∧ ([] : List Nat).length = 0 ∧ allAcknowledged (vec (scripted ms)) 29 3 65 []) ∧
    2 ≤ ([0x12, 0x12] : List Byte).length ∧ ([0, 1] : List Nat).length = 2 ∧
    allAcknowledged (vec (scripted ms)) 29 3 65 [0, 1] := by
  refine ⟨vec_inv _, by decide, rfl, by decide +kernel, ⟨by decide, rfl, trivial⟩, by decide, rfl, ?_, ?_, trivial⟩
  · decide +kernel
  · decide +kernel

theorem witness_ReadByteSucceeds :
    (vec (scripted v31)).Inv ∧ dev.wf (vec (scripted v31)).cfg.nlines = true ∧
    (vec (scripted v31)).bus.dirOf 29 = .float ∧ readPrefixAnswered (vec (scripted v31)) 29 0 0 0 0 ∧
    neverSeen (vec (scripted v31)) 29 false 123 3 :=
  ⟨vec_inv _, by decide, rfl, by decide +kernel, by decide +kernel⟩

/-- A page of one, and of two. -/
theorem witness_ReadPageSucceeds :
    let one := v31data ++ [d1] ++ [d1, c1, r1]
    let two := v31data ++ List.replicate 28 c0 ++ [d1] ++ [d1, c1, r1]
    ((vec (scripted one)).Inv ∧ dev.wf (vec (scripted one)).cfg.nlines = true ∧ 1 ≤ 1 ∧
      (vec (scripted one)).bus.dirOf 29 = .float ∧ readPrefixAnswered (vec (scripted one)) 29 0 0 0 0 ∧
      neverSeen (vec (scripted one)) 29 false (96 + 28 * 1) 3) ∧
    (vec (scripted two)).Inv ∧ readPrefixAnswered (vec (scripted two)) 29 0 0 0 0 ∧
      neverSeen (vec (scripted two)) 29 false (96 + 28 * 2) 3 :=
  ⟨⟨vec_inv _, by decide, by decide, rfl, by decide +kernel, by decide +kernel⟩, vec_inv _, by decide +kernel,
    by decide +kernel⟩

/-- For BitOrder and AccessCounts, clause by clause: a write, a page of none and of two bytes, a read, a page read of one
and of two. -/
theorem answered_witness :
    (vec (scripted lateWrite)).WriteByteAnswered dev 2 0 0 2 ∧
    (∃ s : State, s.WritePageAnswered dev 0 0 0 [] ∧ ([] : List Nat).length ≤ ([] : List Byte).length) ∧
    (∃ s : State, s.WritePageAnswered dev 0 0 0 [0, 1] ∧ ([0, 1] : List Nat).length ≤ ([0x12, 0x12] : List Byte).length) ∧
    (vec (scripted v31)).ReadAnswered dev 0 0 0 0 121 ∧
    (∃ s : State, 1 ≤ 1 ∧ s.ReadAnswered dev 0 0 0 0 (94 + 28 * 1)) ∧
    ∃ s : State, 1 ≤ 2 ∧ s.ReadAnswered dev 0 0 0 0 (94 + 28 * 2) := by
  have hb := witness_WriteByteSucceeds
  have hp := witness_WritePageSucceeds
  have hr := witness_ReadByteSucceeds
  have hq := witness_ReadPageSucceeds
  exact ⟨⟨hb.2.2.2.2.2.1, by decide, rfl, hb.2.2.2.2.2.2.1, hb.2.2.2.2.2.2.2⟩,
    ⟨_, ⟨hp.1, hp.2.1, hp.2.2.1, hp.2.2.2.1, hp.2.2.2.2.1.2.2⟩, by decide⟩,
    ⟨_, ⟨hp.1, hp.2.1, hp.2.2.1, hp.2.2.2.1, hp.2.2.2.2.2.2.2⟩, by decide⟩,
    ⟨hr.1, hr.2.1, hr.2.2.1, hr.2.2.2.1, hr.2.2.2.2⟩,
    ⟨_, by decide, hq.1.1, hq.1.2.1, hq.1.2.2.2.1, hq.1.2.2.2.2.1, hq.1.2.2.2.2.2⟩,
    _, by decide, hq.2.1, by decide, rfl, hq.2.2.1, hq.2.2.2⟩

theorem witness_BitOrder : (vec (scripted v31)).ReadAnswered dev 0 0 0 0 121 ∧ 0 < 8 ∧ 7 < 8 :=
  ⟨answered_witness.2.2.2.1, by decide, by decide⟩

theorem witness_AccessCounts : (vec (scripted lateWrite)).WriteByteAnswered dev 2 0 0 2 :=
  answered_witness.1

theorem witness_PageOfOneIsByte :
    ∃ t, (vec []).Inv ∧ exec (.writePage dev 0x12 (0x5A :: [0x01]) 1) (vec []) = .next t := by
  rw [execWritePage_eq _ rfl (by decide) (by decide)]
  obtain ⟨t, ht⟩ := endCommand_next (writePageBody (accept dev .writePage 0x12 [0x5A, 0x01] 1 (vec [])))
  exact ⟨t, vec_inv _, ht⟩

/-! ## Commands that fail -/

/-- Held low by a remote device, and asserted low by the engine. -/
theorem witness_BusStuckLowFails :
    commandTarget (.readPage dev 0x12 1) = some (dev, 0x12) ∧
    ((vec [[(29, true)]]).Inv ∧ (Instr.readPage dev 0x12 1).wf (vec [[(29, true)]]).cfg.nlines = true ∧
      neverSeen (vec [[(29, true)]]) 29 true 0 3) ∧
    (midFrame .drive []).Inv ∧ (midFrame .drive []).bus.dirOf 29 = .drive :=
  ⟨rfl, ⟨vec_inv _, by decide, by decide⟩, midFrame_inv _ _, rfl⟩

theorem witness_DeviceAddressNoAck :
    commandTarget (.writePage dev 0x12 [] 0) = some (dev, 0x12) ∧ (vec []).Inv ∧
    (Instr.writePage dev 0x12 [] 0).wf (vec []).cfg.nlines = true ∧ (vec []).bus.dirOf 29 = .float ∧
    busFree (vec []) 29 0 ∧ neverSeen (vec []) 29 false (0 + 35) 3 :=
  ⟨rfl, vec_inv _, by decide, rfl, by decide, by decide⟩

theorem witness_ByteAddressNoAck :
    let s := vec (scripted (opening ++ frameA0 ++ acked ++ frame12 ++ [d1, c1, r1]))
    commandTarget (.readByte dev 0x12) = some (dev, 0x12) ∧ s.Inv ∧
    (Instr.readByte dev 0x12).wf s.cfg.nlines = true ∧ s.bus.dirOf 29 = .float ∧ busFree s 29 0 ∧
    deviceAcks s 29 0 0 ∧ neverSeen s 29 false (0 + 0 + 63) 3 :=
  ⟨rfl, vec_inv _, by decide, rfl, by decide +kernel, by decide +kernel, by decide +kernel⟩

/-- The byte of WRITE_BYTE, and the last byte of a page of two. -/
theorem witness_DataByteNoAck :
    let s := vec (scripted (prefix12 ++ frame12 ++ [d1, c1, r1]))
    let q := vec (scripted (prefix12 ++ frame12 ++ acked ++ frame12 ++ [d1, c1, r1]))
    (s.Inv ∧ dev.wf s.cfg.nlines = true ∧ s.bus.dirOf 29 = .float ∧ prefixAnswered s 29 0 0 0 ∧
      neverSeen s 29 false 91 3) ∧
    q.Inv ∧ dev.wf q.cfg.nlines = true ∧ ([0x12] : List Byte).length < 2 ∧
    2 ≤ (([0x12] : List Byte) ++ 0x12 :: []).length ∧ ([0] : List Nat).length = ([0x12] : List Byte).length ∧
    q.bus.dirOf 29 = .float ∧ prefixAnswered q 29 0 0 0 ∧ allAcknowledged q 29 3 65 [0] ∧
    neverSeen q 29 false (91 + writtenLength [0]) 3 :=
  ⟨⟨vec_inv _, by decide, rfl, by decide +kernel, by decide +kernel⟩, vec_inv _, by decide, by decide, by decide,
    by decide, rfl, by decide +kernel, ⟨by decide +kernel, trivial⟩, by decide +kernel⟩

theorem witness_ReadAddressNoAck :
    let s := vec (scripted (prefix12 ++ [d1, c1, d0, c0] ++ frameA1 ++ [d1, c1, r1]))
    commandTarget (.readPage dev 0x12 1) = some (dev, 0x12) ∧ isRead (.readPage dev 0x12 1) = true ∧ s.Inv ∧
    (Instr.readPage dev 0x12 1).wf s.cfg.nlines = true ∧ s.bus.dirOf 29 = .float ∧ prefixAnswered s 29 0 0 0 ∧
    neverSeen s 29 false 95 3 :=
  ⟨rfl, rfl, vec_inv _, by decide, rfl, by decide +kernel, by decide +kernel⟩

/-- Low at the last sample of the bound for READ_BYTE, at the first one for a page of one. -/
theorem witness_UnexpectedAckFails :
    let s := vec (scripted (v31data ++ [d1, c1, r1, r1, r0]))
    let q := vec (scripted (v31data ++ [d1, d1, c1, r0]))
    (s.Inv ∧ dev.wf s.cfg.nlines = true ∧ s.bus.dirOf 29 = .float ∧ readPrefixAnswered s 29 0 0 0 0 ∧
      seenInTime s 29 false 123 3 2) ∧
    q.Inv ∧ dev.wf q.cfg.nlines = true ∧ 1 ≤ 1 ∧ q.bus.dirOf 29 = .float ∧ readPrefixAnswered q 29 0 0 0 0 ∧
    seenInTime q 29 false (96 + 28 * 1) 3 0 :=
  ⟨⟨vec_inv _, by decide, rfl, by decide +kernel, by decide +kernel⟩, vec_inv _, by decide, by decide, rfl,
    by decide +kernel, by decide +kernel⟩

theorem witness_OutcomeCodes : (vec []).Inv := vec_inv _

/-! ## All commands, every environment -/

theorem witness_EveryCommandEnds :
    commandTarget (.readPage dev 0x12 1) = some (dev, 0x12) ∧ (vec []).Inv ∧
    (Instr.readPage dev 0x12 1).wf (vec []).cfg.nlines = true ∧ (vec []).bus.dirOf 29 = .float ∧
    (midFrame .drive []).Inv :=
  ⟨rfl, vec_inv _, by decide, rfl, midFrame_inv _ _⟩

theorem witness_PhaseTransitions :
    ∃ t, commandTarget (.writeByte dev 0x12 0x5A) = some (dev, 0x12) ∧ (vec []).Inv ∧
      exec (.writeByte dev 0x12 0x5A) (vec []) = .next t := by
  obtain ⟨t, ht⟩ := command_next (.writeByte dev 0x12 0x5A) [] (by simp)
  exact ⟨t, rfl, vec_inv _, ht⟩

theorem witness_OnlyTheTwoLines :
    ∃ t, commandTarget (.readPage dev 0x12 1) = some (dev, 0x12) ∧ (vec []).Inv ∧
      exec (.readPage dev 0x12 1) (vec []) = .next t := by
  obtain ⟨t, ht⟩ := command_next (.readPage dev 0x12 1) [] (by simp)
  exact ⟨t, rfl, vec_inv _, ht⟩

/-- An environment for each clause: success of a write and of a read, a stuck bus, a missing acknowledge, an unexpected
one. -/
theorem witness_NoStraySymbols :
    (∀ script, (vec script).Inv ∧ (vec script).bus.dirOf 29 = .float ∧
      ∃ t as, exec (.readByte dev 0x12) (vec script) = .next t ∧ t.accesses = (vec script).accesses ++ as) ∧
    next (.writeByte dev 0x12 0x5A) (vec (scripted v30)) (fun t => t.regs.err == none) = true ∧
    next (.readByte dev 0x12) (vec (scripted v31)) (fun t => t.regs.err == none) = true ∧
    next (.readByte dev 0x12) (vec [[(29, true)]]) (fun t => t.regs.err == some .busStuckLow) = true ∧
    next (.readByte dev 0x12) (vec []) (fun t => t.regs.err == some .noAck) = true ∧
    next (.readByte dev 0x12) (vec (scripted (v31data ++ [d1, c1, r0])))
      (fun t => t.regs.err == some .unexpectedAck) = true := by
  refine ⟨fun script => ⟨vec_inv _, rfl, ?_⟩, by decide +kernel, by decide +kernel, by decide +kernel,
    by decide +kernel, by decide +kernel⟩
  obtain ⟨t, ht⟩ := command_next (.readByte dev 0x12) script (by simp)
  exact ⟨t, t.accesses, ht, rfl⟩

/-- Two environments that differ on the clock line: in the second one it is held low all the time. -/
theorem witness_OnlyTheDataLineMatters :
    let s := vec [[(29, true)], [(29, false)]]
    let s' := vec [[(29, true), (28, true)], [(29, false)]]
    commandTarget (.writeByte dev 0x12 0x5A) = some (dev, 0x12) ∧ s.Inv ∧ s'.Inv ∧ s'.cfg = s.cfg ∧
    s'.regs = s.regs ∧ s'.bus.dir = s.bus.dir ∧ s'.bus.out = s.bus.out ∧
    (∀ k, s'.lowAt k 29 = s.lowAt k 29) ∧ s'.lowAt 0 28 ≠ s.lowAt 0 28 ∧
    ∃ t, exec (.writeByte dev 0x12 0x5A) s = .next t := by
  refine ⟨rfl, vec_inv _, vec_inv _, rfl, rfl, rfl, rfl, fun k => ?_, by decide, ?_⟩
  · match k with
    | 0 => rfl
    | 1 => rfl
    | _ + 2 => rfl
  · exact command_next _ _ (by simp)

/-! ## What the caller can issue -/

theorem witness_CallerIssuesCommands :
    readRequest (.packet 0x1200A01D1C02 {}) = .ok (.readByte dev 0x12) ∧
    readRequest (.record (.writePage dev 0x12 [] 0)) = .ok (.writePage dev 0x12 [] 0) ∧
    commandTarget (.writePage dev 0x12 [] 0) = some (dev, 0x12) := by
  decide

/-! ## INIT first -/

/-- Seen at the first and at the last sample of the bound; never seen; and an INIT that opens a transaction. -/
theorem witness_InitFirst :
    (∃ s : State, s.Inv ∧ s.exposed = [.start] ∧ s.opened = false ∧ beginsWithInit .start = false ∧
      s.bus.dirOf s.regs.desc.sda = .float ∧ seenInTime s s.regs.desc.sda true 0 s.cfg.tInit 0) ∧
    (∃ s : State, s.Inv ∧ s.exposed = [.start] ∧ s.opened = false ∧ s.bus.dirOf s.regs.desc.sda = .float ∧
      seenInTime s s.regs.desc.sda true 0 s.cfg.tInit 2) ∧
    (∃ s : State, s.Inv ∧ s.exposed = [.start] ∧ s.opened = false ∧
      neverSeen s s.regs.desc.sda true 0 s.cfg.tInit) ∧
    ∃ s t : State, s.Inv ∧ step s = .next t ∧ t.opened = true ∧ s.opened = false :=
  ⟨⟨{ vec [] with exposed := [.start] }, inv_of_exposed (vec_inv _) _, rfl, rfl, rfl, rfl, by decide⟩,
    ⟨{ vec (scripted [r0, r0, r1]) with exposed := [.start] }, inv_of_exposed (vec_inv _) _, rfl, rfl, rfl, by decide⟩,
    ⟨{ vec [[(29, true)]] with exposed := [.start] }, inv_of_exposed (vec_inv _) _, rfl, rfl, by decide⟩,
    { vec [] with exposed := [.start] }, _, inv_of_exposed (vec_inv _) _, rfl, by decide, rfl⟩

end Sys2Proof.Tests
end

/-!
SUPPORT. When an operation completes: an answer is a next state exactly when what guards it lets it through
(spec/30_encoding.md R87).
-/

namespace Sys2Proof.Machine

/-! ## The guards of a primitive and of an access -/

theorem onLine_eq_next_iff {l : Nat} {s t u : State} : onLine l s t = .next u ↔ lineOk s l = true ∧ t = u := by
  cases h : lineOk s l <;> simp [onLine, h]

theorem onLatchedLines_eq_next_iff {s t u : State} :
    onLatchedLines s t = .next u ↔ latchedLinesOk s = true ∧ t = u := by
  cases h : latchedLinesOk s <;> simp [onLatchedLines, h]

theorem onLine_completes_iff (l : Nat) (s t : State) : (∃ u, onLine l s t = .next u) ↔ l < s.cfg.nlines := by
  simp [onLine_eq_next_iff, lineOk]

theorem onLatchedLines_completes_iff (s t : State) :
    (∃ u, onLatchedLines s t = .next u) ↔ latchedLinesOk s = true := by
  simp [onLatchedLines_eq_next_iff]

/-- R144: SHIFT_IN is let through by the floated data line, then by the latched lines. -/
theorem execShiftIn_eq_next_iff {s t : State} :
    execShiftIn s = .next t ↔
      s.bus.dirOf s.regs.desc.sda = .float ∧ latchedLinesOk s = true ∧ shiftIn s = t := by
  by_cases h : s.bus.dirOf s.regs.desc.sda = .float
  · simp [execShiftIn, h, onLatchedLines_eq_next_iff]
  · simp [execShiftIn, h]

/-! ## The guards of a command -/

theorem endCommand_completes (r : Res) : ∃ t, endCommand r = .next t := by
  cases r with
  | ok s => exact ⟨finishOk s, rfl⟩
  | raised s => exact ⟨settle false s, rfl⟩

/-- What the four commands share: refused where there is a reason, run to an end where there is none. -/
theorem completes_iff_no_refusal {ans : Answer} {reason : Option Refusal} (r : Res)
    (hsome : ∀ e, reason = some e → ans = .refused e) (hnone : reason = none → ans = endCommand r) :
    (∃ t, ans = .next t) ↔ reason = none := by
  cases h : reason with
  | none => simpa [hnone h] using endCommand_completes r
  | some e => simp [hsome e h]

theorem writePageRefusal_eq_none_iff (dev : Descriptor) (data : List Byte) (count : Nat) (s : State) :
    writePageRefusal dev data count s = none ↔ commandRefusal dev s = none ∧ count ≤ data.length := by
  cases h : commandRefusal dev s <;> simp [writePageRefusal, h]

theorem readPageRefusal_eq_none_iff (dev : Descriptor) (count : Nat) (s : State) :
    readPageRefusal dev count s = none ↔ commandRefusal dev s = none ∧ 1 ≤ count := by
  cases h : commandRefusal dev s <;> simp [readPageRefusal, h, Nat.one_le_iff_ne_zero]

theorem execWriteByte_completes_iff (dev : Descriptor) (a d : Byte) (s : State) :
    (∃ t, execWriteByte dev a d s = .next t) ↔ commandRefusal dev s = none :=
  completes_iff_no_refusal (writeByteBody (accept dev .writeByte a [d] s.regs.count s))
    (fun e h => by simp [execWriteByte, h]) (fun h => by simp [execWriteByte, h])

theorem execWritePage_completes_iff (dev : Descriptor) (a : Byte) (data : List Byte) (count : Nat) (s : State) :
    (∃ t, execWritePage dev a data count s = .next t) ↔ writePageRefusal dev data count s = none :=
  completes_iff_no_refusal (writePageBody (accept dev .writePage a data count s))
    (fun e h => by simp [execWritePage, h]) (fun h => by simp [execWritePage, h])

theorem execReadByte_completes_iff (dev : Descriptor) (a : Byte) (s : State) :
    (∃ t, execReadByte dev a s = .next t) ↔ commandRefusal dev s = none :=
  completes_iff_no_refusal (readByteBody (accept dev .readByte a s.regs.wdata s.regs.count s))
    (fun e h => by simp [execReadByte, h]) (fun h => by simp [execReadByte, h])

theorem execReadPage_completes_iff (dev : Descriptor) (a : Byte) (count : Nat) (s : State) :
    (∃ t, execReadPage dev a count s = .next t) ↔ readPageRefusal dev count s = none :=
  completes_iff_no_refusal (readPageBody (accept dev .readPage a s.regs.wdata count s))
    (fun e h => by simp [execReadPage, h]) (fun h => by simp [execReadPage, h])

/-! ## Every operation -/

/-- R17, R87: the guards of an operation are its preconditions. -/
theorem exec_completes_iff_accepted (i : Instr) (s : State) : (∃ t, exec i s = .next t) ↔ accepted i s := by
  cases i with
  | regset l f => exact (onLine_completes_iff l s _).trans (by simp [accepted, Instr.wf])
  | regin l => exact (onLine_completes_iff l s _).trans (by simp [accepted, Instr.wf])
  | drive l v => exact (onLine_completes_iff l s _).trans (by simp [accepted, Instr.wf])
  | shiftIn => simp [exec, execShiftIn_eq_next_iff, accepted, Instr.wf, and_comm]
  | writeByte dev a d =>
    exact (execWriteByte_completes_iff dev a d s).trans
      (by simp [commandRefusal_eq_none_iff, accepted, Instr.wf, and_comm])
  | writePage dev a data count =>
    exact (execWritePage_completes_iff dev a data count s).trans
      (by simp [writePageRefusal_eq_none_iff, commandRefusal_eq_none_iff, accepted, Instr.wf, and_comm, and_left_comm])
  | readByte dev a =>
    exact (execReadByte_completes_iff dev a s).trans
      (by simp [commandRefusal_eq_none_iff, accepted, Instr.wf, and_comm])
  | readPage dev a count =>
    exact (execReadPage_completes_iff dev a count s).trans
      (by simp [readPageRefusal_eq_none_iff, commandRefusal_eq_none_iff, accepted, Instr.wf, and_comm, and_left_comm])
  | start | stop | init | shiftOut | waitAck | waitNack | masterAck | sendDevAddr | sendByteAddr =>
    exact (onLatchedLines_completes_iff s _).trans (by simp [accepted, Instr.wf])

/-- Settles O30: the guards of an operation are its preconditions, and `Fault` has no value. -/
theorem completesExactlyWhenAccepted : Obligations.CompletesExactlyWhenAccepted := by
  intro i s
  exact ⟨exec_completes_iff_accepted i s, fun f => nomatch f⟩

end Sys2Proof.Machine

/-!
SUPPORT. Every operation that completes is a run (`Ran`), whatever the environment does and whatever the lines are: the
induction over polls, received bits and data bytes, and R24 along the run.
-/

namespace Sys2Proof.Machine

/-- From `s` to `t` some accesses, turns of the environment and phase changes happened, and nothing else outside the
registers: `Ran` without saying which. -/
def Reaches (s t : State) : Prop :=
  ∃ as ps, Ran s t as ps

theorem Ran.reaches {s t : State} {as : List Access} {ps : List Phase} (h : Ran s t as ps) : Reaches s t :=
  ⟨as, ps, h⟩

theorem Reaches.refl (s : State) : Reaches s s :=
  (ran_regs s s.regs).reaches

theorem Reaches.trans {s t u : State} (h : Reaches s t) (k : Reaches t u) : Reaches s u := by
  obtain ⟨as, ps, h⟩ := h
  obtain ⟨bs, qs, k⟩ := k
  exact (h.trans k).reaches

theorem Reaches.andRan {s t u : State} {as : List Access} {ps : List Phase} (h : Reaches s t) (k : Ran t u as ps) :
    Reaches s u :=
  h.trans k.reaches

/-- R214(3): a sequence that may stop at a raise. -/
theorem Reaches.andThen {s : State} {r : Res} {f : State → Res} (h : Reaches s r.state)
    (k : ∀ t, Reaches t (f t).state) : Reaches s (r.andThen f).state := by
  cases r with
  | ok t => exact h.trans (k t)
  | raised t => exact h

/-- R24, R113: a run keeps the open-drain invariant at every point between its events. -/
theorem Reaches.openDrainBetween {s t : State} (h : Reaches s t) (hl : s.bus.dir.length = s.bus.out.length)
    (ho : s.bus.openDrain) :
    ∃ es : List Event, t.history = es.reverse ++ s.history ∧ t.bus = replay s.bus es ∧
      ∀ k, (replay s.bus (es.take k)).openDrain := by
  obtain ⟨as, ps, hr⟩ := h
  obtain ⟨es, hhist, -, -, hbus⟩ := hr.events
  exact ⟨es, hhist, hbus, fun k => replay_openDrain (es.take k) s.bus hl ho⟩

/-! ## Polls and pulses -/

theorem pollSda_reaches (want : Level) (n : Nat) (s : State) : Reaches s (pollSda want n s).2 := by
  induction n generalizing s with
  | zero => exact .refl s
  | succ n ih =>
    have hsample : Reaches s (countSample (regIn s.regs.desc.sda s)) :=
      (regIn_ran _ s).reaches.andRan (ran_regs _ _)
    rw [pollSda]
    split
    · exact hsample
    · exact hsample.trans (ih _)

theorem pollFrom0_reaches (want : Level) (n : Nat) (s : State) : Reaches s (pollFrom0 want n s).2 :=
  (clearPoll_ran s).reaches.trans (pollSda_reaches want n _)

theorem ackPulse_reaches (n : Nat) (s : State) : Reaches s (ackPulse n s).2 :=
  (((driveSda_ran true s).reaches.andRan (driveScl_ran true _)).trans (pollFrom0_reaches false n _)).andRan
    (driveScl_ran false _)

theorem waitAck_reaches (n : Nat) (s : State) : Reaches s (waitAck n s).state := by
  have hp := ackPulse_reaches n s
  simp only [waitAck]
  split
  · exact hp
  · exact hp.andRan (raiseError_ran .noAck _)

theorem waitNack_reaches (n : Nat) (s : State) : Reaches s (waitNack n s).state := by
  have hp := ackPulse_reaches n s
  simp only [waitNack]
  split
  · exact hp.andRan (raiseError_ran .unexpectedAck _)
  · exact hp

theorem busRecovery_reaches (s : State) : Reaches s (busRecovery s).state := by
  have hp := pollFrom0_reaches true s.cfg.tInit s
  simp only [busRecovery]
  split
  · exact hp.andRan (stopSignal_ran _)
  · exact hp.andRan (raiseError_ran .busStuckLow _)

/-! ## Received bits -/

theorem receiveBit_reaches (i : Nat) (s : State) : Reaches s (receiveBit i s) :=
  (((driveScl_ran true s).reaches.andRan (regIn_ran _ _)).andRan (setSr_ran _ _)).andRan (driveScl_ran false _)

theorem receiveBits_reaches (n : Nat) (s : State) : Reaches s (receiveBits n s) := by
  induction n generalizing s with
  | zero => exact .refl s
  | succ n ih => exact ((setBitIdx_ran n s).reaches.trans (receiveBit_reaches n _)).trans (ih _)

theorem shiftIn_reaches (s : State) : Reaches s (shiftIn s) :=
  (setSr_ran 0 s).reaches.trans (receiveBits_reaches 8 _)

/-! ## Parts of a command -/

theorem awaitAck_reaches (s : State) : Reaches s (awaitAck s).state :=
  waitAck_reaches s.cfg.tAck s

theorem sendByteAddr_reaches (a : Byte) (s : State) : Reaches s (sendByteAddr a s).state :=
  (shiftOut_ran a s).reaches.trans (waitAck_reaches _ _)

theorem sendByte_reaches (b : Byte) (s : State) : Reaches s (sendByte b s).state :=
  (shiftOut_ran b s).reaches.trans (awaitAck_reaches _)

theorem prefixPart_reaches (s : State) : Reaches s (prefixPart s).state :=
  (busRecovery_reaches s).andThen fun t =>
    ((((startSignal_ran t).reaches.andRan (setPhase_ran .started _)).andRan (sendDevAddr_ran _ false _)).trans
      (awaitAck_reaches _)).andThen fun u =>
    ((setPhase_ran .addrWritten u).reaches.trans (sendByteAddr_reaches _ _)).andThen fun v =>
    (setPhase_ran .byteAddrSent v).reaches

theorem readPrefixPart_reaches (s : State) : Reaches s (readPrefixPart s).state :=
  (prefixPart_reaches s).andThen fun t =>
    (((setPhase_ran .dataPhase t).reaches.andRan (startSignal_ran _)).andRan (sendDevAddr_ran _ true _)).trans
      (awaitAck_reaches _)

theorem sendBytes_reaches (bs : List Byte) (i : Nat) (s : State) : Reaches s (sendBytes bs i s).state := by
  induction bs generalizing i s with
  | nil => exact .refl s
  | cons b bs ih => exact ((setIdx_ran i s).reaches.trans (sendByte_reaches b _)).andThen (ih (i + 1))

theorem endRead_reaches (s : State) : Reaches s (endRead s).state :=
  (waitNack_reaches _ s).andThen fun t => (stopSignal_ran t).reaches

theorem receiveRbyte_reaches (s : State) : Reaches s (receiveRbyte s) :=
  (shiftIn_reaches s).andRan (ran_regs _ _)

theorem receiveIntoRbuf_reaches (i : Nat) (s : State) : Reaches s (receiveIntoRbuf i s) :=
  ((setIdx_ran i s).reaches.trans (shiftIn_reaches _)).andRan (ran_regs _ _)

theorem receiveBytes_reaches (n i : Nat) (s : State) : Reaches s (receiveBytes n i s).state := by
  fun_induction receiveBytes n i s with
  | case1 _ s => exact .refl s
  | case2 i s => exact ((receiveIntoRbuf_reaches i s).andRan (driveSda_ran true _)).trans (endRead_reaches _)
  | case3 n i s ih => exact ((receiveIntoRbuf_reaches i s).andRan (masterAck_ran _)).trans ih

/-! ## Commands -/

theorem writeByteBody_reaches (s : State) : Reaches s (writeByteBody s).state :=
  (prefixPart_reaches s).andThen fun t =>
    ((setPhase_ran .dataPhase t).reaches.trans (sendByte_reaches _ _)).andThen fun u => (stopSignal_ran u).reaches

theorem writePageBody_reaches (s : State) : Reaches s (writePageBody s).state :=
  (prefixPart_reaches s).andThen fun t =>
    (((setPhase_ran .dataPhase t).reaches.andRan (setIdx_ran 0 _)).trans (sendBytes_reaches _ 0 _)).andThen fun u =>
    (stopSignal_ran u).reaches

theorem readByteBody_reaches (s : State) : Reaches s (readByteBody s).state :=
  (readPrefixPart_reaches s).andThen fun t => (receiveRbyte_reaches t).trans (endRead_reaches _)

theorem readPageBody_reaches (s : State) : Reaches s (readPageBody s).state :=
  (readPrefixPart_reaches s).andThen fun t =>
    ((clearRbuf_ran t).reaches.andRan (setIdx_ran 0 _)).trans (receiveBytes_reaches _ 0 _)

theorem endCommand_reaches {r : Res} {t : State} (h : endCommand r = .next t) : Reaches r.state t := by
  cases r with
  | ok s => cases h; exact (finishOk_ran s).reaches
  | raised s => cases h; exact (settle_ran false s).reaches

/-- An accepted command, from its acceptance over its body to its end. -/
theorem command_reaches {body : State → Res} (hbody : ∀ u, Reaches u (body u).state) {dev : Descriptor} {op : CmdOp}
    {a : Byte} {ds : List Byte} {n : Nat} {s t : State}
    (h : endCommand (body (accept dev op a ds n s)) = .next t) : Reaches s t :=
  ((accept_ran dev op a ds n s).reaches.trans (hbody _)).trans (endCommand_reaches h)

/-! ## Every operation -/

theorem onLine_reaches {l : Nat} {s t u : State} (h : onLine l s t = .next u) (k : Reaches s t) : Reaches s u :=
  (onLine_eq_next_iff.1 h).2 ▸ k

theorem onLatchedLines_reaches {s t u : State} (h : onLatchedLines s t = .next u) (k : Reaches s t) : Reaches s u :=
  (onLatchedLines_eq_next_iff.1 h).2 ▸ k

/-- R9, R61: an operation that completes acts outside the registers only by its accesses and phase changes. -/
theorem exec_reaches {i : Instr} {s t : State} (h : exec i s = .next t) : Reaches s t := by
  have hacc : accepted i s := (exec_completes_iff_accepted i s).1 ⟨t, h⟩
  cases i with
  | regset l f => exact onLine_reaches h (regSet_ran l f s).reaches
  | regin l => exact onLine_reaches h (regIn_ran l s).reaches
  | drive l v => exact onLine_reaches h (drive_ran l v s).reaches
  | start => exact onLatchedLines_reaches h (startSignal_ran s).reaches
  | stop => exact onLatchedLines_reaches h (stopSignal_ran s).reaches
  | init => exact onLatchedLines_reaches h (busRecovery_reaches s)
  | shiftOut b => exact onLatchedLines_reaches h (shiftOut_ran b s).reaches
  | shiftIn =>
    obtain ⟨-, -, rfl⟩ := execShiftIn_eq_next_iff.1 h
    exact shiftIn_reaches s
  | waitAck n => exact onLatchedLines_reaches h (waitAck_reaches n s)
  | waitNack n => exact onLatchedLines_reaches h (waitNack_reaches n s)
  | masterAck => exact onLatchedLines_reaches h (masterAck_ran s).reaches
  | sendDevAddr d rw => exact onLatchedLines_reaches h (sendDevAddr_ran d rw s).reaches
  | sendByteAddr a => exact onLatchedLines_reaches h (sendByteAddr_reaches a s)
  | writeByte dev a d =>
    obtain ⟨hw, hp⟩ := hacc
    rw [execWriteByte_eq a d hp hw] at h
    exact command_reaches writeByteBody_reaches h
  | writePage dev a data count =>
    obtain ⟨hw, hp⟩ := hacc
    obtain ⟨hdev, hn⟩ : dev.wf s.cfg.nlines = true ∧ count ≤ data.length := by simpa [Instr.wf] using hw
    rw [execWritePage_eq a hp hdev hn] at h
    exact command_reaches writePageBody_reaches h
  | readByte dev a =>
    obtain ⟨hw, hp⟩ := hacc
    rw [execReadByte_eq a hp hw] at h
    exact command_reaches readByteBody_reaches h
  | readPage dev a count =>
    obtain ⟨hw, hp⟩ := hacc
    obtain ⟨hdev, hn⟩ : dev.wf s.cfg.nlines = true ∧ 1 ≤ count := by simpa [Instr.wf] using hw
    rw [execReadPage_eq a hp hdev hn] at h
    exact command_reaches readPageBody_reaches h

/-- Settles O4: an operation that completes is a run, and a run keeps the open-drain invariant at every point. -/
theorem openDrainBetweenAccesses : Obligations.OpenDrainBetweenAccesses := by
  intro i s t hinv h
  obtain ⟨hdir, hout, -⟩ := hinv.sized
  exact (exec_reaches h).openDrainBetween (hdir.trans hout.symm) hinv.openDrain

end Sys2Proof.Machine

/-!
SUPPORT. The machine at reset (spec/10_state.md R35, spec/70_reset_and_hazards.md R240, R241).
-/

namespace Sys2Proof.Machine

theorem reset_dirOf (l : Nat) : State.reset.bus.dirOf l = .float := by
  simp only [Bus.dirOf, State.reset, List.getD_eq_getElem?_getD, List.getElem?_replicate]
  split <;> rfl

/-- R53: a floated line that nothing pulls low reads high. -/
theorem pad_of_float {b : Bus} {l : Nat} (hd : b.dirOf l = .float) (hp : b.pulled l = false) : b.pad l = true := by
  simp [Bus.pad, hd, hp]

theorem reset_sized : State.reset.bus.sized State.reset.cfg.nlines :=
  ⟨List.length_replicate, List.length_replicate, List.length_replicate⟩

/-- Settles O1: every entry of DIR is FLOAT at reset. -/
theorem resetFloatsEveryLine : Obligations.ResetFloatsEveryLine := by
  refine ⟨rfl, fun l hl => ⟨?_, reset_dirOf l, pad_of_float (reset_dirOf l)⟩⟩
  rw [reset_sized.1]
  exact hl

/-- Settles O2: no line is driven at reset, and the reset values of the latches and the flags are valid ones. -/
theorem resetMeetsInvariant : Obligations.ResetMeetsInvariant where
  lines := by decide
  sized := reset_sized
  openDrain := fun l h => by simp [reset_dirOf] at h
  latch := rfl
  outcome := by simp [State.reset]
  idle := rfl

end Sys2Proof.Machine

/-!
SUPPORT. Why a command is refused (spec/30_encoding.md R87, R33), one lemma per reason.
-/

namespace Sys2Proof.Machine

section
variable {s : State} {dev : Descriptor}

theorem commandRefusal_busy (hp : s.regs.phase ≠ .idle) : commandRefusal dev s = some .busy := by
  simp [commandRefusal, hp]

theorem commandRefusal_lineOutOfRange (hp : s.regs.phase = .idle)
    (h : s.cfg.nlines ≤ dev.scl ∨ s.cfg.nlines ≤ dev.sda) : commandRefusal dev s = some .lineOutOfRange := by
  have hbad : ¬ (lineOk s dev.scl && lineOk s dev.sda) = true := by
    simp only [lineOk, Bool.and_eq_true, decide_eq_true_eq]
    omega
  simp [commandRefusal, hp, hbad]

theorem commandRefusal_sameLine (hp : s.regs.phase = .idle) (hl : dev.scl < s.cfg.nlines) (he : dev.scl = dev.sda) :
    commandRefusal dev s = some .sameLine := by
  simp [commandRefusal, hp, lineOk, ← he, hl]

/-- The reasons all four commands share come before an operand count (log 20). -/
theorem exec_refused_of_commandRefusal {i : Instr} {a : Byte} {r : Refusal}
    (ht : commandTarget i = some (dev, a)) (h : commandRefusal dev s = some r) : exec i s = .refused r := by
  cases i <;> simp only [commandTarget, reduceCtorEq, Option.some.injEq, Prod.mk.injEq] at ht
  case writeByte => simp [exec, execWriteByte, ht.1, h]
  case writePage => simp [exec, execWritePage, writePageRefusal, ht.1, h]
  case readByte => simp [exec, execReadByte, ht.1, h]
  case readPage => simp [exec, execReadPage, readPageRefusal, ht.1, h]

/-- R188(c). -/
theorem exec_writePage_countExceedsData (a : Byte) {data : List Byte} {n : Nat} (hp : s.regs.phase = .idle)
    (hw : dev.wf s.cfg.nlines = true) (hn : data.length < n) :
    exec (.writePage dev a data n) s = .refused .countExceedsData := by
  simp [exec, execWritePage, writePageRefusal, commandRefusal_none hp hw, Nat.not_le.2 hn]

/-- R193(b). -/
theorem exec_readPage_countZero (a : Byte) (hp : s.regs.phase = .idle) (hw : dev.wf s.cfg.nlines = true) :
    exec (.readPage dev a 0) s = .refused .countZero := by
  simp [exec, execReadPage, readPageRefusal, commandRefusal_none hp hw]

end

/-- Settles O31: one lemma per name of a refusal. -/
theorem commandRefusals : Obligations.CommandRefusals := by
  refine ⟨fun i s dev a ht => ⟨fun hp => ?_, fun hp h => ?_, fun hp hl he => ?_⟩,
    fun s dev a data n => exec_writePage_countExceedsData a, fun s dev a => exec_readPage_countZero a⟩
  · exact exec_refused_of_commandRefusal ht (commandRefusal_busy hp)
  · exact exec_refused_of_commandRefusal ht (commandRefusal_lineOutOfRange hp h)
  · exact exec_refused_of_commandRefusal ht (commandRefusal_sameLine hp hl he)

end Sys2Proof.Machine

/-!
SUPPORT. How each operation that polls comes out when nothing is known of the environment: a poll sees the awaited level
in time or never does (R218), so one of its two lemmas applies.
-/

namespace Sys2Proof.Machine

/-- How WAIT_ACK and WAIT_NACK come out: after one acknowledge pulse on the latched lines, at their end or with `k`
raised. -/
inductive Waited (k : ErrKind) (s : State) : Res → Prop where
  | ok {u : State} {m p : Nat} {seen : Bool} (ran : Ran s u (marked s.regs.desc (ackMarks m seen)) [])
      (regs : u.regs = { s.regs with poll := p }) : Waited k s (.ok u)
  | raised {u : State} {m p : Nat} {seen : Bool} (ran : Ran s u (marked s.regs.desc (ackMarks m seen)) [.idle])
      (regs : u.regs = { s.regs with poll := p, ok := false, err := some k, phase := .idle }) : Waited k s (.raised u)

theorem waitAck_waited (n : Nat) {s : State} (hl : Lines s.regs.desc s) : Waited .noAck s (waitAck n s) := by
  rcases seenAfter_or_neverSeen s s.regs.desc.sda false 2 n with ⟨m, hm, hseen⟩ | hnever
  · obtain ⟨u, hu, hran, hregs⟩ := waitAck_seen n m s hl.distinct hl.sdaDir hm hseen
    exact hu ▸ .ok hran hregs
  · obtain ⟨u, hu, hran, hregs⟩ := waitAck_never n s hl.distinct hl.sdaDir hnever
    exact hu ▸ .raised hran hregs

theorem waitNack_waited (n : Nat) {s : State} (hl : Lines s.regs.desc s) :
    Waited .unexpectedAck s (waitNack n s) := by
  rcases seenAfter_or_neverSeen s s.regs.desc.sda false 2 n with ⟨m, hm, hseen⟩ | hnever
  · obtain ⟨u, hu, hran, hregs⟩ := waitNack_seen n m s hl.distinct hl.sdaDir hm hseen
    exact hu ▸ .raised hran hregs
  · obtain ⟨u, hu, hran, hregs⟩ := waitNack_never n s hl.distinct hl.sdaDir hnever
    exact hu ▸ .ok hran hregs

/-- How INIT comes out: after a STOP, or with BusStuckLow raised and nothing driven (R125, R126). -/
inductive Recovered (s : State) : Res → Prop where
  | ok {u : State} {m p : Nat} (ran : Ran s u (marked s.regs.desc (recoveryMarks m)) [])
      (regs : u.regs = { s.regs with poll := p }) : Recovered s (.ok u)
  | raised {u : State} {n p : Nat} (ran : Ran s u (marked s.regs.desc (pollMarks true n false)) [.idle])
      (regs : u.regs = { s.regs with poll := p, ok := false, err := some .busStuckLow, phase := .idle }) :
      Recovered s (.raised u)

theorem busRecovery_recovered {s : State} (ho : s.bus.openDrain) : Recovered s (busRecovery s) := by
  have hstuck (h : s.bus.dirOf s.regs.desc.sda = .float → neverSeen s s.regs.desc.sda true 0 s.cfg.tInit) :
      Recovered s (busRecovery s) := by
    obtain ⟨u, hu, hran, hregs⟩ := busRecovery_stuck s ho h
    exact hu ▸ .raised hran hregs
  rcases seenAfter_or_neverSeen s s.regs.desc.sda true 0 s.cfg.tInit with ⟨m, hm, hseen⟩ | hnever
  · cases hd : s.bus.dirOf s.regs.desc.sda with
    | float =>
      obtain ⟨u, hu, hran, hregs⟩ := busRecovery_seen m s hd hm hseen
      exact hu ▸ .ok hran hregs
    | drive => exact hstuck fun hf => by simp [hd] at hf
  · exact hstuck fun _ => hnever

end Sys2Proof.Machine

/-!
SUPPORT. How a command comes out, whatever the environment does: `Ends` is composed along the sequence of a command's
parts, as `Res.andThen` composes the parts.
-/

namespace Sys2Proof.Machine

/-- The operand latches and `DEVB` (R27, R28, R29), the registers acceptance fills and nothing else in a command
writes: what two register files agree on when they differ in the others alone. -/
def Regs.latches (r : Regs) : Regs :=
  { r.lasting with phase := .idle, ok := true, err := none, rbyte := 0, rbuf := [], draws := 0 }

/-- From `s` to `t` a part of a command on the lines of `dev` was performed, with the changes `ps` of PHASE. RBUF is
written by READ_PAGE alone. -/
structure Advances (dev : Descriptor) (ps : List Phase) (s t : State) : Prop where
  ran : ∃ ms, Ran s t (marked dev ms) ps
  lines : Lines dev t
  latches : t.regs.latches = s.regs.latches
  rbuf : s.regs.op ≠ .readPage → t.regs.rbuf = s.regs.rbuf

/-- `Advances` as far as a point where the data line is floated. -/
structure Listens (dev : Descriptor) (ps : List Phase) (s t : State) : Prop extends Advances dev ps s t where
  sda : t.bus.dirOf dev.sda = .float

/-- The phases of a command that gets to its data, after BusCheck. -/
abbrev dataPhases : List Phase := [.started, .addrWritten, .byteAddrSent, .dataPhase]

/-- `Advances` as far as the STOP of a successful command (R196). -/
structure Finishes (dev : Descriptor) (s t : State) : Prop extends Advances dev dataPhases s t where
  scl : t.bus.floated dev.scl
  sda : t.bus.floated dev.sda

/-- What a raise of `k` leaves in the registers (R214). -/
structure Raised (k : ErrKind) (s t : State) : Prop where
  latches : t.regs.latches = s.regs.latches
  phase : t.regs.phase = .idle
  ok : t.regs.ok = false
  err : t.regs.err = some k

/-- The bus check raised (R126). -/
structure FailsStuck (dev : Descriptor) (s t : State) : Prop extends Raised .busStuckLow s t where
  ran : ∃ n, Ran s t (marked dev (pollMarks true n false)) [.idle]

/-- A wait raised `k` after its acknowledge pulse, in a phase that may go to Idle (R32). -/
structure FailsAtAck (dev : Descriptor) (k : ErrKind) (s t : State) : Prop extends Raised k s t where
  ran : ∃ ms m seen ps, Ran s t (marked dev (ms ++ ackMarks m seen)) (ps ++ [.idle]) ∧
    phasesAllowed .busCheck (ps ++ [.idle]) = true

/-- The kinds a wait of a command can raise: UnexpectedAck is a read's (R210). -/
def mayRaise (op : CmdOp) (k : ErrKind) : Prop :=
  k = .noAck ∨ ((op = .readByte ∨ op = .readPage) ∧ k = .unexpectedAck)

/-- How a sequence of parts of a command, begun in `s` just after acceptance, comes out: in a state with `P`, or with one
of the three error kinds. -/
inductive Ends (dev : Descriptor) (s : State) (P : State → Prop) : Res → Prop where
  | ok {u : State} (h : P u) : Ends dev s P (.ok u)
  | stuck {u : State} (h : FailsStuck dev s u) : Ends dev s P (.raised u)
  | raised {u : State} {k : ErrKind} (hk : mayRaise s.regs.op k) (h : FailsAtAck dev k s u) : Ends dev s P (.raised u)

/-- R214(3): the next part is performed only after one that did not raise. -/
theorem Ends.andThen {dev : Descriptor} {s : State} {P Q : State → Prop} {r : Res} {f : State → Res}
    (h : Ends dev s P r) (k : ∀ t, P t → Ends dev s Q (f t)) : Ends dev s Q (r.andThen f) := by
  cases h with
  | ok h => exact k _ h
  | stuck h => exact .stuck h
  | raised hk h => exact .raised hk h

section
variable {dev : Descriptor} {ps : List Phase} {s t u : State}

theorem Lines.latched (h : Lines dev s) : Lines s.regs.desc s :=
  h.desc.symm ▸ h

/-! ## Extending a run of parts -/

theorem Lines.advances (h : Lines dev s) : Advances dev [] s s :=
  ⟨⟨[], ran_refl s dev⟩, h, rfl, fun _ => rfl⟩

/-- More accesses on the latched lines, with no change of PHASE. -/
theorem Advances.act {ms : List Mark} (h : Advances dev ps s t) (k : Ran t u (marked t.regs.desc ms) [])
    (hlatch : u.regs.latches = t.regs.latches) (hrbuf : t.regs.op ≠ .readPage → u.regs.rbuf = t.regs.rbuf) :
    Advances dev ps s u := by
  obtain ⟨⟨ns, hran⟩, hlines, hold, hkept⟩ := h
  have hop : t.regs.op = s.regs.op := (congrArg Regs.op hold :)
  rw [hlines.desc] at k
  exact ⟨⟨ns ++ ms, by simpa using hran.more k⟩, hlines.after k (congrArg Regs.desc hlatch :), hlatch.trans hold,
    fun hne => (hrbuf (hop ▸ hne)).trans (hkept hne)⟩

theorem Advances.setPhase (h : Advances dev ps s t) (p : Phase) : Advances dev (ps ++ [p]) s (setPhase p t) := by
  obtain ⟨⟨ns, hran⟩, hlines, hold, hkept⟩ := h
  exact ⟨⟨ns, by simpa using hran.trans (setPhase_ran p t)⟩, hlines.after (setPhase_ran p t) rfl, hold, hkept⟩

theorem Advances.setIdx (h : Advances dev ps s t) (i : Nat) : Advances dev ps s (setIdx i t) :=
  h.act (ms := []) (setIdx_ran i t) rfl fun _ => rfl

theorem Advances.startSignal (h : Advances dev ps s t) : Advances dev ps s (startSignal t) :=
  h.act (startSignal_ran t) (by simp) (by simp)

theorem Advances.sendDevAddr (h : Advances dev ps s t) (d : Byte) (rw : Bool) :
    Advances dev ps s (sendDevAddr d rw t) :=
  h.act (sendDevAddr_ran d rw t) (by simp [Regs.latches, Regs.lasting]) (by simp)

theorem Advances.shiftOut (h : Advances dev ps s t) (b : Byte) : Advances dev ps s (shiftOut b t) :=
  h.act (shiftOut_ran b t) (by simp [Regs.latches, Regs.lasting]) (by simp)

/-- R196: a STOP floats both lines. -/
theorem Advances.stopSignal (h : Advances dev dataPhases s t) : Finishes dev s (stopSignal t) := by
  have hran := stopSignal_ran t
  have hall := h.act hran (by simp) (by simp)
  rw [h.lines.desc] at hran
  exact ⟨hall, hran.sclAfter (ms := []) h.lines stopMarks_endsHigh,
    hran.sdaFloated (ms := []) h.lines stopMarks_endsFloated⟩

/-! ## Waits -/

theorem Advances.waited {k : ErrKind} {r : Res} (h : Advances dev ps s t) (w : Waited k t r)
    (hk : mayRaise s.regs.op k) (hps : phasesAllowed .busCheck (ps ++ [.idle]) = true) :
    Ends dev s (Listens dev ps s) r := by
  cases w with
  | @ok _ m _ seen hran hregs =>
    have hall := h.act hran (by simp [hregs, Regs.latches, Regs.lasting]) (by simp [hregs])
    rw [h.lines.desc] at hran
    exact .ok ⟨hall, (hran.sdaFloated (ms := []) h.lines (ackMarks_endsFloated m seen)).1⟩
  | @raised _ m _ seen hran hregs =>
    obtain ⟨ns, hns⟩ := h.ran
    rw [h.lines.desc] at hran
    exact .raised hk
      { latches := Eq.trans (by simp [hregs, Regs.latches, Regs.lasting]) h.latches
        phase := by rw [hregs]
        ok := by rw [hregs]
        err := by rw [hregs]
        ran := ⟨ns, m, seen, ps, hns.more hran, hps⟩ }

theorem Advances.awaitAck (h : Advances dev ps s t) (hps : phasesAllowed .busCheck (ps ++ [.idle]) = true) :
    Ends dev s (Listens dev ps s) (awaitAck t) :=
  h.waited (waitAck_waited _ h.lines.latched) (.inl rfl) hps

theorem Advances.sendByte (h : Advances dev ps s t) (b : Byte)
    (hps : phasesAllowed .busCheck (ps ++ [.idle]) = true) : Ends dev s (Listens dev ps s) (sendByte b t) :=
  (h.shiftOut b).awaitAck hps

/-- R187: the induction over the data bytes. -/
theorem Listens.sendBytes (h : Listens dev ps s t) (hps : phasesAllowed .busCheck (ps ++ [.idle]) = true)
    (bs : List Byte) (i : Nat) : Ends dev s (Listens dev ps s) (sendBytes bs i t) := by
  induction bs generalizing i t with
  | nil => exact .ok h
  | cons b bs ih => exact ((h.setIdx i).sendByte b hps).andThen fun u hu => ih hu (i + 1)

theorem Advances.endRead (h : Advances dev dataPhases s t) (hop : s.regs.op = .readByte ∨ s.regs.op = .readPage) :
    Ends dev s (Finishes dev s) (endRead t) :=
  (h.waited (waitNack_waited _ h.lines.latched) (.inr ⟨hop, rfl⟩) rfl).andThen fun _ hu => .ok hu.stopSignal

/-! ## Received bytes -/

theorem Listens.receiveRbyte (h : Listens dev ps s t) : Advances dev ps s (receiveRbyte t) := by
  obtain rfl := h.lines.desc
  obtain ⟨hran, hregs⟩ := receiveRbyte_spec t h.lines h.sda
  exact h.act hran (congrArg Regs.latches hregs :) fun _ => (congrArg Regs.rbuf hregs :)

/-- R192: the bytes of a page of at least one, and the pulse that ends it. -/
theorem Listens.receiveBytes (h : Listens dev dataPhases s t) (hop : s.regs.op = .readPage) (n i : Nat) :
    Ends dev s (Finishes dev s) (receiveBytes (n + 1) i t) := by
  obtain rfl := h.lines.desc
  obtain ⟨u, hu, hran, -, hregs⟩ := receiveBytes_toEnd n i t h.lines h.sda
  have hopt : t.regs.op = .readPage := (congrArg Regs.op h.latches :).trans hop
  rw [hu]
  exact (h.act hran (congrArg Regs.latches hregs :) fun hne => absurd hopt hne).endRead (.inr hop)

/-! ## Parts of a command -/

theorem busRecovery_ends (hl : Lines dev s) (ho : s.bus.openDrain) :
    Ends dev s (Advances dev [] s) (busRecovery s) := by
  obtain rfl := hl.desc
  have hrecovered := busRecovery_recovered ho
  generalize busRecovery s = r at hrecovered
  cases hrecovered with
  | ok hran hregs => exact .ok (hl.advances.act hran (by simp [hregs, Regs.latches, Regs.lasting]) (by simp [hregs]))
  | raised hran hregs =>
    exact .stuck
      { latches := by simp [hregs, Regs.latches, Regs.lasting]
        phase := by rw [hregs]
        ok := by rw [hregs]
        err := by rw [hregs]
        ran := ⟨_, hran⟩ }

/-- PREFIX (R180). -/
theorem prefixPart_ends (hl : Lines dev s) (ho : s.bus.openDrain) :
    Ends dev s (Listens dev [.started, .addrWritten, .byteAddrSent] s) (prefixPart s) :=
  (busRecovery_ends hl ho).andThen fun _ hinit =>
  (((hinit.startSignal.setPhase .started).sendDevAddr _ false).awaitAck rfl).andThen fun _ hdev =>
  ((hdev.setPhase .addrWritten).sendByte _ rfl).andThen fun _ haddr =>
  .ok ⟨haddr.setPhase .byteAddrSent, haddr.sda⟩

/-- READ_PREFIX (R181). -/
theorem readPrefixPart_ends (hl : Lines dev s) (ho : s.bus.openDrain) :
    Ends dev s (Listens dev dataPhases s) (readPrefixPart s) :=
  (prefixPart_ends hl ho).andThen fun _ hprefix =>
  ((hprefix.setPhase .dataPhase).startSignal.sendDevAddr _ true).awaitAck rfl

theorem writeByteBody_ends (hl : Lines dev s) (ho : s.bus.openDrain) :
    Ends dev s (Finishes dev s) (writeByteBody s) :=
  (prefixPart_ends hl ho).andThen fun _ hprefix =>
  ((hprefix.setPhase .dataPhase).sendByte _ rfl).andThen fun _ hdata => .ok hdata.stopSignal

theorem writePageBody_ends (hl : Lines dev s) (ho : s.bus.openDrain) :
    Ends dev s (Finishes dev s) (writePageBody s) :=
  (prefixPart_ends hl ho).andThen fun _ hprefix =>
  (Listens.sendBytes ⟨(hprefix.setPhase .dataPhase).setIdx 0, hprefix.sda⟩ rfl _ 0).andThen fun _ hdata =>
  .ok hdata.stopSignal

theorem readByteBody_ends (hl : Lines dev s) (ho : s.bus.openDrain) (hop : s.regs.op = .readByte) :
    Ends dev s (Finishes dev s) (readByteBody s) :=
  (readPrefixPart_ends hl ho).andThen fun _ hprefix => hprefix.receiveRbyte.endRead (.inl hop)

theorem readPageBody_ends (hl : Lines dev s) (ho : s.bus.openDrain) (hop : s.regs.op = .readPage)
    (hn : 1 ≤ s.regs.count) : Ends dev s (Finishes dev s) (readPageBody s) := by
  refine (readPrefixPart_ends hl ho).andThen fun t hprefix => ?_
  have hcount : t.regs.count = s.regs.count := (congrArg Regs.count hprefix.latches :)
  have hopt : t.regs.op = .readPage := (congrArg Regs.op hprefix.latches :).trans hop
  have hcleared : Advances dev dataPhases s (clearRbuf t) :=
    hprefix.act (ms := []) (clearRbuf_ran t) rfl fun hne => absurd hopt hne
  obtain ⟨n, hsucc⟩ := Nat.exists_eq_add_of_le' hn
  rw [hcount, hsucc]
  exact Listens.receiveBytes ⟨hcleared.setIdx 0, hprefix.sda⟩ hop n 0

end

/-! ## Whole commands -/

/-- A command that is accepted in `s`, its body run from the state `u` just after acceptance. -/
structure Commanded (i : Instr) (dev : Descriptor) (s u : State) (r : Res) : Prop where
  valid : dev.wf s.cfg.nlines = true
  answer : exec i s = endCommand r
  ends : Ends dev u (Finishes dev u) r
  accepted : ∃ op a ds n, u = accept dev op a ds n s
  lines : Lines dev u
  latches : u.regs.latches = (commandLatches i s.regs).latches
  reads : u.regs.op = .readByte ∨ u.regs.op = .readPage → isRead i = true
  page : u.regs.op = .readPage → ∃ dev a n, i = .readPage dev a n

/-- One case per command: the body that acceptance hands over to. -/
theorem exec_commanded {i : Instr} {s : State} {dev : Descriptor} {a : Byte} (ht : commandTarget i = some (dev, a))
    (hinv : s.Inv) (hw : i.wf s.cfg.nlines = true) : ∃ u r, Commanded i dev s u r := by
  have ho := hinv.openDrain
  cases i <;> simp only [commandTarget, reduceCtorEq, Option.some.injEq, Prod.mk.injEq] at ht
  case writeByte dev a d =>
    obtain ⟨rfl, rfl⟩ := ht
    have hl := accept_lines hinv.sized hw .writeByte a [d] s.regs.count
    exact ⟨_, _, hw, execWriteByte_eq a d hinv.idle hw, writeByteBody_ends hl ho, ⟨_, _, _, _, rfl⟩, hl, rfl,
      by simp, by simp⟩
  case writePage dev a data n =>
    obtain ⟨rfl, rfl⟩ := ht
    obtain ⟨hdev, hn⟩ : _ ∧ n ≤ data.length := by simpa [Instr.wf] using hw
    have hl := accept_lines hinv.sized hdev .writePage a data n
    exact ⟨_, _, hdev, execWritePage_eq a hinv.idle hdev hn, writePageBody_ends hl ho, ⟨_, _, _, _, rfl⟩, hl, rfl,
      by simp, by simp⟩
  case readByte dev a =>
    obtain ⟨rfl, rfl⟩ := ht
    have hl := accept_lines hinv.sized hw .readByte a s.regs.wdata s.regs.count
    exact ⟨_, _, hw, execReadByte_eq a hinv.idle hw, readByteBody_ends hl ho rfl, ⟨_, _, _, _, rfl⟩, hl, rfl,
      fun _ => rfl, by simp⟩
  case readPage dev a n =>
    obtain ⟨rfl, rfl⟩ := ht
    obtain ⟨hdev, hn⟩ : _ ∧ 1 ≤ n := by simpa [Instr.wf] using hw
    have hl := accept_lines hinv.sized hdev .readPage a s.regs.wdata n
    exact ⟨_, _, hdev, execReadPage_eq a hinv.idle hdev hn, readPageBody_ends hl ho rfl hn, ⟨_, _, _, _, rfl⟩, hl, rfl,
      fun _ => rfl, fun _ => ⟨_, _, _, rfl⟩⟩

/-- A command that answered a next state was accepted. -/
theorem exec_commanded_of_next {i : Instr} {s t : State} {dev : Descriptor} {a : Byte}
    (ht : commandTarget i = some (dev, a)) (hinv : s.Inv) (h : exec i s = .next t) : ∃ u r, Commanded i dev s u r :=
  exec_commanded ht hinv ((exec_completes_iff_accepted i s).1 ⟨t, h⟩).1

section
variable {i : Instr} {dev : Descriptor} {s u t : State} {r : Res}

/-- R32, R36: a command is a run on its two lines, its phases transitions of the table from Idle back to Idle. -/
theorem Commanded.run (h : Commanded i dev s u r) (ht : exec i s = .next t) :
    ∃ ms ps, Ran s t (marked dev ms) ps ∧ phasesAllowed .idle ps = true ∧ ps.getLast? = some .idle := by
  obtain ⟨-, hans, hends, ⟨op, a, ds, n, rfl⟩, -⟩ := h
  rw [hans] at ht
  cases hends with
  | ok hfin =>
    cases ht
    obtain ⟨ms, hran⟩ := hfin.ran
    exact ⟨ms, _, command_ok hran, rfl, rfl⟩
  | stuck hfail =>
    cases ht
    obtain ⟨m, hran⟩ := hfail.ran
    exact ⟨_, _, command_raised hran, rfl, rfl⟩
  | raised _ hfail =>
    cases ht
    obtain ⟨ms, m, seen, ps, hran, hps⟩ := hfail.ran
    exact ⟨_, _, command_raised hran, hps, by rw [← List.append_assoc, List.getLast?_concat]⟩

/-- R196, R211, R216: the four ways a command can end. -/
theorem Commanded.outcome (h : Commanded i dev s u r) (ht : exec i s = .next t) :
    (t.endedWell dev ∨ s.stuck t ∨ t.aborted dev .noAck ∨ (isRead i = true ∧ t.aborted dev .unexpectedAck)) ∧
      (s.bus.dirOf dev.sda = .float → t.bus.dirOf dev.sda = .float) := by
  obtain ⟨-, hans, hends, ⟨op, a, ds, n, rfl⟩, hl, -, hread, -⟩ := h
  rw [hans] at ht
  cases hends with
  | ok hfin =>
    cases ht
    exact ⟨.inl ⟨hfin.scl, hfin.sda, rfl, rfl, rfl⟩, fun _ => hfin.sda.1⟩
  | @stuck v hfail =>
    cases ht
    obtain ⟨m, hran⟩ := hfail.ran
    obtain ⟨hdir, hout⟩ := stuck_lines hran
    have hsame : v.bus.dirOf dev.sda = s.bus.dirOf dev.sda := by rw [Bus.dirOf, hdir]; rfl
    exact ⟨.inr (.inl ⟨hdir, hout, hfail.phase, hfail.ok, hfail.err⟩), hsame.trans⟩
  | raised hk hfail =>
    cases ht
    obtain ⟨ms, m, seen, ps, hran, -⟩ := hfail.ran
    have habort := aborted_of_ack hran hl hfail.phase hfail.ok hfail.err
    refine ⟨?_, fun _ => habort.2.1.1⟩
    rcases hk with rfl | ⟨hop, rfl⟩
    · exact .inr (.inr (.inl habort))
    · exact .inr (.inr (.inr ⟨hread hop, habort⟩))

/-- `Ended` from the latches, the flags and RBUF: every other lasting register is named in it. -/
theorem ended_of_latches {e : Option ErrKind} (hl : t.regs.latches = (commandLatches i s.regs).latches)
    (hp : t.regs.phase = .idle) (ho : t.regs.ok = e.isNone) (he : t.regs.err = e)
    (hb : e = none → (∀ dev a n, i ≠ .readPage dev a n) → t.regs.rbuf = s.regs.rbuf) : s.Ended i e t := by
  simp only [Regs.latches, Regs.lasting, Regs.mk.injEq] at hl
  refine ⟨?_, hb⟩
  simp [Regs.lasting, hl, hp, ho, he]

/-- The end of a command writes no operand latch. -/
theorem settleResults_latches (success : Bool) (r : Regs) : (settleResults success r).latches = r.latches := by
  simp only [Regs.latches, settleResults_lasting]

theorem settle_latches (success : Bool) (s : State) : (settle success s).regs.latches = s.regs.latches :=
  settleResults_latches success s.regs

theorem finishOk_latches (s : State) : (finishOk s).regs.latches = s.regs.latches := by
  rw [finishOk_regs, settleResults_latches]
  rfl

/-- R33: the latches as acceptance filled them, and the flags of some end. -/
theorem Commanded.ended (h : Commanded i dev s u r) (ht : exec i s = .next t) : ∃ e, s.Ended i e t := by
  obtain ⟨-, hans, hends, ⟨op, a, ds, n, hu⟩, -, hlatch, -, hpage⟩ := h
  rw [hans] at ht
  have hraise {v : State} {k : ErrKind} (hv : Raised k u v) : s.Ended i (some k) (settle false v) :=
    ended_of_latches (by rw [settle_latches, hv.latches, hlatch]) hv.phase hv.ok hv.err (by simp)
  cases hends with
  | @ok v hfin =>
    cases ht
    have hrbuf (hne : ∀ dev a n, i ≠ .readPage dev a n) : v.regs.rbuf = s.regs.rbuf := by
      rw [hfin.rbuf fun hop => by obtain ⟨dev', a', n', hi⟩ := hpage hop; exact hne dev' a' n' hi, hu, accept_regs]
    exact ⟨none, ended_of_latches (by rw [finishOk_latches, hfin.latches, hlatch]) rfl rfl rfl fun _ => hrbuf⟩
  | stuck hfail => cases ht; exact ⟨_, hraise hfail.toRaised⟩
  | raised _ hfail => cases ht; exact ⟨_, hraise hfail.toRaised⟩

end

/-- Settles O47: an accepted command is its body's end, and that is one of the four. -/
theorem everyCommandEnds : Obligations.EveryCommandEnds := by
  intro i s dev a ht hinv hw
  obtain ⟨u, r, h⟩ := exec_commanded ht hinv hw
  obtain ⟨t, hnext⟩ := endCommand_completes r
  have hexec := h.answer.trans hnext
  exact ⟨t, hexec, h.outcome hexec⟩

/-- Settles O48: the phases of the run a command is. -/
theorem phaseTransitions : Obligations.PhaseTransitions := by
  intro i s t dev a ht hinv hexec
  obtain ⟨u, r, h⟩ := exec_commanded_of_next ht hinv hexec
  obtain ⟨ms, ps, hran, hps, hlast⟩ := h.run hexec
  exact ⟨ps, hran.phases, hps, hlast⟩

/-- Settles O49: the run a command is has marks of its two lines only. -/
theorem onlyTheTwoLines : Obligations.OnlyTheTwoLines := by
  intro i s t dev a ht hinv hexec
  obtain ⟨u, r, h⟩ := exec_commanded_of_next ht hinv hexec
  obtain ⟨ms, ps, hran, -, -⟩ := h.run hexec
  exact ⟨ms, ps, hran.performed⟩

/-! ## The latched operands -/

theorem commandLatches_of_target {i : Instr} {dev : Descriptor} {a : Byte} (ht : commandTarget i = some (dev, a))
    (r : Regs) : (commandLatches i r).desc = dev ∧ (commandLatches i r).byteAddr = a ∧
      (commandLatches i r).devb = deviceByte dev := by
  cases i <;> simp only [commandTarget, reduceCtorEq, Option.some.injEq, Prod.mk.injEq] at ht
  case writeByte | writePage | readByte | readPage => exact ⟨ht.1, ht.2, congrArg deviceByte ht.1⟩

/-- R33, R65, R88: the latches of a command that has ended. -/
theorem State.Ended.target {i : Instr} {dev : Descriptor} {a : Byte} {e : Option ErrKind} {s t : State}
    (h : s.Ended i e t) (ht : commandTarget i = some (dev, a)) :
    t.regs.desc = dev ∧ t.regs.byteAddr = a ∧ t.regs.devb = deviceByte dev := by
  obtain ⟨hdesc, haddr, hdevb⟩ := commandLatches_of_target ht s.regs
  exact ⟨(congrArg Regs.desc h.registers :).trans hdesc, (congrArg Regs.byteAddr h.registers :).trans haddr,
    (congrArg Regs.devb h.registers :).trans hdevb⟩

/-- Settles O32: an ended command has the latches acceptance filled. -/
theorem commandLatchesOperands : Obligations.CommandLatchesOperands := by
  intro i s t dev a ht hinv hexec
  obtain ⟨u, r, h⟩ := exec_commanded_of_next ht hinv hexec
  obtain ⟨e, hended⟩ := h.ended hexec
  obtain ⟨hdesc, haddr, hdevb⟩ := hended.target ht
  exact ⟨hdesc, haddr, by rw [hdevb, deviceByte, BitVec.toNat_add], e, hended⟩

end Sys2Proof.Machine

/-!
SUPPORT. The invariant along steps: outside the registers it is kept by every run, and in the registers by what the
primitives and the commands leave in the latched descriptor and the flags.
-/

namespace Sys2Proof.Machine

/-- What an operation outside a command does to the registers the invariant speaks of: nothing, or a raise (R214). -/
structure KeepsFlags (r r' : Regs) : Prop where
  desc : r'.desc = r.desc
  flags : (r'.phase = r.phase ∧ r'.ok = r.ok ∧ r'.err = r.err) ∨
    (r'.phase = .idle ∧ r'.ok = false ∧ ∃ k, r'.err = some k)

theorem keepsFlags_of_eq {r r' : Regs} {sr : Byte} {bitIdx poll idx : Nat}
    (h : r' = { r with sr := sr, bitIdx := bitIdx, poll := poll, idx := idx }) : KeepsFlags r r' := by
  subst h
  exact ⟨rfl, .inl ⟨rfl, rfl, rfl⟩⟩

theorem keepsFlags_of_raise {r r' : Regs} {poll : Nat} {k : ErrKind}
    (h : r' = { r with poll := poll, ok := false, err := some k, phase := .idle }) : KeepsFlags r r' := by
  subst h
  exact ⟨rfl, .inr ⟨rfl, rfl, k, rfl⟩⟩

theorem Waited.keepsFlags {k : ErrKind} {s : State} {r : Res} (h : Waited k s r) :
    KeepsFlags s.regs r.state.regs := by
  cases h with
  | ok _ hregs => exact keepsFlags_of_eq hregs
  | raised _ hregs => exact keepsFlags_of_raise hregs

theorem Recovered.keepsFlags {s : State} {r : Res} (h : Recovered s r) : KeepsFlags s.regs r.state.regs := by
  cases h with
  | ok _ hregs => exact keepsFlags_of_eq hregs
  | raised _ hregs => exact keepsFlags_of_raise hregs

theorem State.Inv.shiftIn_keepsFlags {s : State} (hinv : s.Inv) (hf : s.bus.dirOf s.regs.desc.sda = .float) :
    KeepsFlags s.regs (shiftIn s).regs :=
  keepsFlags_of_eq (shiftIn_spec s hinv.latchedLines.distinct hf).2

theorem State.Inv.sendByteAddr_keepsFlags {s : State} (hinv : s.Inv) (a : Byte) :
    KeepsFlags s.regs (sendByteAddr a s).state.regs := by
  have hl : Lines s.regs.desc (shiftOut a s) := hinv.latchedLines.after (shiftOut_ran a s) (by simp)
  obtain ⟨hdesc, hflags⟩ := (waitAck_waited (shiftOut a s).cfg.tAck hl.latched).keepsFlags
  simp only [shiftOut_regs] at hdesc hflags
  exact ⟨hdesc, hflags⟩

/-- R20, R24: a run keeps what the invariant says outside the registers. -/
theorem State.Inv.of_reaches {s t : State} (hinv : s.Inv) (h : Reaches s t)
    (hlatch : t.regs.desc.wf s.cfg.nlines = true) (houtcome : t.regs.ok = true ↔ t.regs.err = none)
    (hidle : t.regs.phase = .idle) : t.Inv := by
  obtain ⟨as, ps, hran⟩ := h
  obtain ⟨hdir, hout, -⟩ := hinv.sized
  exact
    { lines := hran.cfg ▸ hinv.lines
      sized := hran.cfg ▸ hran.sized hinv.sized
      openDrain := hran.openDrain (hdir.trans hout.symm) hinv.openDrain
      latch := hran.cfg ▸ hlatch
      outcome := houtcome
      idle := hidle }

theorem State.Inv.of_keepsFlags {s t : State} (hinv : s.Inv) (h : Reaches s t) (k : KeepsFlags s.regs t.regs) :
    t.Inv := by
  obtain ⟨hdesc, ⟨hp, ho, he⟩ | ⟨hp, ho, kind, he⟩⟩ := k
  · exact hinv.of_reaches h (hdesc ▸ hinv.latch) (by rw [ho, he]; exact hinv.outcome) (hp.trans hinv.idle)
  · exact hinv.of_reaches h (hdesc ▸ hinv.latch) (by simp [ho, he]) hp

/-- R30, R33: the flags of a command that has ended. -/
theorem State.Ended.flags {i : Instr} {e : Option ErrKind} {s t : State} (h : s.Ended i e t) :
    t.regs.phase = .idle ∧ t.regs.ok = e.isNone ∧ t.regs.err = e :=
  ⟨(congrArg Regs.phase h.registers :), (congrArg Regs.ok h.registers :), (congrArg Regs.err h.registers :)⟩

/-- R27, R30, R33: a command leaves its own descriptor latched, the flags of its end and PHASE at Idle. -/
theorem State.Inv.of_command {i : Instr} {s t : State} {dev : Descriptor} {a : Byte} (hinv : s.Inv)
    (ht : commandTarget i = some (dev, a)) (hexec : exec i s = .next t) : t.Inv := by
  obtain ⟨u, r, h⟩ := exec_commanded_of_next ht hinv hexec
  obtain ⟨e, hended⟩ := h.ended hexec
  obtain ⟨hdesc, -, -⟩ := hended.target ht
  obtain ⟨hphase, hok, herr⟩ := hended.flags
  exact hinv.of_reaches (exec_reaches hexec) (hdesc.symm ▸ h.valid) (by simp [hok, herr]) hphase

theorem State.Inv.of_onLine {s t u : State} {l : Nat} (hinv : s.Inv) (hnext : onLine l s u = .next t)
    (h : Reaches s t) (k : KeepsFlags s.regs u.regs) : t.Inv :=
  hinv.of_keepsFlags h ((onLine_eq_next_iff.1 hnext).2 ▸ k)

theorem State.Inv.of_onLatchedLines {s t u : State} (hinv : s.Inv) (hnext : onLatchedLines s u = .next t)
    (h : Reaches s t) (k : KeepsFlags s.regs u.regs) : t.Inv :=
  hinv.of_keepsFlags h ((onLatchedLines_eq_next_iff.1 hnext).2 ▸ k)

/-- The invariant is kept by every operation that completes. -/
theorem State.Inv.of_exec {i : Instr} {s t : State} (hinv : s.Inv) (h : exec i s = .next t) : t.Inv := by
  have hreach := exec_reaches h
  have hl := hinv.latchedLines
  cases i with
  | regset l f => exact hinv.of_onLine h hreach (keepsFlags_of_eq (regSet_regs l f s))
  | regin l => exact hinv.of_onLine h hreach (keepsFlags_of_eq (regIn_regs l s))
  | drive l v => exact hinv.of_onLine h hreach (keepsFlags_of_eq (drive_regs l v s))
  | start => exact hinv.of_onLatchedLines h hreach (keepsFlags_of_eq (startSignal_regs s))
  | stop => exact hinv.of_onLatchedLines h hreach (keepsFlags_of_eq (stopSignal_regs s))
  | init => exact hinv.of_onLatchedLines h hreach (busRecovery_recovered hinv.openDrain).keepsFlags
  | shiftOut b => exact hinv.of_onLatchedLines h hreach (keepsFlags_of_eq (shiftOut_regs b s))
  | shiftIn =>
    obtain ⟨hf, -, rfl⟩ := execShiftIn_eq_next_iff.1 h
    exact hinv.of_keepsFlags hreach (hinv.shiftIn_keepsFlags hf)
  | waitAck n => exact hinv.of_onLatchedLines h hreach (waitAck_waited n hl).keepsFlags
  | waitNack n => exact hinv.of_onLatchedLines h hreach (waitNack_waited n hl).keepsFlags
  | masterAck => exact hinv.of_onLatchedLines h hreach (keepsFlags_of_eq (masterAck_regs s))
  | sendDevAddr d rw => exact hinv.of_onLatchedLines h hreach (keepsFlags_of_eq (sendDevAddr_regs d rw s))
  | sendByteAddr a => exact hinv.of_onLatchedLines h hreach (hinv.sendByteAddr_keepsFlags a)
  | writeByte | writePage | readByte | readPage => exact hinv.of_command rfl h

/-! ## Steps -/

/-- The invariant speaks of the parameters, the bus and the registers alone. -/
theorem State.Inv.congr {s t : State} (hinv : s.Inv) (hcfg : t.cfg = s.cfg) (hbus : t.bus = s.bus)
    (hregs : t.regs = s.regs) : t.Inv := by
  obtain ⟨hlines, hsized, hod, hlatch, hout, hidle⟩ := hinv
  constructor <;> simpa only [hcfg, hbus, hregs]

/-- Taking the next operation changes only the queues. -/
theorem nextOperation_inv {s t : State} {o : Except DecodeError Instr} (hinv : s.Inv)
    (h : nextOperation s = some (o, t)) : t.Inv := by
  unfold nextOperation at h
  split at h
  · split at h <;> cases h
    · exact hinv.congr rfl rfl rfl
    · exact hinv
  · cases h
    exact hinv.congr rfl rfl rfl
  · cases h

/-- What a step that answers a next state did: it waited, or an operation ran to its end. -/
theorem step_cases {s t : State} (h : step s = .next t) :
    t = s ∨ ∃ i u v, nextOperation s = some (.ok i, u) ∧ exec i u = .next v ∧ t = v.afterOperation i := by
  unfold step at h
  split at h
  · cases h
    exact .inl rfl
  · rename_i i u hnext
    split at h <;> cases h
    rename_i v hexec
    exact .inr ⟨i, u, v, hnext, hexec, rfl⟩
  · cases h

/-- Settles O3: waiting changes nothing, and an operation keeps the invariant, as do taking it and leaving it. -/
theorem stepKeepsInvariant : Obligations.StepKeepsInvariant := by
  intro s t hinv hstep
  rcases step_cases hstep with rfl | ⟨i, u, v, hnext, hexec, rfl⟩
  · exact hinv
  · have hv : v.Inv := (nextOperation_inv hinv hnext).of_exec hexec
    exact hv.congr (afterOperation_cfg v i) (afterOperation_bus v i) (afterOperation_regs v i)

end Sys2Proof.Machine

/-!
SUPPORT. The two register-model accesses (spec/20_memory.md) and the pad function: what REGSET and REGIN do.
-/

namespace Sys2Proof.Machine

/-- R24, R56: under the open-drain invariant a driven line is asserted low, so it reads 0. -/
theorem sampled_of_drive {s : State} {l : Nat} (ho : s.bus.openDrain) (hd : s.bus.dirOf l = .drive) :
    sampled l s = false :=
  sampled_of_assertedLow ⟨hd, by simpa [hd] using ho l⟩

theorem execRegset_eq {s : State} {l : Nat} (f : Direction) (hl : l < s.cfg.nlines) :
    exec (.regset l f) s = .next (regSet l f s) :=
  onLine_eq_next_iff.2 ⟨by simpa [lineOk] using hl, rfl⟩

theorem execRegin_eq {s : State} {l : Nat} (hl : l < s.cfg.nlines) : exec (.regin l) s = .next (regIn l s) :=
  onLine_eq_next_iff.2 ⟨by simpa [lineOk] using hl, rfl⟩

/-- R87, U6. -/
theorem onLine_refused {s t : State} {l : Nat} (hl : s.cfg.nlines ≤ l) : onLine l s t = .refused .lineOutOfRange := by
  simp [onLine, lineOk, Nat.not_lt.2 hl]

/-- Settles O11: the line is the one the single RegSet of the run names, and every other line keeps its state. -/
theorem regsetEffect : Obligations.RegsetEffect := by
  refine ⟨fun s l f hinv hl => ?_, fun s l f hl => onLine_refused hl⟩
  have hran := regSet_ran l f s
  obtain ⟨hdirs, houts, -⟩ := hinv.sized
  obtain ⟨hdir, hout⟩ := hran.lineAfter (as := []) (bs := []) (by omega) (by omega) (by simp)
  exact ⟨regSet l f s, execRegset_eq f hl, hdir, hout, fun l' hne => hran.lineSame (by simpa using Ne.symm hne),
    hran.accesses, by simpa using hran.phases, regSet_regs l f s, hran.cfg, hran.requests, hran.exposed, hran.opened,
    hran.lowAt⟩

/-- Settles O12: the level is the one a driven or a floated line reads, and a RegIn sets no line. -/
theorem reginEffect : Obligations.ReginEffect := by
  refine ⟨fun s l hinv hl => ?_, fun s l hl => onLine_refused hl⟩
  have hran := regIn_ran l s
  refine ⟨regIn l s, execRegin_eq hl, ?_, by simpa using hran.phases, hran.dir, hran.out, regIn_regs l s, hran.cfg,
    hran.requests, hran.exposed, hran.opened, hran.lowAt⟩
  rw [hran.accesses]
  cases hd : s.bus.dirOf l with
  | float => rw [sampled_of_float hd]
  | drive => rw [sampled_of_drive hinv.openDrain hd]

/-- A turn of the environment that changes no EXT_LOW bit changes nothing on the bus, `epoch` included (R51). -/
theorem envTurn_bus_eq_self {s : State} (h : ∀ l, s.lowAt 0 l = s.bus.pulled l) : (envTurn s).bus = s.bus := by
  have hlow : (envTurn s).bus.extLow = s.bus.extLow := by
    refine List.ext_getElem (envTurn_extLow_length s) fun l h1 h2 => ?_
    have hl := (envTurn_pulled s l).trans (h l)
    simpa only [Bus.pulled, List.getD_eq_getElem _ _ h1, List.getD_eq_getElem _ _ h2] using hl
  unfold envTurn at hlow ⊢
  split
  · rfl
  · rename_i c rest hscript
    simp only [hscript, happen_bus, apply_env_extLow] at hlow
    simp only [happen_bus, Event.apply, hlow, written_self]

/-- Settles O13: nothing changes on the bus between the two samples, so they read the same pad. -/
theorem repeatedReginAgrees : Obligations.RepeatedReginAgrees := by
  intro s l hl hsame
  have hran := regIn_ran l s
  have hbus : (envTurn (regIn l s)).bus = (regIn l s).bus := envTurn_bus_eq_self fun l' => by
    calc (regIn l s).lowAt 0 l' = s.lowAt 1 l' := hran.lowAt 0 l'
      _ = s.lowAt 0 l' := hsame l'
      _ = (regIn l s).bus.pulled l' := (envTurn_pulled s l').symm
  have hv : sampled l (regIn l s) = sampled l s := congrArg (Bus.pad · l) hbus
  refine ⟨regIn l s, regIn l (regIn l s), sampled l s, execRegin_eq hl, execRegin_eq (hran.cfg ▸ hl), ?_⟩
  rw [(regIn_ran l (regIn l s)).accesses, hran.accesses, hv, List.append_assoc, List.singleton_append]

/-- Settles O14: R53 line by line. -/
theorem padFunction : Obligations.PadFunction := by
  refine fun b l => ⟨fun ⟨hd, ho⟩ => ?_, fun ⟨hd, hp⟩ => ?_, fun ⟨hd, hp⟩ => pad_of_float hd hp,
    fun ⟨hd, ho, hp⟩ => ?_⟩
  · simp [Bus.pad, hd, ho]
  · simp [Bus.pad, hd, hp]
  · simp [Bus.pad, hd, ho, hp]

end Sys2Proof.Machine

/-!
SUPPORT. Two environments that do the same to the data line: a command takes the same accesses, the same levels read and
the same registers in both (spec/20_memory.md R56, spec/70_reset_and_hazards.md R262, R263). `Twins` is carried along
the sequence of a command's parts, one lemma per part.
-/

namespace Sys2Proof.Machine

/-- From `s` to `t` and from `s'` to `t'` the same accesses and phase changes happened, and `t'` differs from `t` in
nothing a command on `dev` depends on: EXT_LOW is to be the same on the data line alone. No line is driven high (R24), so
what a driven line reads does not depend on the environment. -/
structure Twins (dev : Descriptor) (s s' t t' : State) : Prop where
  ran : ∃ as ps, Ran s t as ps ∧ Ran s' t' as ps
  cfg : t'.cfg = t.cfg
  regs : t'.regs = t.regs
  dir : t'.bus.dir = t.bus.dir
  out : t'.bus.out = t.bus.out
  low : ∀ k, t'.lowAt k dev.sda = t.lowAt k dev.sda
  desc : t.regs.desc = dev
  sized : t.bus.dir.length = t.bus.out.length
  openDrain : t.bus.openDrain

/-- `Twins` of two results that come out the same way. -/
inductive TwinResults (dev : Descriptor) (s s' : State) : Res → Res → Prop where
  | ok {t t' : State} (h : Twins dev s s' t t') : TwinResults dev s s' (.ok t) (.ok t')
  | raised {t t' : State} (h : Twins dev s s' t t') : TwinResults dev s s' (.raised t) (.raised t')

section
variable {dev : Descriptor} {s s' t t' u u' : State} {as : List Access} {ps : List Phase}

/-! ## Extending two runs -/

/-- More of the same accesses in both runs. -/
theorem Twins.act (h : Twins dev s s' t t') (k : Ran t u as ps) (k' : Ran t' u' as ps) (hregs : u'.regs = u.regs)
    (hdesc : u.regs.desc = t.regs.desc) : Twins dev s s' u u' where
  ran := by
    obtain ⟨bs, qs, hran, hran'⟩ := h.ran
    exact ⟨_, _, hran.trans k, hran'.trans k'⟩
  cfg := by rw [k.cfg, k'.cfg, h.cfg]
  regs := hregs
  dir := by rw [k.dir, k'.dir, h.dir]
  out := by rw [k.out, k'.out, h.out]
  low := fun n => by rw [k.lowAt, k'.lowAt, h.low]
  desc := hdesc.trans h.desc
  sized := by rw [k.dir, k.out, dirAfter_length, outAfter_length, h.sized]
  openDrain := k.openDrain h.sized h.openDrain

/-- The same marks on the latched lines in both runs. -/
theorem Twins.marks {ms : List Mark} (h : Twins dev s s' t t') (k : Ran t u (marked t.regs.desc ms) ps)
    (k' : Ran t' u' (marked t'.regs.desc ms) ps) (hregs : u'.regs = u.regs) (hdesc : u.regs.desc = t.regs.desc) :
    Twins dev s s' u u' :=
  h.act k (h.regs ▸ k') hregs hdesc

/-- The same change of the registers alone. -/
theorem Twins.withRegs {r r' : Regs} (h : Twins dev s s' t t') (hregs : r' = r) (hdesc : r.desc = t.regs.desc) :
    Twins dev s s' { t with regs := r } { t' with regs := r' } :=
  h.act (ran_regs t r) (ran_regs t' r') hregs hdesc

theorem Twins.setPhase (h : Twins dev s s' t t') (p : Phase) : Twins dev s s' (setPhase p t) (setPhase p t') :=
  h.act (setPhase_ran p t) (setPhase_ran p t') (by simp [h.regs]) rfl

theorem Twins.setSr (h : Twins dev s s' t t') {b b' : Byte} (hb : b' = b) : Twins dev s s' (setSr b t) (setSr b' t') :=
  h.withRegs (by rw [h.regs, hb]) rfl

theorem Twins.setBitIdx (h : Twins dev s s' t t') (n : Nat) : Twins dev s s' (setBitIdx n t) (setBitIdx n t') :=
  h.withRegs (by rw [h.regs]) rfl

theorem Twins.setIdx (h : Twins dev s s' t t') (n : Nat) : Twins dev s s' (setIdx n t) (setIdx n t') :=
  h.withRegs (by rw [h.regs]) rfl

theorem Twins.clearRbuf (h : Twins dev s s' t t') : Twins dev s s' (clearRbuf t) (clearRbuf t') :=
  h.withRegs (by rw [h.regs]) rfl

theorem Twins.clearPoll (h : Twins dev s s' t t') : Twins dev s s' (clearPoll t) (clearPoll t') :=
  h.withRegs (by rw [h.regs]) rfl

theorem Twins.countSample (h : Twins dev s s' t t') : Twins dev s s' (countSample t) (countSample t') :=
  h.withRegs (by rw [h.regs]) rfl

theorem Twins.raiseError (h : Twins dev s s' t t') (k : ErrKind) :
    Twins dev s s' (raiseError k t) (raiseError k t') :=
  h.act (raiseError_ran k t) (raiseError_ran k t') (by simp [h.regs]) rfl

/-! ## Accesses -/

theorem Twins.driveScl (h : Twins dev s s' t t') (v : Level) : Twins dev s s' (driveScl v t) (driveScl v t') :=
  h.marks (driveScl_ran v t) (driveScl_ran v t') (by simp [h.regs]) (by simp)

theorem Twins.driveSda (h : Twins dev s s' t t') (v : Level) : Twins dev s s' (driveSda v t) (driveSda v t') :=
  h.marks (driveSda_ran v t) (driveSda_ran v t') (by simp [h.regs]) (by simp)

/-- R56: a floated line reads what the environment does to it, a driven one 0. -/
theorem Twins.sampled (h : Twins dev s s' t t') :
    sampled t'.regs.desc.sda t' = sampled t.regs.desc.sda t := by
  have hdir : t'.bus.dirOf dev.sda = t.bus.dirOf dev.sda := by simp only [Bus.dirOf, h.dir]
  have hout : t'.bus.outOf dev.sda = t.bus.outOf dev.sda := by simp only [Bus.outOf, h.out]
  rw [h.regs, h.desc]
  cases hd : t.bus.dirOf dev.sda with
  | float => rw [sampled_of_float hd, sampled_of_float (hdir.trans hd), h.low]
  | drive =>
    have hlow : t.bus.assertedLow dev.sda := ⟨hd, by simpa [hd] using h.openDrain dev.sda⟩
    rw [sampled_of_assertedLow hlow, sampled_of_assertedLow ⟨hdir.trans hd, hout.trans hlow.2⟩]

theorem Twins.regIn (h : Twins dev s s' t t') :
    Twins dev s s' (regIn t.regs.desc.sda t) (regIn t'.regs.desc.sda t') := by
  have k' := regIn_ran t'.regs.desc.sda t'
  rw [h.sampled, h.regs] at k'
  exact h.act (regIn_ran _ t) (h.regs ▸ k') (by simp [h.regs]) (by simp)

/-! ## Primitives -/

theorem Twins.startSignal (h : Twins dev s s' t t') : Twins dev s s' (startSignal t) (startSignal t') :=
  h.marks (startSignal_ran t) (startSignal_ran t') (by simp [h.regs]) (by simp)

theorem Twins.stopSignal (h : Twins dev s s' t t') : Twins dev s s' (stopSignal t) (stopSignal t') :=
  h.marks (stopSignal_ran t) (stopSignal_ran t') (by simp [h.regs]) (by simp)

theorem Twins.masterAck (h : Twins dev s s' t t') : Twins dev s s' (masterAck t) (masterAck t') :=
  h.marks (masterAck_ran t) (masterAck_ran t') (by simp [h.regs]) (by simp)

theorem Twins.shiftOut (h : Twins dev s s' t t') {b b' : Byte} (hb : b' = b) :
    Twins dev s s' (shiftOut b t) (shiftOut b' t') :=
  hb ▸ h.marks (shiftOut_ran _ t) (shiftOut_ran _ t') (by simp [h.regs]) (by simp)

theorem Twins.sendDevAddr (h : Twins dev s s' t t') {d d' : Byte} (hd : d' = d) (rw : Bool) :
    Twins dev s s' (sendDevAddr d rw t) (sendDevAddr d' rw t') :=
  hd ▸ h.marks (sendDevAddr_ran _ rw t) (sendDevAddr_ran _ rw t') (by simp [h.regs]) (by simp)

/-- R127, R152: the samples of two polls agree one by one, so both end at the same one. -/
theorem Twins.pollSda (h : Twins dev s s' t t') (want : Level) (n : Nat) :
    (pollSda want n t').1 = (pollSda want n t).1 ∧ Twins dev s s' (pollSda want n t).2 (pollSda want n t').2 := by
  induction n generalizing t t' with
  | zero => exact ⟨rfl, h⟩
  | succ n ih =>
    have hnext := h.regIn.countSample
    simp only [Machine.pollSda, h.sampled]
    split
    · exact ⟨rfl, hnext⟩
    · exact ih hnext

theorem Twins.pollFrom0 (h : Twins dev s s' t t') (want : Level) (n : Nat) :
    (pollFrom0 want n t').1 = (pollFrom0 want n t).1 ∧
      Twins dev s s' (pollFrom0 want n t).2 (pollFrom0 want n t').2 :=
  h.clearPoll.pollSda want n

theorem Twins.ackPulse (h : Twins dev s s' t t') (n : Nat) :
    (ackPulse n t').1 = (ackPulse n t).1 ∧ Twins dev s s' (ackPulse n t).2 (ackPulse n t').2 := by
  obtain ⟨hseen, hpoll⟩ := ((h.driveSda true).driveScl true).pollFrom0 false n
  exact ⟨hseen, hpoll.driveScl false⟩

theorem Twins.waitAck (h : Twins dev s s' t t') (n : Nat) : TwinResults dev s s' (waitAck n t) (waitAck n t') := by
  obtain ⟨hseen, hpulse⟩ := h.ackPulse n
  simp only [Machine.waitAck, hseen]
  split
  · exact .ok hpulse
  · exact .raised (hpulse.raiseError .noAck)

theorem Twins.waitNack (h : Twins dev s s' t t') (n : Nat) :
    TwinResults dev s s' (waitNack n t) (waitNack n t') := by
  obtain ⟨hseen, hpulse⟩ := h.ackPulse n
  simp only [Machine.waitNack, hseen]
  split
  · exact .raised (hpulse.raiseError .unexpectedAck)
  · exact .ok hpulse

theorem Twins.busRecovery (h : Twins dev s s' t t') : TwinResults dev s s' (busRecovery t) (busRecovery t') := by
  obtain ⟨hseen, hpoll⟩ := h.pollFrom0 true t.cfg.tInit
  simp only [Machine.busRecovery, h.cfg, hseen]
  split
  · exact .ok hpoll.stopSignal
  · exact .raised (hpoll.raiseError .busStuckLow)

/-! ## Received bytes -/

theorem Twins.receiveBit (h : Twins dev s s' t t') (i : Nat) : Twins dev s s' (receiveBit i t) (receiveBit i t') := by
  have hclock := h.driveScl true
  have hsample := hclock.regIn
  exact (hsample.setSr (by rw [hsample.regs, hclock.sampled])).driveScl false

theorem Twins.receiveBits (h : Twins dev s s' t t') (n : Nat) :
    Twins dev s s' (receiveBits n t) (receiveBits n t') := by
  induction n generalizing t t' with
  | zero => exact h
  | succ n ih => exact ih ((h.setBitIdx n).receiveBit n)

theorem Twins.shiftIn (h : Twins dev s s' t t') : Twins dev s s' (shiftIn t) (shiftIn t') :=
  (h.setSr rfl).receiveBits 8

theorem Twins.receiveRbyte (h : Twins dev s s' t t') : Twins dev s s' (receiveRbyte t) (receiveRbyte t') :=
  h.shiftIn.withRegs (by rw [h.shiftIn.regs]) rfl

theorem Twins.receiveIntoRbuf (h : Twins dev s s' t t') (i : Nat) :
    Twins dev s s' (receiveIntoRbuf i t) (receiveIntoRbuf i t') :=
  (h.setIdx i).shiftIn.withRegs (by rw [(h.setIdx i).shiftIn.regs]) rfl

/-! ## Parts of a command -/

/-- R214(3): the next part is performed in both runs or in neither. -/
theorem TwinResults.andThen {r r' : Res} {f f' : State → Res} (h : TwinResults dev s s' r r')
    (k : ∀ t t', Twins dev s s' t t' → TwinResults dev s s' (f t) (f' t')) :
    TwinResults dev s s' (r.andThen f) (r'.andThen f') := by
  cases h with
  | ok h => exact k _ _ h
  | raised h => exact .raised h

theorem Twins.awaitAck (h : Twins dev s s' t t') : TwinResults dev s s' (awaitAck t) (awaitAck t') := by
  rw [Machine.awaitAck, Machine.awaitAck, h.cfg]
  exact h.waitAck _

theorem Twins.sendByte (h : Twins dev s s' t t') {b b' : Byte} (hb : b' = b) :
    TwinResults dev s s' (sendByte b t) (sendByte b' t') :=
  (h.shiftOut hb).awaitAck

theorem Twins.sendBytes (h : Twins dev s s' t t') (bs : List Byte) (i : Nat) :
    TwinResults dev s s' (sendBytes bs i t) (sendBytes bs i t') := by
  induction bs generalizing i t t' with
  | nil => exact .ok h
  | cons b bs ih => exact ((h.setIdx i).sendByte rfl).andThen fun _ _ hu => ih hu (i + 1)

theorem Twins.endRead (h : Twins dev s s' t t') : TwinResults dev s s' (endRead t) (endRead t') := by
  rw [Machine.endRead, Machine.endRead, h.cfg]
  exact (h.waitNack _).andThen fun _ _ hu => .ok hu.stopSignal

theorem Twins.receiveBytes (h : Twins dev s s' t t') (n i : Nat) :
    TwinResults dev s s' (receiveBytes n i t) (receiveBytes n i t') := by
  fun_induction Machine.receiveBytes n i t generalizing t' with
  | case1 _ t => exact .ok h
  | case2 i t => exact ((h.receiveIntoRbuf i).driveSda true).endRead
  | case3 n i t ih => exact ih (h.receiveIntoRbuf i).masterAck

theorem Twins.prefixPart (h : Twins dev s s' t t') : TwinResults dev s s' (prefixPart t) (prefixPart t') :=
  h.busRecovery.andThen fun _ _ hinit =>
  ((hinit.startSignal.setPhase .started).sendDevAddr (congrArg Regs.devb hinit.regs) false).awaitAck.andThen
    fun _ _ hdev =>
  ((hdev.setPhase .addrWritten).sendByte (congrArg Regs.byteAddr hdev.regs)).andThen fun _ _ haddr =>
  .ok (haddr.setPhase .byteAddrSent)

theorem Twins.readPrefixPart (h : Twins dev s s' t t') :
    TwinResults dev s s' (readPrefixPart t) (readPrefixPart t') :=
  h.prefixPart.andThen fun _ _ hprefix =>
  have hstart := (hprefix.setPhase .dataPhase).startSignal
  (hstart.sendDevAddr (congrArg Regs.devb hstart.regs) true).awaitAck

/-! ## Whole commands -/

theorem Twins.writeByteBody (h : Twins dev s s' t t') :
    TwinResults dev s s' (writeByteBody t) (writeByteBody t') :=
  h.prefixPart.andThen fun _ _ hprefix =>
  ((hprefix.setPhase .dataPhase).sendByte (by rw [hprefix.regs])).andThen fun _ _ hdata => .ok hdata.stopSignal

theorem Twins.writePageBody (h : Twins dev s s' t t') :
    TwinResults dev s s' (writePageBody t) (writePageBody t') :=
  h.prefixPart.andThen fun u u' hprefix => by
    rw [hprefix.regs]
    exact (((hprefix.setPhase .dataPhase).setIdx 0).sendBytes _ 0).andThen fun _ _ hdata => .ok hdata.stopSignal

theorem Twins.readByteBody (h : Twins dev s s' t t') : TwinResults dev s s' (readByteBody t) (readByteBody t') :=
  h.readPrefixPart.andThen fun _ _ hprefix => hprefix.receiveRbyte.endRead

theorem Twins.readPageBody (h : Twins dev s s' t t') : TwinResults dev s s' (readPageBody t) (readPageBody t') :=
  h.readPrefixPart.andThen fun _ _ hprefix => by
    rw [hprefix.regs]
    exact (hprefix.clearRbuf.setIdx 0).receiveBytes _ 0

/-- The free read results of the end (U9, U10) are functions of the registers (log 8). -/
theorem TwinResults.endCommand {r r' : Res} (h : TwinResults dev s s' r r') (hnext : endCommand r = .next t) :
    ∃ t', endCommand r' = .next t' ∧ Twins dev s s' t t' := by
  cases h with
  | @ok v v' h =>
    cases hnext
    exact ⟨finishOk v', rfl, h.act (finishOk_ran v) (finishOk_ran v') (by simp [h.regs]) rfl⟩
  | @raised v v' h =>
    cases hnext
    exact ⟨settle false v', rfl, h.act (settle_ran false v) (settle_ran false v') (by simp [h.regs]) rfl⟩

/-- Two states just after the acceptance of one command. -/
theorem accept_twins (hinv : s.Inv) (hcfg : s'.cfg = s.cfg) (hregs : s'.regs = s.regs)
    (hdir : s'.bus.dir = s.bus.dir) (hout : s'.bus.out = s.bus.out)
    (hlow : ∀ k, s'.lowAt k dev.sda = s.lowAt k dev.sda) (op : CmdOp) (a : Byte) (ds : List Byte) (n : Nat) :
    Twins dev s s' (accept dev op a ds n s) (accept dev op a ds n s') where
  ran := ⟨_, _, accept_ran dev op a ds n s, accept_ran dev op a ds n s'⟩
  cfg := hcfg
  regs := by simp [hregs]
  dir := hdir
  out := hout
  low := hlow
  desc := rfl
  sized := hinv.sized.1.trans hinv.sized.2.1.symm
  openDrain := hinv.openDrain

end

/-- Each command is acceptance, a body that keeps `Twins`, and the end; the operands acceptance latches are the
command's or, where it has none, the registers' own (log 16). -/
theorem exec_body_twins {i : Instr} {dev : Descriptor} {a : Byte} (ht : commandTarget i = some (dev, a)) :
    ∃ (op : CmdOp) (ds : Regs → List Byte) (n : Regs → Nat) (body : State → Res),
      (∀ s : State, s.regs.phase = .idle → i.wf s.cfg.nlines = true →
        exec i s = endCommand (body (accept dev op a (ds s.regs) (n s.regs) s))) ∧
      ∀ s s' t t' : State, Twins dev s s' t t' → TwinResults dev s s' (body t) (body t') := by
  cases i <;> simp only [commandTarget, reduceCtorEq, Option.some.injEq, Prod.mk.injEq] at ht
  case writeByte dev a d =>
    obtain ⟨rfl, rfl⟩ := ht
    exact ⟨.writeByte, fun _ => [d], Regs.count, writeByteBody, fun s hp hw => execWriteByte_eq a d hp hw,
      fun _ _ _ _ => Twins.writeByteBody⟩
  case writePage dev a data count =>
    obtain ⟨rfl, rfl⟩ := ht
    refine ⟨.writePage, fun _ => data, fun _ => count, writePageBody, fun s hp hw => ?_,
      fun _ _ _ _ => Twins.writePageBody⟩
    obtain ⟨hdev, hn⟩ : dev.wf s.cfg.nlines = true ∧ count ≤ data.length := by simpa [Instr.wf] using hw
    exact execWritePage_eq a hp hdev hn
  case readByte dev a =>
    obtain ⟨rfl, rfl⟩ := ht
    exact ⟨.readByte, Regs.wdata, Regs.count, readByteBody, fun s hp hw => execReadByte_eq a hp hw,
      fun _ _ _ _ => Twins.readByteBody⟩
  case readPage dev a count =>
    obtain ⟨rfl, rfl⟩ := ht
    refine ⟨.readPage, Regs.wdata, fun _ => count, readPageBody, fun s hp hw => ?_,
      fun _ _ _ _ => Twins.readPageBody⟩
    obtain ⟨hdev, hn⟩ : dev.wf s.cfg.nlines = true ∧ 1 ≤ count := by simpa [Instr.wf] using hw
    exact execReadPage_eq a hp hdev hn

/-- Settles O51: the two states are twins after acceptance, and every part of a command keeps them so. -/
theorem onlyTheDataLineMatters : Obligations.OnlyTheDataLineMatters := by
  intro i s s' t dev a ht hinv hinv' hcfg hregs hdir hout hlow hexec
  obtain ⟨op, ds, n, body, hbody, htwins⟩ := exec_body_twins ht
  have hw : i.wf s.cfg.nlines = true := ((exec_completes_iff_accepted i s).1 ⟨t, hexec⟩).1
  rw [hbody s hinv.idle hw] at hexec
  obtain ⟨t', hexec', h⟩ :=
    (htwins s s' _ _ (accept_twins hinv hcfg hregs hdir hout hlow op a (ds s.regs) (n s.regs))).endCommand hexec
  obtain ⟨as, ps, hran, hran'⟩ := h.ran
  refine ⟨t', as, ?_, h.regs, h.dir, h.out, hran.accesses, hran'.accesses⟩
  rw [hbody s' hinv'.idle (hcfg ▸ hw), hregs]
  exact hexec'

end Sys2Proof.Machine

/-!
SUPPORT. The commands whose every poll is answered (spec/45_transactions.md R185 to R193, R196): what the body of each
does after acceptance, and from that what the command does.
-/

namespace Sys2Proof.Machine

/-- From `s` the command succeeds with the accesses `ms`, leaving `t` (R182, R183, R196). -/
structure Succeeds (i : Instr) (dev : Descriptor) (ms : List Mark) (s t : State) : Prop where
  next : exec i s = .next t
  performed :
    s.Performed dev ms [.busCheck, .started, .addrWritten, .byteAddrSent, .dataPhase, .stopped, .idle] t
  endedWell : t.endedWell dev
  ended : s.Ended i none t

section
variable {dev : Descriptor} {s t : State}

theorem Ran.seenInTime_iff {as : List Access} {ps : List Phase} (h : Ran s t as ps) (l k n m : Nat) (want : Level) :
    seenInTime t l want k n m ↔ seenInTime s l want (as.length + k) n m := by
  simp only [seenInTime, h.seenAfter_iff]

/-! ## Bodies -/

/-- PREFIX of a write, and `DataPhase` (R185, R187). -/
theorem toData_ok (m0 m1 m2 : Nat) (hl : Lines dev s) (hf : s.bus.dirOf dev.sda = .float)
    (h : prefixAnswered s dev.sda m0 m1 m2) :
    ∃ u, prefixPart s = .ok u ∧
      Ran s (setPhase .dataPhase u) (marked dev (prefixMarks s.regs.devb s.regs.byteAddr m0 m1 m2)) dataPhases ∧
      Lines dev (setPhase .dataPhase u) ∧
      (setPhase .dataPhase u).regs.lasting = { s.regs.lasting with phase := .dataPhase } := by
  obtain ⟨u, hu, hran, hlines, hregs⟩ := prefixPart_ok m0 m1 m2 s hl hf h
  refine ⟨u, hu, by simpa using hran.trans (setPhase_ran .dataPhase u), hlines.after (setPhase_ran _ u) rfl, ?_⟩
  exact congrArg (fun r : Regs => { r with phase := Phase.dataPhase }) hregs

theorem writeByteBody_ok (m0 m1 m2 m3 : Nat) (hl : Lines dev s) (hf : s.bus.dirOf dev.sda = .float)
    (h : prefixAnswered s dev.sda m0 m1 m2)
    (hdata : seenInTime s dev.sda false (m0 + m1 + m2 + 91) s.cfg.tAck m3) :
    ∃ u, writeByteBody s = .ok u ∧
      Ran s u (marked dev (prefixMarks s.regs.devb s.regs.byteAddr m0 m1 m2 ++ frameMarks (s.regs.wdata.headD 0) ++
        ackMarks m3 true ++ stopMarks)) dataPhases ∧
      u.regs.lasting = { s.regs.lasting with phase := .dataPhase } := by
  obtain ⟨p, hp, hran, hlines, hregs⟩ := toData_ok m0 m1 m2 hl hf h
  have hwdata : p.regs.wdata = s.regs.wdata := (congrArg Regs.wdata hregs :)
  obtain ⟨v, hv, hsend, hlv, hlast⟩ := sendByte_seen (s.regs.wdata.headD 0) m3 _ hlines
    (by rw [hran.cfg, hran.seenInTime_iff]; simpa using hdata)
  have hstop := stopSignal_ran v
  rw [hlv.desc] at hstop
  refine ⟨stopSignal v, by simp only [writeByteBody, hp, andThen_ok, hwdata, hv],
    by simpa using (hran.more hsend).more hstop, ?_⟩
  rw [stopSignal_regs, hlast, hregs]

theorem writePageBody_ok (m0 m1 m2 : Nat) (ms : List Nat) (hl : Lines dev s) (hf : s.bus.dirOf dev.sda = .float)
    (h : prefixAnswered s dev.sda m0 m1 m2) (hn : ms.length = (pageData s.regs.wdata s.regs.count).length)
    (hdata : allAcknowledged s dev.sda s.cfg.tAck (m0 + m1 + m2 + 65) ms) :
    ∃ u, writePageBody s = .ok u ∧
      Ran s u (marked dev (prefixMarks s.regs.devb s.regs.byteAddr m0 m1 m2 ++
        writtenMarks (pageData s.regs.wdata s.regs.count) ms ++ stopMarks)) dataPhases ∧
      u.regs.lasting = { s.regs.lasting with phase := .dataPhase } := by
  obtain ⟨p, hp, hran, hlines, hregs⟩ := toData_ok m0 m1 m2 hl hf h
  have hwdata : p.regs.wdata = s.regs.wdata := (congrArg Regs.wdata hregs :)
  have hcount : p.regs.count = s.regs.count := (congrArg Regs.count hregs :)
  have hidx := hran.finished (setIdx_ran 0 _)
  obtain ⟨v, hv, hsend, hlv, hlast⟩ := sendBytes_ok (pageData s.regs.wdata s.regs.count) ms 0
    (setIdx 0 (setPhase .dataPhase p)) (hlines.after (setIdx_ran 0 _) rfl) hn
    (by rw [hidx.cfg, hidx.allAcknowledged_iff]; simpa using hdata)
  have hstop := stopSignal_ran v
  rw [hlv.desc] at hstop
  refine ⟨stopSignal v, by simp [writePageBody, hp, hwdata, hcount, hv],
    by simpa using (hidx.more hsend).more hstop, ?_⟩
  rw [stopSignal_regs, hlast]
  exact hregs

/-- The end of a read, after a run `s` to `t`. -/
theorem endRead_never_after {ms : List Mark} {ps : List Phase} (hran : Ran s t (marked dev ms) ps) (hl : Lines dev t)
    (h : neverSeen s dev.sda false (ms.length + 2) s.cfg.tNack) :
    ∃ u, endRead t = .ok u ∧ Ran s u (marked dev (ms ++ ackMarks s.cfg.tNack false ++ stopMarks)) ps ∧
      u.regs.lasting = t.regs.lasting := by
  obtain ⟨u, hu, hend, hlast⟩ := endRead_never t hl (by rw [hran.cfg, hran.neverSeen_iff]; simpa using h)
  exact ⟨u, hu, by simpa [hran.cfg] using hran.more hend, hlast⟩

theorem readByteBody_ok (m0 m1 m2 m3 : Nat) (hl : Lines dev s) (hf : s.bus.dirOf dev.sda = .float)
    (h : readPrefixAnswered s dev.sda m0 m1 m2 m3)
    (hsilent : neverSeen s dev.sda false (m0 + m1 + m2 + m3 + 123) s.cfg.tNack) :
    ∃ u, readByteBody s = .ok u ∧
      Ran s u (marked dev (readPrefixMarks s.regs.devb s.regs.byteAddr m0 m1 m2 m3 ++
        receivedMarks (levelsAhead s dev.sda (m0 + m1 + m2 + m3 + 97)) ++ ackMarks s.cfg.tNack false ++ stopMarks))
        dataPhases ∧
      u.regs.lasting =
        { s.regs.lasting with
          phase := .dataPhase
          rbyte := byteOfBits (levelsAhead s dev.sda (m0 + m1 + m2 + m3 + 97)) } := by
  obtain ⟨p, hp, hran, hlines, hsda, hregs⟩ := readPrefixPart_ok m0 m1 m2 m3 s hl hf h
  obtain ⟨hreceive, hlast⟩ := receiveRbyte_spec p hlines hsda
  have hlevels : levelsAhead p dev.sda 0 = levelsAhead s dev.sda (m0 + m1 + m2 + m3 + 97) := by
    rw [hran.levelsAhead_eq]; simp
  rw [hlevels] at hreceive hlast
  have hall := hran.more hreceive
  obtain ⟨u, hu, hend, hlast'⟩ := endRead_never_after hall
    (hlines.after hreceive (congrArg Regs.desc hlast :)) (by simpa using hsilent)
  refine ⟨u, by simp [readByteBody, hp, hu], by simpa using hend, ?_⟩
  rw [hlast', hlast, hregs]

theorem readPageBody_ok (m0 m1 m2 m3 : Nat) (hl : Lines dev s) (hf : s.bus.dirOf dev.sda = .float)
    (hn : 1 ≤ s.regs.count) (h : readPrefixAnswered s dev.sda m0 m1 m2 m3)
    (hsilent : neverSeen s dev.sda false (m0 + m1 + m2 + m3 + 96 + 28 * s.regs.count) s.cfg.tNack) :
    ∃ u, readPageBody s = .ok u ∧
      Ran s u (marked dev (readPrefixMarks s.regs.devb s.regs.byteAddr m0 m1 m2 m3 ++
        pageReadMarks (pageLevelsAhead s dev.sda (m0 + m1 + m2 + m3 + 97) s.regs.count) ++ [.d true] ++
        ackMarks s.cfg.tNack false ++ stopMarks)) dataPhases ∧
      u.regs.lasting =
        { s.regs.lasting with
          phase := .dataPhase
          rbuf := (pageLevelsAhead s dev.sda (m0 + m1 + m2 + m3 + 97) s.regs.count).map byteOfBits } := by
  obtain ⟨p, hp, hran, hlines, hsda, hregs⟩ := readPrefixPart_ok m0 m1 m2 m3 s hl hf h
  obtain ⟨n, hcount⟩ := Nat.exists_eq_add_of_le' hn
  have hpcount : p.regs.count = n + 1 := (congrArg Regs.count hregs :).trans hcount
  rw [hcount] at hsilent ⊢
  have hidx := (hran.finished (clearRbuf_ran p)).finished (setIdx_ran 0 _)
  obtain ⟨v, hv, hreceive, hlv, hlast⟩ := receiveBytes_toEnd n 0 (setIdx 0 (clearRbuf p))
    ((hlines.after (clearRbuf_ran p) rfl).after (setIdx_ran 0 _) rfl) hsda
  have hlevels : pageLevelsAhead (setIdx 0 (clearRbuf p)) dev.sda 0 (n + 1) =
      pageLevelsAhead s dev.sda (m0 + m1 + m2 + m3 + 97) (n + 1) := by
    rw [hidx.pageLevelsAhead_eq]; simp
  rw [hlevels] at hreceive hlast
  obtain ⟨u, hu, hend, hlast'⟩ := endRead_never_after (hidx.more hreceive) hlv (by
    convert hsilent using 1
    simp
    omega)
  refine ⟨u, by simp [readPageBody, hp, hpcount, hv, hu], by simpa using hend, ?_⟩
  rw [hlast', hlast]
  exact congrArg (fun r : Regs => { r with
    rbuf := (pageLevelsAhead s dev.sda (m0 + m1 + m2 + m3 + 97) (n + 1)).map byteOfBits }) hregs

/-! ## Whole commands -/

/-- A command whose body came to its STOP: what the body leaves in the registers is what acceptance latched, but for
the read results. -/
theorem succeeds_of_body {i : Instr} {op : CmdOp} {a : Byte} {ds : List Byte} {n : Nat} {u : State} {r : Res}
    {ms : List Mark} (hl : Lines dev (accept dev op a ds n s)) (hexec : exec i s = endCommand r) (hr : r = .ok u)
    (hran : Ran (accept dev op a ds n s) u (marked dev (ms ++ stopMarks)) dataPhases)
    (hregs : ∃ p b1 b2,
      u.regs.lasting = ({ commandLatches i s.regs with phase := p, rbyte := b1, rbuf := b2 }).lasting ∧
        ((∀ dev a n, i ≠ .readPage dev a n) → b2 = s.regs.rbuf)) :
    Succeeds i dev (ms ++ stopMarks) s (finishOk u) where
  next := by rw [hexec, hr]; rfl
  performed := (command_ok hran).performed
  endedWell := endedWell_of_stop hran hl
  ended := ended_ok hregs

theorem writeByte_succeeds (a d : Byte) (m0 m1 m2 m3 : Nat) (hinv : s.Inv) (hw : dev.wf s.cfg.nlines = true)
    (hf : s.bus.dirOf dev.sda = .float) (h : prefixAnswered s dev.sda m0 m1 m2)
    (hdata : seenInTime s dev.sda false (m0 + m1 + m2 + 91) s.cfg.tAck m3) :
    ∃ t, Succeeds (.writeByte dev a d) dev
      (prefixMarks (deviceByte dev) a m0 m1 m2 ++ frameMarks d ++ ackMarks m3 true ++ stopMarks) s t := by
  have hl := accept_lines hinv.sized hw .writeByte a [d] s.regs.count
  obtain ⟨u, hu, hran, hregs⟩ := writeByteBody_ok m0 m1 m2 m3 hl hf h hdata
  exact ⟨_, succeeds_of_body hl (execWriteByte_eq a d hinv.idle hw) hu hran
    ⟨.dataPhase, s.regs.rbyte, s.regs.rbuf, hregs, fun _ => rfl⟩⟩

theorem writePage_succeeds (a : Byte) (data : List Byte) (count m0 m1 m2 : Nat) (ms : List Nat) (hinv : s.Inv)
    (hw : dev.wf s.cfg.nlines = true) (hcount : count ≤ data.length) (hms : ms.length = count)
    (hf : s.bus.dirOf dev.sda = .float) (h : prefixAnswered s dev.sda m0 m1 m2)
    (hdata : allAcknowledged s dev.sda s.cfg.tAck (m0 + m1 + m2 + 65) ms) :
    ∃ t, Succeeds (.writePage dev a data count) dev
      (prefixMarks (deviceByte dev) a m0 m1 m2 ++ writtenMarks (data.take count) ms ++ stopMarks) s t := by
  have hl := accept_lines hinv.sized hw .writePage a data count
  obtain ⟨u, hu, hran, hregs⟩ := writePageBody_ok m0 m1 m2 ms hl hf h
    (hms.trans (List.length_take_of_le hcount).symm)
    (((accept_ran dev .writePage a data count s).allAcknowledged_iff _ _ _ _).2 (by simpa using hdata))
  exact ⟨_, succeeds_of_body hl (execWritePage_eq a hinv.idle hw hcount) hu hran
    ⟨.dataPhase, s.regs.rbyte, s.regs.rbuf, hregs, fun _ => rfl⟩⟩

/-- U9: RBYTE keeps its value at the end of a successful READ_BYTE. -/
theorem finishOk_rbyte (h : s.regs.op = .readByte) : (finishOk s).regs.rbyte = s.regs.rbyte := by
  simp [settleResults, h]

theorem readByte_succeeds (a : Byte) (m0 m1 m2 m3 : Nat) (hinv : s.Inv) (hw : dev.wf s.cfg.nlines = true)
    (hf : s.bus.dirOf dev.sda = .float) (h : readPrefixAnswered s dev.sda m0 m1 m2 m3)
    (hsilent : neverSeen s dev.sda false (m0 + m1 + m2 + m3 + 123) s.cfg.tNack) :
    ∃ t, Succeeds (.readByte dev a) dev
        (readPrefixMarks (deviceByte dev) a m0 m1 m2 m3 ++
          receivedMarks (levelsAhead s dev.sda (m0 + m1 + m2 + m3 + 97)) ++ ackMarks s.cfg.tNack false ++
          stopMarks) s t ∧
      t.regs.rbyte = byteOfBits (levelsAhead s dev.sda (m0 + m1 + m2 + m3 + 97)) := by
  have hl := accept_lines hinv.sized hw .readByte a s.regs.wdata s.regs.count
  obtain ⟨u, hu, hran, hregs⟩ := readByteBody_ok m0 m1 m2 m3 hl hf h hsilent
  refine ⟨_, succeeds_of_body hl (execReadByte_eq a hinv.idle hw) hu hran
    ⟨.dataPhase, _, s.regs.rbuf, hregs, fun _ => rfl⟩, ?_⟩
  rw [finishOk_rbyte (congrArg Regs.op hregs :)]
  exact (congrArg Regs.rbyte hregs :)

theorem readPage_succeeds (a : Byte) (count m0 m1 m2 m3 : Nat) (hinv : s.Inv) (hw : dev.wf s.cfg.nlines = true)
    (hcount : 1 ≤ count) (hf : s.bus.dirOf dev.sda = .float) (h : readPrefixAnswered s dev.sda m0 m1 m2 m3)
    (hsilent : neverSeen s dev.sda false (m0 + m1 + m2 + m3 + 96 + 28 * count) s.cfg.tNack) :
    ∃ t, Succeeds (.readPage dev a count) dev
        (readPrefixMarks (deviceByte dev) a m0 m1 m2 m3 ++
          pageReadMarks (pageLevelsAhead s dev.sda (m0 + m1 + m2 + m3 + 97) count) ++ [.d true] ++
          ackMarks s.cfg.tNack false ++ stopMarks) s t ∧
      t.regs.rbuf = (pageLevelsAhead s dev.sda (m0 + m1 + m2 + m3 + 97) count).map byteOfBits := by
  have hl := accept_lines hinv.sized hw .readPage a s.regs.wdata count
  obtain ⟨u, hu, hran, hregs⟩ := readPageBody_ok m0 m1 m2 m3 hl hf hcount h hsilent
  refine ⟨_, succeeds_of_body hl (execReadPage_eq a hinv.idle hw hcount) hu hran
    ⟨.dataPhase, s.regs.rbyte, _, hregs, fun hne => absurd rfl (hne dev a count)⟩, ?_⟩
  exact (congrArg Regs.rbuf hregs :)

end

/-- Settles O34: PREFIX, the data frames, STOP. -/
theorem writePageSucceeds : Obligations.WritePageSucceeds := by
  intro s dev a data count m0 m1 m2 ms hinv hw hcount hms hf h hdata
  obtain ⟨t, ht⟩ := writePage_succeeds a data count m0 m1 m2 ms hinv hw hcount hms hf h hdata
  exact ⟨t, ht.next, ht.performed, ht.endedWell, ht.ended⟩

/-- Settles O36: READ_PREFIX, the data bytes with their master ACKs, the NACK, STOP. -/
theorem readPageSucceeds : Obligations.ReadPageSucceeds := by
  intro s dev a count m0 m1 m2 m3 hinv hw hcount hf h hsilent
  obtain ⟨t, ht, hrbuf⟩ := readPage_succeeds a count m0 m1 m2 m3 hinv hw hcount hf h hsilent
  exact ⟨t, ht.next, ht.performed, ht.endedWell, ht.ended, hrbuf⟩

end Sys2Proof.Machine

/-!
SUPPORT. The order of bits on the wire (spec/20_memory.md R57, spec/30_encoding.md R88 to R91): where the frames of a
command stand in its trace, and which access of a frame carries which bit.
-/

namespace Sys2Proof.Machine

/-! ## Bits of a byte and bits of a frame -/

/-- R57: bit 7 goes first. -/
theorem bitsOf_getElem? (b : Byte) {j : Nat} (hj : j < 8) : (bitsOf b)[j]? = some (b.getLsbD (7 - j)) := by
  interval_cases j <;> rfl

/-- R57, R145: the bits of a received byte are the levels in the order received. -/
theorem bitsOf_byteOfBits (bits : List Level) (h : bits.length = 8) : bitsOf (byteOfBits bits) = bits := by
  match bits, h with
  | [a, b, c, d, e, f, g, h], _ =>
    revert a b c d e f g h
    decide

theorem byteOfBits_getLsbD {bits : List Level} (h : bits.length = 8) {j : Nat} (hj : j < 8) :
    bits[j]? = some ((byteOfBits bits).getLsbD (7 - j)) := by
  rw [← bitsOf_getElem? _ hj, bitsOf_byteOfBits bits h]

theorem byteOfBits_levelsAhead_getLsbD (s : State) (l k : Nat) {j : Nat} (hj : j < 8) :
    (byteOfBits (levelsAhead s l k)).getLsbD (7 - j) = !s.lowAt (k + 3 * j + 1) l := by
  have h := byteOfBits_getLsbD (levelsAhead_length s l k) hj
  simpa [levelsAhead, hj] using h.symm

/-- R88, R89: the bits of the device address frame. -/
theorem deviceFrame_getLsbD (dev : Descriptor) (rw : Bool) {i : Nat} (hi : i < 8) :
    (deviceFrame (deviceByte dev) rw).getLsbD i = addressBit dev rw i := by
  simp only [deviceFrame, addressBit, deviceByte, BitVec.getLsbD_append, BitVec.getLsbD_extractLsb']
  cases i with
  | zero => simp
  | succ i => simp [show i < 7 by omega, Nat.add_comm]

/-- R91: the data line of cell `j`. -/
theorem sentMarks_getElem? (bits : List Level) (j : Nat) : (sentMarks bits)[3 * j]? = bits[j]?.map Mark.d := by
  induction bits generalizing j with
  | nil => rfl
  | cons v bits ih =>
    cases j with
    | zero => rfl
    | succ j => simpa [Nat.mul_succ] using ih j

/-- R143: the sample of cell `j`. -/
theorem receivedMarks_getElem? (bits : List Level) (j : Nat) :
    (receivedMarks bits)[3 * j + 1]? = bits[j]?.map Mark.r := by
  induction bits generalizing j with
  | nil => rfl
  | cons v bits ih =>
    cases j with
    | zero => rfl
    | succ j => simpa [Nat.mul_succ] using ih j

/-! ## Frames in a trace -/

section
variable {dev : Descriptor} {ms pre : List Mark} {k : Nat}

theorem marked_getElem?_of_prefix {mid : List Mark} (h : pre ++ mid <+: ms) {j : Nat} {m : Mark}
    (hm : mid[j]? = some m) : (marked dev ms)[pre.length + j]? = some (m.access dev) := by
  obtain ⟨rest, rfl⟩ := h
  have hj : j < mid.length := (List.getElem?_eq_some_iff.1 hm).1
  rw [marked, List.getElem?_map, List.append_assoc, List.getElem?_append_right (Nat.le_add_right ..),
    Nat.add_sub_cancel_left, List.getElem?_append_left hj, hm, Option.map_some]

theorem sentFrom_of_prefix {b : Byte} (h : pre ++ frameMarks b <+: ms) (hk : pre.length = k) :
    sentFrom dev (marked dev ms) k b.getLsbD := by
  intro j hj
  rw [← hk, marked_getElem?_of_prefix h (m := .d (b.getLsbD (7 - j)))
    (by rw [frameMarks, sentMarks_getElem?, bitsOf_getElem? b hj, Option.map_some])]
  rfl

theorem addressSentFrom_of_prefix {rw : Bool} (h : pre ++ frameMarks (deviceFrame (deviceByte dev) rw) <+: ms)
    (hk : pre.length = k) : sentFrom dev (marked dev ms) k (addressBit dev rw) := by
  intro j hj
  rw [← deviceFrame_getLsbD dev rw (show 7 - j < 8 by omega)]
  exact sentFrom_of_prefix h hk j hj

theorem receivedFrom_of_prefix {bits : List Level} (h : pre ++ receivedMarks bits <+: ms) (hk : pre.length = k)
    (hlen : bits.length = 8) : receivedFrom dev (marked dev ms) k (byteOfBits bits).getLsbD := by
  intro j hj
  rw [← hk, Nat.add_assoc, marked_getElem?_of_prefix h (m := .r ((byteOfBits bits).getLsbD (7 - j)))
    (by rw [receivedMarks_getElem?, byteOfBits_getLsbD hlen hj, Option.map_some])]
  rfl

/-- R180: the two frames of PREFIX, in a trace that begins with it. -/
theorem prefixMarks_sentFrom {a : Byte} {m0 m1 m2 : Nat} (h : prefixMarks (deviceByte dev) a m0 m1 m2 <+: ms) :
    sentFrom dev (marked dev ms) (m0 + 9) (addressBit dev false) ∧
      sentFrom dev (marked dev ms) (m0 + m1 + 37) a.getLsbD := by
  have haddr : recoveryMarks m0 ++ startMarks ++ frameMarks (deviceFrame (deviceByte dev) false) ++
      ackMarks m1 true ++ frameMarks a <+: ms := (List.prefix_append _ _).trans h
  have hdev : recoveryMarks m0 ++ startMarks ++ frameMarks (deviceFrame (deviceByte dev) false) <+: ms :=
    (List.prefix_append_of_prefix (List.prefix_append _ _)).trans haddr
  exact ⟨addressSentFrom_of_prefix hdev (by simp), sentFrom_of_prefix haddr (by simp; omega)⟩

/-- R181: the three frames of READ_PREFIX. -/
theorem readPrefixMarks_sentFrom {a : Byte} {m0 m1 m2 m3 : Nat}
    (h : readPrefixMarks (deviceByte dev) a m0 m1 m2 m3 <+: ms) :
    sentFrom dev (marked dev ms) (m0 + 9) (addressBit dev false) ∧
      sentFrom dev (marked dev ms) (m0 + m1 + 37) a.getLsbD ∧
      sentFrom dev (marked dev ms) (m0 + m1 + m2 + 69) (addressBit dev true) := by
  have hread : prefixMarks (deviceByte dev) a m0 m1 m2 ++ startMarks ++
      frameMarks (deviceFrame (deviceByte dev) true) <+: ms := (List.prefix_append _ _).trans h
  have hprefix : prefixMarks (deviceByte dev) a m0 m1 m2 <+: ms :=
    (List.prefix_append_of_prefix (List.prefix_append _ _)).trans hread
  obtain ⟨hdev, haddr⟩ := prefixMarks_sentFrom hprefix
  exact ⟨hdev, haddr, addressSentFrom_of_prefix hread (by simp)⟩

/-- R187: the frame of data byte `i` comes after those before it and their acknowledges. -/
theorem writtenMarks_frame (bs : List Byte) (ns : List Nat) (hn : ns.length = bs.length) {i : Nat}
    (hi : i < bs.length) :
    writtenMarks (bs.take i) (ns.take i) ++ frameMarks (bs.getD i 0) <+: writtenMarks bs ns := by
  induction bs generalizing ns i with
  | nil => simp at hi
  | cons b bs ih =>
    obtain ⟨n, ns, rfl⟩ : ∃ n ms, ns = n :: ms := List.exists_cons_of_length_eq_add_one hn
    cases i with
    | zero => simp [List.append_assoc]
    | succ i =>
      have := ih ns (by simpa using hn) (i := i) (by simpa using hi)
      simpa [List.append_assoc, List.prefix_append_right_inj] using this

/-- R192: byte `i` of a page comes after those before it and their master ACKs. -/
theorem pageReadMarks_received (s : State) (l k n : Nat) {i : Nat} (hi : i < n) :
    ∃ pre, pre.length = 28 * i ∧
      pre ++ receivedMarks (levelsAhead s l (k + 28 * i)) <+: pageReadMarks (pageLevelsAhead s l k n) := by
  induction n generalizing k i with
  | zero => simp at hi
  | succ n ih =>
    rw [pageLevelsAhead_succ]
    cases i with
    | zero =>
      refine ⟨[], rfl, ?_⟩
      cases n with
      | zero => exact List.prefix_rfl
      | succ n =>
        rw [pageReadMarks_cons _ _ (by simp [pageLevelsAhead_succ])]
        simp [List.append_assoc]
    | succ i =>
      obtain ⟨pre, hpre, hlater⟩ := ih (k + 28) (i := i) (by omega)
      refine ⟨receivedMarks (levelsAhead s l k) ++ masterAckMarks ++ pre, by simp [hpre]; omega, ?_⟩
      rw [pageReadMarks_cons _ _ (by
        rw [← List.length_pos_iff, pageLevelsAhead_length]; omega), List.append_assoc,
        List.prefix_append_right_inj, show k + 28 * (i + 1) = k + 28 + 28 * i by omega]
      exact hlater

end

/-! ## The four commands -/

section
variable {s : State} {dev : Descriptor}

theorem writeByte_bitOrder (a d : Byte) {m0 m1 m2 m3 : Nat} (h : s.WriteByteAnswered dev m0 m1 m2 m3) :
    ∃ t as, exec (.writeByte dev a d) s = .next t ∧ t.accesses = s.accesses ++ as ∧
      sentFrom dev as (m0 + 9) (addressBit dev false) ∧ sentFrom dev as (m0 + m1 + 37) a.getLsbD ∧
      sentFrom dev as (m0 + m1 + m2 + 65) d.getLsbD := by
  obtain ⟨t, ht⟩ := writeByte_succeeds a d m0 m1 m2 m3 h.inv h.valid h.floated h.opened h.data
  have hdata := List.prefix_append_of_prefix (l₃ := stopMarks) (List.prefix_append
    (prefixMarks (deviceByte dev) a m0 m1 m2 ++ frameMarks d) (ackMarks m3 true))
  obtain ⟨hdev, haddr⟩ := prefixMarks_sentFrom ((List.prefix_append _ _).trans hdata)
  exact ⟨t, _, ht.next, ht.performed.accesses, hdev, haddr, sentFrom_of_prefix hdata (by simp)⟩

theorem writePage_bitOrder (a : Byte) (data : List Byte) {m0 m1 m2 : Nat} {ms : List Nat}
    (h : s.WritePageAnswered dev m0 m1 m2 ms) (hms : ms.length ≤ data.length) :
    ∃ t as, exec (.writePage dev a data ms.length) s = .next t ∧ t.accesses = s.accesses ++ as ∧
      sentFrom dev as (m0 + 9) (addressBit dev false) ∧ sentFrom dev as (m0 + m1 + 37) a.getLsbD ∧
      ∀ i < ms.length,
        sentFrom dev as (m0 + m1 + m2 + 65 + writtenLength (ms.take i)) (data.getD i 0).getLsbD := by
  obtain ⟨t, ht⟩ := writePage_succeeds a data ms.length m0 m1 m2 ms h.inv h.valid hms rfl h.floated h.opened h.data
  have hdata := List.prefix_append
    (prefixMarks (deviceByte dev) a m0 m1 m2 ++ writtenMarks (data.take ms.length) ms) stopMarks
  obtain ⟨hdev, haddr⟩ := prefixMarks_sentFrom ((List.prefix_append _ _).trans hdata)
  refine ⟨t, _, ht.next, ht.performed.accesses, hdev, haddr, fun i hi => ?_⟩
  have hlen : (data.take ms.length).length = ms.length := List.length_take_of_le hms
  have hframe := writtenMarks_frame (data.take ms.length) ms hlen.symm (hlen.symm ▸ hi)
  have hbyte : (data.take ms.length).getD i 0 = data.getD i 0 := by
    simp [List.getD_eq_getElem?_getD, hi]
  rw [hbyte] at hframe
  refine sentFrom_of_prefix (pre := prefixMarks (deviceByte dev) a m0 m1 m2 ++
    writtenMarks ((data.take ms.length).take i) (ms.take i)) ?_ ?_
  · rw [List.append_assoc]
    exact ((List.prefix_append_right_inj _).2 hframe).trans hdata
  · rw [List.length_append, prefixMarks_length, writtenMarks_length _ _ (by simp; omega)]

theorem readByte_bitOrder (a : Byte) {m0 m1 m2 m3 : Nat} (h : s.ReadAnswered dev m0 m1 m2 m3 121) :
    ∃ t as, exec (.readByte dev a) s = .next t ∧ t.accesses = s.accesses ++ as ∧
      sentFrom dev as (m0 + 9) (addressBit dev false) ∧ sentFrom dev as (m0 + m1 + 37) a.getLsbD ∧
      sentFrom dev as (m0 + m1 + m2 + 69) (addressBit dev true) ∧
      receivedFrom dev as (m0 + m1 + m2 + m3 + 97) t.regs.rbyte.getLsbD ∧
      ∀ j < 8, t.regs.rbyte.getLsbD (7 - j) = !s.lowAt (m0 + m1 + m2 + m3 + 97 + 3 * j + 1) dev.sda := by
  obtain ⟨t, ht, hrbyte⟩ := readByte_succeeds a m0 m1 m2 m3 h.inv h.valid h.floated h.opened h.silent
  have hdata := List.prefix_append_of_prefix (l₃ := stopMarks) (List.prefix_append
    (readPrefixMarks (deviceByte dev) a m0 m1 m2 m3 ++
      receivedMarks (levelsAhead s dev.sda (m0 + m1 + m2 + m3 + 97))) (ackMarks s.cfg.tNack false))
  obtain ⟨hdev, haddr, hread⟩ := readPrefixMarks_sentFrom ((List.prefix_append _ _).trans hdata)
  refine ⟨t, _, ht.next, ht.performed.accesses, hdev, haddr, hread, ?_, fun j hj => ?_⟩
  · rw [hrbyte]
    exact receivedFrom_of_prefix hdata (by simp) (by simp)
  · rw [hrbyte, byteOfBits_levelsAhead_getLsbD s _ _ hj]

theorem readPage_bitOrder (a : Byte) {count m0 m1 m2 m3 : Nat} (hcount : 1 ≤ count)
    (h : s.ReadAnswered dev m0 m1 m2 m3 (94 + 28 * count)) :
    ∃ t as, exec (.readPage dev a count) s = .next t ∧ t.accesses = s.accesses ++ as ∧
      sentFrom dev as (m0 + 9) (addressBit dev false) ∧ sentFrom dev as (m0 + m1 + 37) a.getLsbD ∧
      sentFrom dev as (m0 + m1 + m2 + 69) (addressBit dev true) ∧ t.regs.rbuf.length = count ∧
      ∀ i < count,
        receivedFrom dev as (m0 + m1 + m2 + m3 + 97 + 28 * i) (t.regs.rbuf.getD i 0).getLsbD ∧
        ∀ j < 8, (t.regs.rbuf.getD i 0).getLsbD (7 - j) =
          !s.lowAt (m0 + m1 + m2 + m3 + 97 + 28 * i + 3 * j + 1) dev.sda := by
  obtain ⟨t, ht, hrbuf⟩ := readPage_succeeds a count m0 m1 m2 m3 h.inv h.valid hcount h.floated h.opened
    (by convert h.silent using 1; omega)
  have hdata := List.prefix_append_of_prefix (l₃ := stopMarks) (List.prefix_append_of_prefix
    (l₃ := ackMarks s.cfg.tNack false) (List.prefix_append (readPrefixMarks (deviceByte dev) a m0 m1 m2 m3 ++
      pageReadMarks (pageLevelsAhead s dev.sda (m0 + m1 + m2 + m3 + 97) count)) [.d true]))
  obtain ⟨hdev, haddr, hread⟩ := readPrefixMarks_sentFrom ((List.prefix_append _ _).trans hdata)
  refine ⟨t, _, ht.next, ht.performed.accesses, hdev, haddr, hread, by simp [hrbuf], fun i hi => ?_⟩
  have hbyte : t.regs.rbuf.getD i 0 = byteOfBits (levelsAhead s dev.sda (m0 + m1 + m2 + m3 + 97 + 28 * i)) := by
    simp [hrbuf, pageLevelsAhead, List.getD_eq_getElem?_getD, hi]
  rw [hbyte]
  refine ⟨?_, fun j hj => byteOfBits_levelsAhead_getLsbD s _ _ hj⟩
  obtain ⟨pre, hpre, hreceived⟩ := pageReadMarks_received s dev.sda (m0 + m1 + m2 + m3 + 97) count hi
  refine receivedFrom_of_prefix (pre := readPrefixMarks (deviceByte dev) a m0 m1 m2 m3 ++ pre) ?_
    (by simp [hpre]) (by simp)
  rw [List.append_assoc]
  exact ((List.prefix_append_right_inj _).2 hreceived).trans hdata

end

/-- Settles O37: one lemma per command. -/
theorem bitOrder : Obligations.BitOrder :=
  ⟨fun _ _ a d _ _ _ _ h => writeByte_bitOrder a d h, fun _ _ a data _ _ _ _ h hms => writePage_bitOrder a data h hms,
    fun _ _ a _ _ _ _ h => readByte_bitOrder a h, fun _ _ a _ _ _ _ _ hcount h => readPage_bitOrder a hcount h⟩

end Sys2Proof.Machine

/-!
SUPPORT. Where the engine holds the two lines of a command (spec/70_reset_and_hazards.md R111), along the accesses of its
parts.
-/

namespace Sys2Proof.Machine

/-- The latched lines are those of `dev`, the clock line in direction `c` and the data line in direction `d`. -/
structure Stands (dev : Descriptor) (c d : Direction) (t : State) : Prop extends Lines dev t where
  clock : t.bus.dirOf dev.scl = c
  data : t.bus.dirOf dev.sda = d

theorem Lines.stands {dev : Descriptor} {t : State} (h : Lines dev t) :
    Stands dev (t.bus.dirOf dev.scl) (t.bus.dirOf dev.sda) t :=
  ⟨h, rfl, rfl⟩

section
variable {dev : Descriptor} {c d : Direction} {t : State}

theorem Stands.driveScl (h : Stands dev c d t) (v : Level) : Stands dev (directionOf v) d (driveScl v t) where
  toLines := h.toLines.after (driveScl_ran v t) (by simp)
  clock := by
    rw [(driveScl_ran v t).dirOf, h.desc]
    simp [Mark.access, h.sclDir]
  data := by
    rw [(driveScl_ran v t).dirOf, h.desc]
    simpa [Mark.access, Bus.dirOf, h.distinct] using h.data

theorem Stands.driveSda (h : Stands dev c d t) (v : Level) : Stands dev c (directionOf v) (driveSda v t) where
  toLines := h.toLines.after (driveSda_ran v t) (by simp)
  clock := by
    rw [(driveSda_ran v t).dirOf, h.desc]
    simpa [Mark.access, Bus.dirOf, h.distinct.symm] using h.clock
  data := by
    rw [(driveSda_ran v t).dirOf, h.desc]
    simp [Mark.access, h.sdaDir]

/-- A run that sets no line leaves both where they are. -/
theorem Stands.of_noSet {u : State} {as : List Access} {ps : List Phase} (h : Stands dev c d t) (k : Ran t u as ps)
    (hd : u.regs.desc = t.regs.desc) (hs : ∀ l f, .set l f ∉ as) : Stands dev c d u where
  toLines := h.toLines.after k hd
  clock := (k.lineSame fun l f hm => absurd hm (hs l f)).1.trans h.clock
  data := (k.lineSame fun l f hm => absurd hm (hs l f)).1.trans h.data

end

end Sys2Proof.Machine

/-!
SUPPORT. The moves of the data line under a floated clock (spec/70_reset_and_hazards.md R254), counted along the parts of
a command: none but those of STOP and START, whatever the environment does.
-/

namespace Sys2Proof.Machine

/-! ## Moves of a trace -/

theorem movesUnderHighClock_append (scl sda : Nat) (b : Bus) (as bs : List Access) :
    movesUnderHighClock scl sda b (as ++ bs) =
      movesUnderHighClock scl sda b as ++ movesUnderHighClock scl sda (replay b (as.map .acc)) bs := by
  induction as generalizing b with
  | nil => rfl
  | cons a as ih =>
    cases a with
    | get l v => exact ih b
    | set l f =>
      simp only [List.cons_append, movesUnderHighClock, ih, List.map_cons, replay_cons]
      split <;> rfl

/-- Only the directions matter. -/
theorem movesUnderHighClock_congr (scl sda : Nat) {b b' : Bus} (h : b'.dir = b.dir) (as : List Access) :
    movesUnderHighClock scl sda b' as = movesUnderHighClock scl sda b as := by
  induction as generalizing b b' with
  | nil => rfl
  | cons a as ih =>
    cases a with
    | get l v => exact ih h
    | set l f =>
      have hset : (Event.apply (.acc (.set l f)) b').dir = (Event.apply (.acc (.set l f)) b).dir := by simp [h]
      have hline (l' : Nat) : b'.dirOf l' = b.dirOf l' := congrArg (·.getD l' .float) h
      simp only [movesUnderHighClock, hline, ih hset]

theorem replay_acc_dir (b : Bus) (as : List Access) : (replay b (as.map .acc)).dir = dirAfter b.dir as := by
  induction as generalizing b with
  | nil => rfl
  | cons a as ih => cases a <;> simp [ih]

/-- The moves of one run after another. -/
theorem Ran.moves_append {s t : State} {as : List Access} {ps : List Phase} (h : Ran s t as ps) (scl sda : Nat)
    (bs : List Access) :
    movesUnderHighClock scl sda s.bus (as ++ bs) =
      movesUnderHighClock scl sda s.bus as ++ movesUnderHighClock scl sda t.bus bs := by
  rw [movesUnderHighClock_append]
  congr 1
  exact (movesUnderHighClock_congr scl sda (h.dir.trans (replay_acc_dir s.bus as).symm) bs).symm

/-! ## Moves along the parts of a command -/

/-- From `s` to `t` the engine moved the data line under a floated clock as `ds` says, and left the lines at `c`, `d`. -/
structure Moved (dev : Descriptor) (s : State) (ds : List Direction) (c d : Direction) (t : State) : Prop
    extends Stands dev c d t where
  moves : ∃ as ps, Ran s t as ps ∧ movesUnderHighClock dev.scl dev.sda s.bus as = ds

section
variable {dev : Descriptor} {s t u : State} {ds : List Direction} {c d : Direction}

theorem Moved.extend {es : List Direction} {c' d' : Direction} {as : List Access} {ps : List Phase}
    (h : Moved dev s ds c d t) (k : Ran t u as ps) (hs : Stands dev c' d' u)
    (he : movesUnderHighClock dev.scl dev.sda t.bus as = es) : Moved dev s (ds ++ es) c' d' u := by
  obtain ⟨bs, qs, hran, hmoves⟩ := h.moves
  exact ⟨hs, _, _, hran.trans k, by rw [hran.moves_append, hmoves, he]⟩

/-- Only a `RegSet` moves a line. -/
theorem Moved.of_noSet {as : List Access} {ps : List Phase} (h : Moved dev s ds c d t) (k : Ran t u as ps)
    (hd : u.regs.desc = t.regs.desc) (hs : ∀ l f, .set l f ∉ as) : Moved dev s ds c d u := by
  have hnone : movesUnderHighClock dev.scl dev.sda t.bus as = [] := by
    clear k
    induction as with
    | nil => rfl
    | cons a as ih =>
      cases a with
      | get l v => exact ih fun l f hm => hs l f (.tail _ hm)
      | set l f => exact absurd List.mem_cons_self (hs l f)
  simpa using h.extend k (h.toStands.of_noSet k hd hs) hnone

theorem Moved.regs {ps : List Phase} (h : Moved dev s ds c d t) (k : Ran t u [] ps)
    (hd : u.regs.desc = t.regs.desc) : Moved dev s ds c d u :=
  h.of_noSet k hd (by simp)

theorem Moved.setPhase (h : Moved dev s ds c d t) (p : Phase) : Moved dev s ds c d (setPhase p t) :=
  h.regs (setPhase_ran p t) rfl

theorem Moved.setIdx (h : Moved dev s ds c d t) (i : Nat) : Moved dev s ds c d (setIdx i t) :=
  h.regs (setIdx_ran i t) rfl

theorem Moved.setSr (h : Moved dev s ds c d t) (b : Byte) : Moved dev s ds c d (setSr b t) :=
  h.regs (setSr_ran b t) rfl

theorem Moved.setBitIdx (h : Moved dev s ds c d t) (i : Nat) : Moved dev s ds c d (setBitIdx i t) :=
  h.regs (setBitIdx_ran i t) rfl

/-- The clock line is not the data line. -/
theorem Moved.driveScl (h : Moved dev s ds c d t) (v : Level) :
    Moved dev s ds (directionOf v) d (driveScl v t) := by
  have hk := h.extend (driveScl_ran v t) (h.toStands.driveScl v) (es := [])
    (by simp [h.desc, Mark.access, movesUnderHighClock, h.distinct])
  simpa using hk

theorem Moved.driveSda (h : Moved dev s ds c d t) (v : Level) :
    Moved dev s (ds ++ if d ≠ directionOf v ∧ c = .float then [directionOf v] else []) c (directionOf v)
      (driveSda v t) :=
  h.extend (driveSda_ran v t) (h.toStands.driveSda v)
    (by simp [h.desc, Mark.access, movesUnderHighClock, h.clock, h.data])

/-- A data line set under a low clock makes no move. -/
theorem Moved.driveSda_low (h : Moved dev s ds .drive d t) (v : Level) :
    Moved dev s ds .drive (directionOf v) (Machine.driveSda v t) := by
  simpa using h.driveSda v

/-- R121: from a floated data line, START's third access. -/
theorem Moved.startSignal (h : Moved dev s ds c .float t) :
    Moved dev s (ds ++ [.drive]) .drive .drive (startSignal t) := by
  simpa [directionOf, Machine.startSignal] using (((h.driveSda true).driveScl true).driveSda false).driveScl false

/-- R123: from any lines, STOP's fourth access. -/
theorem Moved.stopSignal (h : Moved dev s ds c d t) : Moved dev s (ds ++ [.float]) .float .float (stopSignal t) := by
  simpa [directionOf, Machine.stopSignal] using (((h.driveScl false).driveSda false).driveScl true).driveSda true

/-! ## Frames and pulses, under a low clock but for the pulses -/

theorem Moved.pulse (h : Moved dev s ds c d t) : Moved dev s ds .drive d (pulse t) :=
  (h.driveScl true).driveScl false

theorem Moved.bitCell (h : Moved dev s ds .drive d t) (v : Level) :
    Moved dev s ds .drive (directionOf v) (bitCell v t) :=
  (h.driveSda_low v).pulse

theorem Moved.sendBits (h : Moved dev s ds .drive d t) (n : Nat) : ∃ d', Moved dev s ds .drive d' (sendBits n t) := by
  induction n generalizing d t with
  | zero => exact ⟨d, h⟩
  | succ n ih => exact ih ((h.setBitIdx n).bitCell _)

theorem Moved.shiftOut (h : Moved dev s ds .drive d t) (b : Byte) : ∃ d', Moved dev s ds .drive d' (shiftOut b t) :=
  (h.setSr b).sendBits 8

theorem Moved.sendAddressBits (h : Moved dev s ds .drive d t) (b : Byte) (n : Nat) :
    ∃ d', Moved dev s ds .drive d' (sendAddressBits b n t) := by
  induction n generalizing d t with
  | zero => exact ⟨d, h⟩
  | succ n ih => exact ih ((h.setBitIdx (n + 1)).bitCell _)

theorem Moved.sendDevAddr (h : Moved dev s ds .drive d t) (b : Byte) (rw : Bool) :
    ∃ d', Moved dev s ds .drive d' (sendDevAddr b rw t) := by
  obtain ⟨d', hbits⟩ := h.sendAddressBits b 7
  exact ⟨_, hbits.bitCell rw⟩

theorem Moved.regIn (h : Moved dev s ds c d t) (l : Nat) : Moved dev s ds c d (regIn l t) :=
  h.of_noSet (regIn_ran l t) (by simp) (by simp)

theorem Moved.receiveBit (h : Moved dev s ds c d t) (i : Nat) : Moved dev s ds .drive d (receiveBit i t) :=
  (((h.driveScl true).regIn _).setSr _).driveScl false

theorem Moved.receiveBits (h : Moved dev s ds .drive d t) (n : Nat) : Moved dev s ds .drive d (receiveBits n t) := by
  induction n generalizing t with
  | zero => exact h
  | succ n ih => exact ih ((h.setBitIdx n).receiveBit n)

theorem Moved.shiftIn (h : Moved dev s ds .drive d t) : Moved dev s ds .drive d (shiftIn t) :=
  (h.setSr 0).receiveBits 8

theorem Moved.receiveRbyte (h : Moved dev s ds .drive d t) : Moved dev s ds .drive d (receiveRbyte t) :=
  h.shiftIn.regs (ran_regs _ _) rfl

theorem Moved.receiveIntoRbuf (h : Moved dev s ds .drive d t) (i : Nat) :
    Moved dev s ds .drive d (receiveIntoRbuf i t) :=
  (h.setIdx i).shiftIn.regs (ran_regs _ _) rfl

theorem Moved.masterAck (h : Moved dev s ds .drive d t) : Moved dev s ds .drive .float (masterAck t) :=
  (h.driveSda_low false).pulse.driveSda_low true

theorem Moved.pollSda (h : Moved dev s ds c d t) (want : Level) (n : Nat) :
    Moved dev s ds c d (pollSda want n t).2 := by
  induction n generalizing t with
  | zero => exact h
  | succ n ih =>
    have hsample := (h.regIn t.regs.desc.sda).regs (ran_regs _ (countSample (Machine.regIn t.regs.desc.sda t)).regs) rfl
    rw [Machine.pollSda]
    split
    · exact hsample
    · exact ih hsample

theorem Moved.pollFrom0 (h : Moved dev s ds c d t) (want : Level) (n : Nat) :
    Moved dev s ds c d (pollFrom0 want n t).2 :=
  (h.regs (clearPoll_ran t) rfl).pollSda want n

theorem Moved.ackPulse (h : Moved dev s ds .drive d t) (n : Nat) :
    Moved dev s ds .drive .float (ackPulse n t).2 :=
  (((h.driveSda_low true).driveScl true).pollFrom0 false n).driveScl false

theorem Moved.raiseError (h : Moved dev s ds c d t) (k : ErrKind) : Moved dev s ds c d (raiseError k t) :=
  h.regs (raiseError_ran k t) rfl

end

/-! ## How a command comes out -/

/-- The moves before a raise (R197): none before BusStuckLow, INIT's STOP and START before the NoAck of any command, and
in a read, `read`, the repeated START too before what can be raised after it. -/
inductive MovesBefore (read : Bool) : ErrKind → List Direction → Prop where
  | stuck : MovesBefore read .busStuckLow []
  | noAck : MovesBefore read .noAck [.float, .drive]
  | readNoAck (hr : read = true) : MovesBefore read .noAck [.float, .drive, .drive]
  | unexpectedAck (hr : read = true) : MovesBefore read .unexpectedAck [.float, .drive, .drive]

/-- How a sequence of parts of a command, begun in `s`, comes out: in a state with `P`, or raised after the moves that
come before such a raise. -/
inductive EndsMoved (dev : Descriptor) (read : Bool) (s : State) (P : State → Prop) : Res → Prop where
  | ok {u : State} (h : P u) : EndsMoved dev read s P (.ok u)
  | raised {u : State} {k : ErrKind} {ds : List Direction} {c d : Direction} (hk : MovesBefore read k ds)
      (herr : u.regs.err = some k) (h : Moved dev s ds c d u) : EndsMoved dev read s P (.raised u)

/-- R214(3). -/
theorem EndsMoved.andThen {dev : Descriptor} {read : Bool} {s : State} {P Q : State → Prop} {r : Res}
    {f : State → Res} (h : EndsMoved dev read s P r) (k : ∀ t, r = .ok t → P t → EndsMoved dev read s Q (f t)) :
    EndsMoved dev read s Q (r.andThen f) := by
  cases h with
  | ok h => exact k _ rfl h
  | raised hk herr h => exact .raised hk herr h

section
variable {dev : Descriptor} {read : Bool} {s t : State} {ds : List Direction} {c d : Direction}

theorem Moved.busRecovery (h : Moved dev s [] c d t) :
    EndsMoved dev read s (Moved dev s [.float] .float .float) (busRecovery t) := by
  have hpoll := h.pollFrom0 true t.cfg.tInit
  simp only [Machine.busRecovery]
  split
  · exact .ok hpoll.stopSignal
  · exact .raised .stuck rfl (hpoll.raiseError _)

theorem Moved.waitAck (h : Moved dev s ds .drive d t) (hk : MovesBefore read .noAck ds) (n : Nat) :
    EndsMoved dev read s (Moved dev s ds .drive .float) (waitAck n t) := by
  have hpulse := h.ackPulse n
  simp only [Machine.waitAck]
  split
  · exact .ok hpulse
  · exact .raised hk rfl (hpulse.raiseError _)

theorem Moved.waitNack (h : Moved dev s ds .drive d t) (hk : MovesBefore read .unexpectedAck ds) (n : Nat) :
    EndsMoved dev read s (Moved dev s ds .drive .float) (waitNack n t) := by
  have hpulse := h.ackPulse n
  simp only [Machine.waitNack]
  split
  · exact .raised hk rfl (hpulse.raiseError _)
  · exact .ok hpulse

/-- A data byte or the byte address, with its acknowledge. -/
theorem Moved.sendByte (h : Moved dev s ds .drive d t) (hk : MovesBefore read .noAck ds) (b : Byte) :
    EndsMoved dev read s (Moved dev s ds .drive .float) (sendByte b t) := by
  obtain ⟨d', hframe⟩ := h.shiftOut b
  exact hframe.waitAck hk _

/-- A device address frame, with its acknowledge. -/
theorem Moved.sendAddress (h : Moved dev s ds .drive d t) (hk : MovesBefore read .noAck ds) (b : Byte) (rw : Bool) :
    EndsMoved dev read s (Moved dev s ds .drive .float) (awaitAck (Machine.sendDevAddr b rw t)) := by
  obtain ⟨d', hframe⟩ := h.sendDevAddr b rw
  exact hframe.waitAck hk _

/-- R187: the induction over the data bytes. -/
theorem Moved.sendBytes (h : Moved dev s ds .drive .float t) (hk : MovesBefore read .noAck ds) (bs : List Byte)
    (i : Nat) : EndsMoved dev read s (Moved dev s ds .drive .float) (sendBytes bs i t) := by
  induction bs generalizing i t with
  | nil => exact .ok h
  | cons b bs ih => exact ((h.setIdx i).sendByte hk b).andThen fun _ _ hsent => ih hsent (i + 1)

theorem Moved.endRead (h : Moved dev s ds .drive d t) (hk : MovesBefore read .unexpectedAck ds) :
    EndsMoved dev read s (Moved dev s (ds ++ [.float]) .float .float) (endRead t) :=
  (h.waitNack hk _).andThen fun _ _ hnack => .ok hnack.stopSignal

/-- R192: the bytes of a page of at least one. -/
theorem Moved.receiveBytes (h : Moved dev s ds .drive d t) (hk : MovesBefore read .unexpectedAck ds) (n i : Nat) :
    EndsMoved dev read s (Moved dev s (ds ++ [.float]) .float .float) (receiveBytes (n + 1) i t) := by
  induction n generalizing d i t with
  | zero => exact ((h.receiveIntoRbuf i).driveSda_low true).endRead hk
  | succ n ih => exact ih (h.receiveIntoRbuf i).masterAck (i + 1)

/-! ## Parts and bodies -/

/-- PREFIX (R180): the STOP of INIT and the START. -/
theorem Moved.prefixPart (h : Moved dev s [] c d t) :
    EndsMoved dev read s (Moved dev s [.float, .drive] .drive .float) (prefixPart t) :=
  h.busRecovery.andThen fun _ _ hinit =>
  ((hinit.startSignal.setPhase .started).sendAddress .noAck _ false).andThen fun _ _ hdev =>
  ((hdev.setPhase .addrWritten).sendByte .noAck _).andThen fun _ _ haddr =>
  .ok (haddr.setPhase .byteAddrSent)

/-- READ_PREFIX (R181): the repeated START besides. -/
theorem Moved.readPrefixPart (h : Moved dev s [] c d t) (hr : read = true) :
    EndsMoved dev read s (Moved dev s [.float, .drive, .drive] .drive .float) (readPrefixPart t) :=
  h.prefixPart.andThen fun _ _ hprefix =>
  (hprefix.setPhase .dataPhase).startSignal.sendAddress (.readNoAck hr) _ true

/-- The moves of a command that succeeds (R94). -/
def successMoves (read : Bool) : List Direction :=
  if read then [.float, .drive, .drive, .float] else [.float, .drive, .float]

theorem Moved.writeByteBody (h : Moved dev s [] c d t) :
    EndsMoved dev false s (Moved dev s (successMoves false) .float .float) (writeByteBody t) :=
  h.prefixPart.andThen fun _ _ hprefix =>
  ((hprefix.setPhase .dataPhase).sendByte .noAck _).andThen fun _ _ hdata => .ok hdata.stopSignal

theorem Moved.writePageBody (h : Moved dev s [] c d t) :
    EndsMoved dev false s (Moved dev s (successMoves false) .float .float) (writePageBody t) :=
  h.prefixPart.andThen fun _ _ hprefix =>
  (((hprefix.setPhase .dataPhase).setIdx 0).sendBytes .noAck _ 0).andThen fun _ _ hdata => .ok hdata.stopSignal

theorem Moved.readByteBody (h : Moved dev s [] c d t) :
    EndsMoved dev true s (Moved dev s (successMoves true) .float .float) (readByteBody t) :=
  (h.readPrefixPart rfl).andThen fun _ _ hprefix => hprefix.receiveRbyte.endRead (.unexpectedAck rfl)

/-- READ_PREFIX writes no operand latch. -/
theorem readPrefixPart_count {u : State} (hl : Lines dev t) (ho : t.bus.openDrain) (h : readPrefixPart t = .ok u) :
    u.regs.count = t.regs.count := by
  have hends := readPrefixPart_ends hl ho
  rw [h] at hends
  cases hends with
  | ok hprefix => exact (congrArg Regs.count hprefix.latches :)

theorem Moved.readPageBody (h : Moved dev s [] c d t) (ho : t.bus.openDrain) (hn : 1 ≤ t.regs.count) :
    EndsMoved dev true s (Moved dev s (successMoves true) .float .float) (readPageBody t) :=
  (h.readPrefixPart rfl).andThen fun u hu hprefix => by
    obtain ⟨n, hcount⟩ := Nat.exists_eq_add_of_le' hn
    rw [readPrefixPart_count h.toLines ho hu, hcount]
    exact ((hprefix.regs (clearRbuf_ran u) rfl).setIdx 0).receiveBytes (.unexpectedAck rfl) n 0

/-! ## Commands -/

/-- Acceptance makes no access. -/
theorem accept_moved (hinv : s.Inv) (hw : dev.wf s.cfg.nlines = true) (op : CmdOp) (a : Byte) (bs : List Byte)
    (n : Nat) :
    Moved dev s [] (s.bus.dirOf dev.scl) (s.bus.dirOf dev.sda) (accept dev op a bs n s) :=
  ⟨(accept_lines hinv.sized hw op a bs n).stands, _, _, accept_ran dev op a bs n s, rfl⟩

/-- One case per command: its body's end. -/
theorem exec_endsMoved {i : Instr} {a : Byte} (ht : commandTarget i = some (dev, a)) (hinv : s.Inv)
    (hw : i.wf s.cfg.nlines = true) :
    ∃ r, exec i s = endCommand r ∧
      EndsMoved dev (isRead i) s (Moved dev s (successMoves (isRead i)) .float .float) r := by
  cases i <;> simp only [commandTarget, reduceCtorEq, Option.some.injEq, Prod.mk.injEq] at ht
  case writeByte dev a b =>
    obtain ⟨rfl, rfl⟩ := ht
    exact ⟨_, execWriteByte_eq a b hinv.idle hw, (accept_moved hinv hw _ _ _ _).writeByteBody⟩
  case writePage dev a data n =>
    obtain ⟨rfl, rfl⟩ := ht
    obtain ⟨hdev, hn⟩ : dev.wf s.cfg.nlines = true ∧ n ≤ data.length := by simpa [Instr.wf] using hw
    exact ⟨_, execWritePage_eq a hinv.idle hdev hn, (accept_moved hinv hdev _ _ _ _).writePageBody⟩
  case readByte dev a =>
    obtain ⟨rfl, rfl⟩ := ht
    exact ⟨_, execReadByte_eq a hinv.idle hw, (accept_moved hinv hw _ _ _ _).readByteBody⟩
  case readPage dev a n =>
    obtain ⟨rfl, rfl⟩ := ht
    obtain ⟨hdev, hn⟩ : dev.wf s.cfg.nlines = true ∧ 1 ≤ n := by simpa [Instr.wf] using hw
    exact ⟨_, execReadPage_eq a hinv.idle hdev hn, (accept_moved hinv hdev _ _ _ _).readPageBody hinv.openDrain hn⟩

/-- The moves of the accesses a run added to the trace. -/
theorem Moved.moves_eq (h : Moved dev s ds c d t) {as : List Access} (ha : t.accesses = s.accesses ++ as) :
    movesUnderHighClock dev.scl dev.sda s.bus as = ds := by
  obtain ⟨bs, ps, hran, hmoves⟩ := h.moves
  rw [← hmoves, List.append_cancel_left (ha.symm.trans hran.accesses)]

/-- R94, R197: what a command moved, by its outcome. -/
theorem command_moves {i : Instr} {a : Byte} {as : List Access} (ht : commandTarget i = some (dev, a))
    (hinv : s.Inv) (hexec : exec i s = .next t) (ha : t.accesses = s.accesses ++ as) :
    (t.regs.err = none ∧ movesUnderHighClock dev.scl dev.sda s.bus as = successMoves (isRead i)) ∨
      ∃ k, t.regs.err = some k ∧ MovesBefore (isRead i) k (movesUnderHighClock dev.scl dev.sda s.bus as) := by
  obtain ⟨r, hr, hends⟩ := exec_endsMoved ht hinv ((exec_completes_iff_accepted i s).1 ⟨t, hexec⟩).1
  rw [hr] at hexec
  cases hends with
  | @ok u h =>
    cases hexec
    exact .inl ⟨rfl, (h.regs (finishOk_ran u) rfl).moves_eq ha⟩
  | @raised u k ds c d hk herr h =>
    cases hexec
    exact .inr ⟨k, herr, by rwa [(h.regs (settle_ran false u) rfl).moves_eq ha]⟩

end

/-- Settles O50: the moves of a command that succeeded and the moves before each raise are those listed. -/
theorem noStraySymbols : Obligations.NoStraySymbols := by
  intro i s t dev a as ht hinv _ hexec ha
  rcases command_moves ht hinv hexec ha with ⟨herr, hmoves⟩ | ⟨k, herr, hmoves⟩
  · simp [herr, hmoves, successMoves]
  · rw [herr]
    generalize movesUnderHighClock dev.scl dev.sda s.bus as = ds at hmoves
    cases hmoves with
    | stuck => simp
    | noAck => simp
    | readNoAck hr => simp [hr]
    | unexpectedAck hr => simp [hr]

end Sys2Proof.Machine

/-!
SUPPORT. Decoder and encoder (spec/30_encoding.md R80 to R85, R98): which operation a packet decodes to, and that the
encoder writes it back in the same bits.
-/

namespace Sys2Proof

/-! ## From an operation to its packet and back -/

@[simp] theorem Direction.ofBit_bit (f : Direction) : Direction.ofBit f.bit = f := by
  cases f <;> rfl

/-- Settles O6: a number or a selector for accesses and primitives, the fields of the word for commands. -/
theorem decodeEncode : Obligations.DecodeEncode := by
  intro i hi
  cases i with
  | regset l f => simp [encode, decode, decodeRm]
  | drive l v => simp [encode, decode, decodeUop]
  | sendDevAddr d rw => simp [encode, decode, decodeUop]
  | writeByte | writePage | readByte | readPage =>
    simp [encode, decode, decodeCmd, wordDescriptor_commandWord _ _ _ hi]
  | regin | start | stop | init | shiftOut | shiftIn | waitAck | waitNack | masterAck | sendByteAddr => rfl

/-! ## From a packet to its operation and back -/

@[simp] theorem CmdOp.code_ofCode (c : BitVec 2) : (CmdOp.ofCode c).code = c := by
  revert c
  decide

/-- A bit of a field, by its place in the word. -/
theorem field_getLsbD (w : BitVec 48) {k n i : Nat} (hk : k ≤ i) (hn : i < k + n) :
    (w.extractLsb' k n).getLsbD (i - k) = w.getLsbD i := by
  rw [BitVec.getLsbD_extractLsb', Nat.add_sub_cancel' hk, decide_eq_true (by omega), Bool.true_and]

/-- R82: a word with no reserved bit set is the word of the fields read from it. -/
theorem commandWord_of_fields {w : BitVec 48} (h : w.extractLsb' 2 6 = 0) :
    commandWord (CmdOp.ofCode (w.extractLsb' 0 2)) (wordDescriptor w) (w.extractLsb' 40 8) = w := by
  refine BitVec.eq_of_getLsbD_eq fun i hi => ?_
  simp only [commandWord_getLsbD, CmdOp.code_ofCode, wordDescriptor, BitVec.ofNat_toNat, BitVec.setWidth_eq]
  split
  · exact field_getLsbD w (k := 0) (by omega) (by omega)
  split
  · rw [← field_getLsbD w (k := 2) (n := 6) (by omega) (by omega), h]
    simp
  repeat' split
  all_goals exact field_getLsbD w (by omega) (by omega)

/-- R82, R98(a): a word that decodes has no reserved bit set, and is the word of the operation it decodes to. -/
theorem encode_of_decodeCmd {w : BitVec 48} {p : Payload} {i : Instr} (h : decodeCmd w p = .ok i) :
    ∃ q, encode i = .cmd w q := by
  unfold decodeCmd at h
  split at h
  · rename_i hreserved
    have hword := commandWord_of_fields hreserved
    generalize CmdOp.ofCode (w.extractLsb' 0 2) = op at h hword
    cases op with
    | writeByte =>
      dsimp only at h
      split at h <;> cases h
      exact ⟨_, congrArg (Packet.cmd · _) hword⟩
    | writePage | readByte | readPage => cases h; exact ⟨_, congrArg (Packet.cmd · _) hword⟩
  · cases h

/-- R84: the primitive of a number has that number. -/
theorem encode_of_decodeUop {num : BitVec 4} {f : UopFields} {i : Instr} (h : decodeUop num f = .ok i) :
    ∃ g, encode i = .uop num g := by
  unfold decodeUop at h
  split at h <;> cases h
  all_goals
    rename_i hnum
    exact ⟨_, congrArg (Packet.uop · _) (BitVec.eq_of_toNat_eq hnum.symm)⟩

/-- R85. -/
theorem encode_of_decodeRm {sel : BitVec 1} {l : Nat} {f : BitVec 1} {i : Instr} (h : decodeRm sel l f = .ok i) :
    ∃ g, encode i = .rm sel l g := by
  unfold decodeRm at h
  revert h
  fin_cases sel <;> (intro h; cases h; exact ⟨_, rfl⟩)

/-- Settles O7: one lemma per format. -/
theorem encodeDecode : Obligations.EncodeDecode := by
  intro p i h
  cases p with
  | rm sel l f =>
    obtain ⟨g, hg⟩ := encode_of_decodeRm h
    simp [hg, Packet.format, Packet.bits]
  | uop num ops =>
    obtain ⟨g, hg⟩ := encode_of_decodeUop h
    simp [hg, Packet.format, Packet.bits]
  | cmd w q =>
    obtain ⟨q', hq⟩ := encode_of_decodeCmd h
    simp [hq, Packet.format, Packet.bits]

/-! ## The rows of the table -/

/-- A row looks at the format and the bits of a packet alone. -/
theorem matches_congr (r : TableRow) {p q : Packet} (hf : q.format = p.format) (hb : q.bits = p.bits) :
    r.matches q = r.matches p := by
  simp only [TableRow.matches, hf, hb]

theorem overlaps_of_matches {r q : TableRow} {p : Packet} (hr : r.matches p = true) (hq : q.matches p = true) :
    r.overlaps q = true := by
  simp only [TableRow.matches, Bool.and_eq_true, beq_iff_eq] at hr hq
  obtain ⟨hrf, hrv⟩ := hr
  obtain ⟨hqf, hqv⟩ := hq
  simp only [TableRow.overlaps, Bool.and_eq_true, beq_iff_eq]
  exact ⟨hrf.symm.trans hqf, by rw [← hrv, ← hqv, BitVec.and_assoc, BitVec.and_assoc, BitVec.and_comm r.mask]⟩

theorem opcodeTable_disjoint : ∀ r ∈ opcodeTable, ∀ q ∈ opcodeTable, r.overlaps q = true → r = q := by
  decide

/-- R80: every operation has its row. -/
theorem encode_ownRow (i : Instr) : Laws.EncodesOwnRow.Statement i := by
  cases i with
  | regset l f => exact Laws.EncodesOwnRow.regset l f
  | regin l => exact Laws.EncodesOwnRow.regin l
  | drive l v => exact Laws.EncodesOwnRow.drive l v
  | start => exact Laws.EncodesOwnRow.start
  | stop => exact Laws.EncodesOwnRow.stop
  | init => exact Laws.EncodesOwnRow.init
  | shiftOut b => exact Laws.EncodesOwnRow.shiftOut b
  | shiftIn => exact Laws.EncodesOwnRow.shiftIn
  | waitAck t => exact Laws.EncodesOwnRow.waitAck t
  | waitNack t => exact Laws.EncodesOwnRow.waitNack t
  | masterAck => exact Laws.EncodesOwnRow.masterAck
  | sendDevAddr d rw => exact Laws.EncodesOwnRow.sendDevAddr d rw
  | sendByteAddr a => exact Laws.EncodesOwnRow.sendByteAddr a
  | writeByte dev a d => exact Laws.EncodesOwnRow.writeByte dev a d
  | writePage dev a data n => exact Laws.EncodesOwnRow.writePage dev a data n
  | readByte dev a => exact Laws.EncodesOwnRow.readByte dev a
  | readPage dev a n => exact Laws.EncodesOwnRow.readPage dev a n

theorem row_of_decode {p : Packet} {i : Instr} (h : decode p = .ok i) :
    ∃ r ∈ opcodeTable, r.matches p = true ∧ r.mnemonic = i.mnemonic := by
  obtain ⟨hf, hb⟩ := encodeDecode p i h
  obtain ⟨r, hr, hm, hmatch⟩ := encode_ownRow i
  exact ⟨r, hr, matches_congr r hf hb ▸ hmatch, hm⟩

/-- Settles O8: the rows exclude each other, and a packet that decodes is in the row its operation is encoded in. -/
theorem decodeFollowsTable : Obligations.DecodeFollowsTable := by
  refine fun p => ⟨fun r hr q hq hrp hqp => ?_, fun i h => row_of_decode h, fun hnone => ?_⟩
  · exact opcodeTable_disjoint r hr q hq (overlaps_of_matches hrp hqp)
  · cases h : decode p with
    | error e => exact ⟨e, rfl⟩
    | ok i =>
      obtain ⟨r, hr, hmatch, -⟩ := row_of_decode h
      rw [hnone r hr] at hmatch
      cases hmatch

/-- Settles O9: the words of the spec, evaluated. -/
theorem wordsDecode : Obligations.WordsDecode := by
  unfold Obligations.WordsDecode
  decide

/-! ## Packets that are no operation -/

/-- R98(a). -/
theorem decodeCmd_reserved {w : BitVec 48} (p : Payload) (h : w.extractLsb' 2 6 ≠ 0) :
    decodeCmd w p = .error (.reservedBits (w.extractLsb' 2 6)) :=
  if_neg h

/-- R84, R98(c). -/
theorem decodeUop_unused {num : BitVec 4} (f : UopFields) (h : 11 ≤ num.toNat) :
    decodeUop num f = .error (.unusedUop num) := by
  unfold decodeUop
  split
  any_goals omega
  rfl

end Sys2Proof

/-!
SUPPORT. What a step takes from the caller and from the exposed operations (spec/30_encoding.md R81, R84, R98), and what
a request can be.
-/

namespace Sys2Proof.Machine

/-- Settles O5: which operation is next decides what `step` does. -/
theorem stepRunsDecodedOperation : Obligations.StepRunsDecodedOperation := by
  refine ⟨fun s r rest i h0 h1 hi => ?_, fun s r rest e h0 h1 he => ?_, fun s h0 h1 => ?_, fun s i rest h ho => ?_⟩
  · simp only [step, nextOperation_request h0 h1, hi] <;> rfl
  · simp only [step, nextOperation_request h0 h1, he]
  · simp [step, nextOperation, h0, h1]
  · simp only [step, nextOperation_exposed h ho] <;> rfl

/-- Settles O10: the word and the number are rejected by the decoder, and a step takes over the rejection of a word. -/
theorem illegalPacketsRefused : Obligations.IllegalPacketsRefused := by
  refine ⟨fun s rest w p h0 h1 hw => ?_, fun num f h => decodeUop_unused f h⟩
  obtain ⟨-, hrefused, -⟩ := stepRunsDecodedOperation
  exact hrefused s _ rest _ h0 h1 (decodeCmd_reserved p hw)

/-- R82: a command word decodes to a command. -/
theorem commandTarget_of_decodeCmd {w : BitVec 48} {p : Payload} {i : Instr} (h : decodeCmd w p = .ok i) :
    ∃ dev a, commandTarget i = some (dev, a) := by
  obtain ⟨q, hq⟩ := encode_of_decodeCmd h
  cases i with
  | writeByte dev a d => exact ⟨dev, a, rfl⟩
  | writePage dev a data n => exact ⟨dev, a, rfl⟩
  | readByte dev a => exact ⟨dev, a, rfl⟩
  | readPage dev a n => exact ⟨dev, a, rfl⟩
  | _ => cases hq

theorem commandTarget_instr (c : Command) : ∃ dev a, commandTarget c.instr = some (dev, a) := by
  cases c <;> exact ⟨_, _, rfl⟩

/-- R81: every command is the operation of an abstract record. -/
theorem exists_command {i : Instr} {dev : Descriptor} {a : Byte} (h : commandTarget i = some (dev, a)) :
    ∃ c : Command, c.instr = i := by
  cases i with
  | writeByte dev a d => exact ⟨.writeByte dev a d, rfl⟩
  | writePage dev a data n => exact ⟨.writePage dev a data n, rfl⟩
  | readByte dev a => exact ⟨.readByte dev a, rfl⟩
  | readPage dev a n => exact ⟨.readPage dev a n, rfl⟩
  | _ => cases h

/-- Settles O52: a request is a command word or a record of a command, and every command has a record. -/
theorem callerIssuesCommands : Obligations.CallerIssuesCommands := by
  refine ⟨fun r i h => ?_, fun i dev a h => ?_⟩
  · cases r with
    | packet w p => exact commandTarget_of_decodeCmd h
    | record c => cases h; exact commandTarget_instr c
  · obtain ⟨c, rfl⟩ := exists_command h
    exact ⟨.record c, rfl⟩

/-- Settles O15: R86, by the direction each level is. -/
theorem driveIssuesRegset : Obligations.DriveIssuesRegset :=
  fun _ _ => ⟨rfl, rfl⟩

/-- Settles O24: a driven data line is not floated. -/
theorem shiftInRefused : Obligations.ShiftInRefused := by
  intro s h
  simp [exec, execShiftIn, h]

/-- R96: the code 0 is that of no error. -/
theorem errCode_eq_zero_iff (e : Option ErrKind) : errCode e = 0 ↔ e = none := by
  cases e with
  | none => simp [errCode]
  | some k => cases k <;> simp [errCode]

/-- Settles O46: the codes themselves, and R30 of the invariant for OK. -/
theorem outcomeCodes : Obligations.OutcomeCodes := by
  refine ⟨rfl, rfl, rfl, rfl, fun s hinv => hinv.outcome.trans (errCode_eq_zero_iff s.regs.err).symm, rfl, fun p => ?_⟩
  cases p <;> decide

/-! ## Commands of one byte that succeed -/

/-- Settles O33: PREFIX, the data frame, STOP. -/
theorem writeByteSucceeds : Obligations.WriteByteSucceeds := by
  intro s dev a d m0 m1 m2 m3 hinv hw hf h hdata
  obtain ⟨t, ht⟩ := writeByte_succeeds a d m0 m1 m2 m3 hinv hw hf h hdata
  exact ⟨t, ht.next, ht.performed, ht.endedWell, ht.ended⟩

/-- Settles O35: READ_PREFIX, the data byte, the NACK, STOP. -/
theorem readByteSucceeds : Obligations.ReadByteSucceeds := by
  intro s dev a m0 m1 m2 m3 hinv hw hf h hsilent
  obtain ⟨t, ht, hrbyte⟩ := readByte_succeeds a m0 m1 m2 m3 hinv hw hf h hsilent
  exact ⟨t, ht.next, ht.performed, ht.endedWell, ht.ended, hrbyte⟩

end Sys2Proof.Machine

/-!
SUPPORT. What the accesses of START and STOP put on the pads (spec/30_encoding.md R92), from where the engine holds the
two lines and what the environment does at each access.
-/

namespace Sys2Proof.Machine

/-! ## Pads and symbols -/

/-- R24, R53: with no line driven high, a pad is high where neither the engine nor a remote device holds it low. -/
theorem pad_of_openDrain {b : Bus} (h : b.openDrain) (l : Nat) :
    b.pad l = (b.dirOf l == .float && !b.pulled l) := by
  cases hd : b.dirOf l with
  | float => cases hp : b.pulled l <;> simp [Bus.pad, hd, hp]
  | drive =>
    have hout : b.outOf l = false := by simpa [hd] using h l
    simp [Bus.pad, hd, hout]

/-- The symbol of the access that comes after `k` others from `s` on and takes the engine's lines from `c`, `d` to `c'`,
`d'`. -/
def symbolAt (dev : Descriptor) (s : State) (k : Nat) (c d c' d' : Direction) : Option Symbol :=
  padSymbol (c == .float && !s.lowAt k dev.scl) (d == .float && !s.lowAt k dev.sda)
    (c' == .float && !s.lowAt k dev.scl) (d' == .float && !s.lowAt k dev.sda)

section
variable (dev : Descriptor) (s : State) (k : Nat)

/-- R122: START's third access. -/
theorem symbolAt_eq_start_iff :
    symbolAt dev s k .float .float .float .drive = some .start ↔
      s.lowAt k dev.scl = false ∧ s.lowAt k dev.sda = false := by
  unfold symbolAt
  cases s.lowAt k dev.scl <;> cases s.lowAt k dev.sda <;> decide

/-- R124: STOP's fourth access. -/
theorem symbolAt_eq_stop_iff :
    symbolAt dev s k .float .drive .float .float = some .stop ↔
      s.lowAt k dev.scl = false ∧ s.lowAt k dev.sda = false := by
  unfold symbolAt
  cases s.lowAt k dev.scl <;> cases s.lowAt k dev.sda <;> decide

/-- R92: START and STOP need a high clock before and after, and a change of the data line. -/
theorem framing_padSymbol : ∀ scl sda scl' sda' : Level, scl = false ∨ scl' = false ∨ sda = sda' →
    framing [padSymbol scl sda scl' sda'] = [] := by
  decide

theorem framing_symbolAt_cons {c d c' d' : Direction} (h : c = .drive ∨ c' = .drive ∨ d = d')
    (ss : List (Option Symbol)) : framing (symbolAt dev s k c d c' d' :: ss) = framing ss := by
  have hnone : framing [symbolAt dev s k c d c' d'] = [] :=
    framing_padSymbol _ _ _ _ (by rcases h with rfl | rfl | rfl <;> simp)
  rw [← List.singleton_append, framing, List.filterMap_append]
  exact congrArg (· ++ framing ss) hnone

end

theorem symbolsFrom_append (scl sda : Nat) (b : Bus) (es fs : List Event) :
    symbolsFrom scl sda b (es ++ fs) = symbolsFrom scl sda b es ++ symbolsFrom scl sda (replay b es) fs := by
  induction es generalizing b with
  | nil => rfl
  | cons e es ih =>
    cases e with
    | acc a => simp only [List.cons_append, symbolsFrom, replay_cons, ih]
    | env c => exact ih _
    | phase p => exact ih _

/-! ## Along accesses -/

/-- From `s` to `t` the accesses put the symbols `ss` on the lines of `dev`, and the engine left them at `c`, `d`. -/
structure Shown (dev : Descriptor) (s : State) (ss : List (Option Symbol)) (c d : Direction) (t : State) : Prop
    extends Stands dev c d t where
  sized : t.bus.dir.length = t.bus.out.length
  openDrain : t.bus.openDrain
  events : ∃ es : List Event, t.history = es.reverse ++ s.history ∧ t.bus = replay s.bus es ∧
    symbolsFrom dev.scl dev.sda s.bus es = ss
  later : ∀ k l, t.lowAt k l = s.lowAt (ss.length + k) l

/-- The environment's turn before an access makes no symbol. -/
theorem regSet_symbols (scl sda l : Nat) (f : Direction) (t : State) :
    ∃ es : List Event, (regSet l f t).history = es.reverse ++ t.history ∧ (regSet l f t).bus = replay t.bus es ∧
      symbolsFrom scl sda t.bus es =
        [padSymbol ((envTurn t).bus.pad scl) ((envTurn t).bus.pad sda) ((regSet l f t).bus.pad scl)
          ((regSet l f t).bus.pad sda)] := by
  unfold regSet envTurn
  split
  · exact ⟨[.acc (.set l f)], rfl, rfl, rfl⟩
  · rename_i changes rest _
    exact ⟨[.env changes, .acc (.set l f)], rfl, rfl, rfl⟩

theorem regSet_pulled (l l' : Nat) (f : Direction) (t : State) : (regSet l f t).bus.pulled l' = t.lowAt 0 l' :=
  envTurn_pulled t l'

theorem envTurn_openDrain {t : State} (h : t.bus.openDrain) : (envTurn t).bus.openDrain := by
  intro l
  simpa using h l

section
variable {dev : Descriptor} {s t : State} {ss : List (Option Symbol)} {c d c' d' : Direction}

theorem Shown.regSet (h : Shown dev s ss c d t) {l : Nat} {f : Direction} (hs : Stands dev c' d' (regSet l f t)) :
    Shown dev s (ss ++ [symbolAt dev s ss.length c d c' d']) c' d'
      (regSet l f t) := by
  have hran := regSet_ran l f t
  have hod := hran.openDrain h.sized h.openDrain
  obtain ⟨es, hhist, hbus, hsymbols⟩ := h.events
  obtain ⟨fs, hhist', hbus', hsymbol⟩ := regSet_symbols dev.scl dev.sda l f t
  refine ⟨hs, by rw [hran.dir, hran.out, dirAfter_length, outAfter_length, h.sized], hod,
    ⟨es ++ fs, by simp [hhist', hhist], by rw [hbus', hbus, replay_append], ?_⟩,
    fun k l' => by rw [hran.lowAt, h.later, List.length_append, Nat.add_assoc]; rfl⟩
  simp only [symbolsFrom_append, hsymbols, ← hbus, hsymbol, pad_of_openDrain hod,
    pad_of_openDrain (envTurn_openDrain h.openDrain), envTurn_dirOf, envTurn_pulled, regSet_pulled, h.later, h.clock,
    h.data, hs.clock, hs.data, symbolAt, Nat.add_zero]

theorem Shown.driveScl (h : Shown dev s ss c d t) (v : Level) :
    Shown dev s (ss ++ [symbolAt dev s ss.length c d (directionOf v) d])
      (directionOf v) d (driveScl v t) :=
  h.regSet (h.toStands.driveScl v)

theorem Shown.driveSda (h : Shown dev s ss c d t) (v : Level) :
    Shown dev s (ss ++ [symbolAt dev s ss.length c d c (directionOf v)])
      c (directionOf v) (driveSda v t) :=
  h.regSet (h.toStands.driveSda v)

end

/-! ## START and STOP -/

theorem State.Inv.shown {s : State} (h : s.Inv) :
    Shown s.regs.desc s [] (s.bus.dirOf s.regs.desc.scl) (s.bus.dirOf s.regs.desc.sda) s where
  toStands := h.latchedLines.stands
  sized := h.sized.1.trans h.sized.2.1.symm
  openDrain := h.openDrain
  events := ⟨[], rfl, rfl, rfl⟩
  later := fun k l => by simp

theorem State.Inv.latchedLinesOk {s : State} (h : s.Inv) : latchedLinesOk s = true := by
  obtain ⟨hscl, hsda, -⟩ := (Descriptor.wf_iff _ _).1 h.latch
  simp [Machine.latchedLinesOk, lineOk, hscl, hsda]

section
variable {dev : Descriptor} {s : State} {c d : Direction}

theorem Shown.startSignal (h : Shown dev s [] c d s) :
    Shown dev s
      [symbolAt dev s 0 c d c .float, symbolAt dev s 1 c .float .float .float,
        symbolAt dev s 2 .float .float .float .drive, symbolAt dev s 3 .float .drive .drive .drive]
      .drive .drive (startSignal s) :=
  (((h.driveSda true).driveScl true).driveSda false).driveScl false

theorem Shown.stopSignal (h : Shown dev s [] c d s) :
    Shown dev s
      [symbolAt dev s 0 c d .drive d, symbolAt dev s 1 .drive d .drive .drive,
        symbolAt dev s 2 .drive .drive .float .drive, symbolAt dev s 3 .float .drive .float .float]
      .float .float (stopSignal s) :=
  (((h.driveScl false).driveSda false).driveScl true).driveSda true

end

/-- Settles O19: START floats the data line and the clock before its third access, which asserts the data line low. -/
theorem startSymbol : Obligations.StartSymbol := by
  intro s hinv
  obtain ⟨es, hhist, -, hsymbols⟩ := hinv.shown.startSignal.events
  refine ⟨startSignal s, es, onLatchedLines_eq_next_iff.2 ⟨hinv.latchedLinesOk, rfl⟩, hhist, ?_, fun h => ?_⟩
  · rw [hsymbols]
    simpa using symbolAt_eq_start_iff s.regs.desc s 2
  · rw [hsymbols, List.take_succ_cons, framing_symbolAt_cons _ _ _ (h.imp_right .inr), List.take_succ_cons,
      framing_symbolAt_cons _ _ _ (.inr (.inr rfl))]
    rfl

/-- Settles O20: STOP holds the clock low up to its third access, and its fourth floats the data line. -/
theorem stopSymbol : Obligations.StopSymbol := by
  intro s hinv
  obtain ⟨es, hhist, -, hsymbols⟩ := hinv.shown.stopSignal.events
  refine ⟨stopSignal s, es, onLatchedLines_eq_next_iff.2 ⟨hinv.latchedLinesOk, rfl⟩, hhist, ?_, ?_⟩
  · rw [hsymbols]
    simpa using symbolAt_eq_stop_iff s.regs.desc s 3
  · rw [hsymbols, List.take_succ_cons, framing_symbolAt_cons _ _ _ (.inr (.inl rfl)), List.take_succ_cons,
      framing_symbolAt_cons _ _ _ (.inl rfl), List.take_succ_cons, framing_symbolAt_cons _ _ _ (.inl rfl)]
    rfl

end Sys2Proof.Machine

/-!
SUPPORT. The GPIO Line Driver (spec/40_line_driver.md): what DRIVE does to its line and to the pad.
-/

namespace Sys2Proof.Machine

theorem set_getD_self {α : Type} (v : List α) (l : Nat) (d : α) : v.set l (v.getD l d) = v := by
  by_cases hl : l < v.length
  · rw [List.getD_eq_getElem v d hl, List.set_getElem_self]
  · exact List.set_eq_of_length_le (Nat.le_of_not_lt hl)

/-- R110: on a line that already has the direction and the latch, the access changes no DIR or OUT bit. -/
theorem regSet_redundant {s : State} {l : Nat} {f : Direction} (hdir : s.bus.dirOf l = f)
    (hout : s.bus.outOf l = latchOf f) :
    (regSet l f s).bus.dir = s.bus.dir ∧ (regSet l f s).bus.out = s.bus.out := by
  have hran := regSet_ran l f s
  constructor
  · calc (regSet l f s).bus.dir = s.bus.dir.set l f := hran.dir
      _ = s.bus.dir := hdir ▸ set_getD_self s.bus.dir l .float
  · calc (regSet l f s).bus.out = s.bus.out.set l (latchOf f) := hran.out
      _ = s.bus.out := hout ▸ set_getD_self s.bus.out l false

theorem directionOf_beq_float (v : Level) : (directionOf v == .float) = v := by
  cases v <;> rfl

theorem execDrive_eq {s : State} {l : Nat} (v : Level) (hl : l < s.cfg.nlines) :
    exec (.drive l v) s = .next (drive l v s) :=
  execRegset_eq (directionOf v) hl

section
variable {s : State} {l : Nat}

/-- R110, R111: the line DRIVE names takes the direction and the latch of the level. -/
theorem State.Inv.drive_line (hinv : s.Inv) (hl : l < s.cfg.nlines) (v : Level) :
    (drive l v s).bus.dirOf l = directionOf v ∧ (drive l v s).bus.outOf l = latchOf (directionOf v) := by
  obtain ⟨hdirs, houts, -⟩ := hinv.sized
  exact (drive_ran l v s).lineAfter (as := []) (bs := []) (by omega) (by omega) (by simp)

/-- R53, R110: after DRIVE the pad is high where the level is 1 and no remote device pulls the line low. -/
theorem State.Inv.drive_pad (hinv : s.Inv) (hl : l < s.cfg.nlines) (v : Level) :
    (drive l v s).bus.pad l = (v && !(drive l v s).bus.pulled l) := by
  obtain ⟨hdirs, houts, -⟩ := hinv.sized
  have hod := (drive_ran l v s).openDrain (hdirs.trans houts.symm) hinv.openDrain
  rw [pad_of_openDrain hod, (hinv.drive_line hl v).1, directionOf_beq_float]

/-- R110: DRIVE on a line already floated, for level 1, or already asserted low, for level 0. -/
theorem drive_redundant {v : Level} (h : v = true ∧ s.bus.floated l ∨ v = false ∧ s.bus.assertedLow l) :
    (drive l v s).bus.dir = s.bus.dir ∧ (drive l v s).bus.out = s.bus.out := by
  rcases h with ⟨rfl, hdir, hout⟩ | ⟨rfl, hdir, hout⟩
  · exact regSet_redundant hdir hout
  · exact regSet_redundant hdir hout

end

/-- Settles O16: DRIVE is a run of one RegSet, of the direction of its level. -/
theorem driveEffect : Obligations.DriveEffect := by
  refine ⟨fun f => rfl, fun s l v hinv hl => ?_, fun s l v hl => onLine_refused hl⟩
  have hran := drive_ran l v s
  obtain ⟨hdir, hout⟩ := hinv.drive_line hl v
  refine ⟨drive l v s, execDrive_eq v hl, hran.accesses, by simpa using hran.phases, ?_, ?_, hinv.drive_pad hl v,
    fun l' hne => hran.lineSame (by simpa using Ne.symm hne), drive_redundant, drive_regs l v s, hran.cfg,
    hran.requests, hran.exposed, hran.opened, hran.lowAt⟩
  · rintro rfl
    exact ⟨hdir, hout⟩
  · rintro rfl
    exact ⟨hdir, hout⟩

end Sys2Proof.Machine

/-!
SUPPORT. The Bus Signal Primitives (spec/41_bus_signals.md): what START, STOP and INIT leave of the two lines and of the
registers, and a command whose bus check sees no high sample.
-/

namespace Sys2Proof.Machine

/-! ## START and STOP -/

/-- R24, R111: with no line driven high, a driven line is asserted low. -/
theorem assertedLow_of_openDrain {b : Bus} {l : Nat} (h : b.openDrain) (hd : b.dirOf l = .drive) : b.assertedLow l :=
  ⟨hd, by simpa [hd] using h l⟩

/-- R124: a STOP at the end of a run leaves both lines floated. -/
theorem Ran.stopped_lines {s t : State} {dev : Descriptor} {ms : List Mark} {ps : List Phase}
    (h : Ran s t (marked dev (ms ++ stopMarks)) ps) (hl : Lines dev s) :
    t.bus.floated dev.scl ∧ t.bus.floated dev.sda :=
  ⟨h.sclAfter hl stopMarks_endsHigh, h.sdaFloated hl stopMarks_endsFloated⟩

/-- A primitive is let through by the latched lines of a state with the invariant. -/
theorem State.Inv.onLatchedLines_eq {s : State} (hinv : s.Inv) (t : State) : onLatchedLines s t = .next t :=
  onLatchedLines_eq_next_iff.2 ⟨hinv.latchedLinesOk, rfl⟩

/-- Settles O17: START is a run of its four accesses, after which the engine drives both lines, so low. -/
theorem startEffect : Obligations.StartEffect := by
  refine ⟨fun f => rfl, fun s hinv => ?_⟩
  have hshown := hinv.shown.startSignal
  exact ⟨startSignal s, hinv.onLatchedLines_eq _, (startSignal_ran s).performed,
    assertedLow_of_openDrain hshown.openDrain hshown.clock, assertedLow_of_openDrain hshown.openDrain hshown.data,
    startSignal_regs s⟩

/-- Settles O18: STOP is a run of its four accesses. -/
theorem stopEffect : Obligations.StopEffect := by
  refine ⟨fun f => rfl, fun s hinv => ?_⟩
  have hran := stopSignal_ran s
  obtain ⟨hscl, hsda⟩ := hran.stopped_lines (ms := []) hinv.latchedLines
  exact ⟨stopSignal s, hinv.onLatchedLines_eq _, hran.performed, hscl, hsda, stopSignal_regs s⟩

/-! ## INIT -/

/-- R127: a poll for a high data line that never sees it is as many low samples as the bound. -/
theorem pollMarks_high_unseen (n : Nat) : pollMarks true n false = List.replicate n (.r false) := by
  simp [pollMarks]

/-- R211, R216: low samples and the flags of the raise are all a failed bus check leaves. -/
theorem stuck_of_poll {s t : State} {dev : Descriptor} {n : Nat} {ps : List Phase}
    (h : Ran s t (marked dev (pollMarks true n false)) ps) (hphase : t.regs.phase = .idle) (hok : t.regs.ok = false)
    (herr : t.regs.err = some .busStuckLow) : s.stuck t := by
  obtain ⟨hdir, hout⟩ := stuck_lines h
  exact ⟨hdir, hout, hphase, hok, herr⟩

section
variable {s : State}

/-- R125: INIT that sees the bus free, the poll and then a STOP. -/
theorem State.Inv.init_free {m : Nat} (hinv : s.Inv) (hf : s.bus.dirOf s.regs.desc.sda = .float)
    (h : busFree s s.regs.desc.sda m) :
    ∃ t, exec .init s = .next t ∧ Ran s t (marked s.regs.desc (recoveryMarks m)) [] ∧
      t.bus.floated s.regs.desc.scl ∧ t.bus.floated s.regs.desc.sda ∧ t.regs.lasting = s.regs.lasting := by
  obtain ⟨hm, hseen⟩ := h
  obtain ⟨t, ht, hran, hregs⟩ := busRecovery_seen m s hf hm hseen
  obtain ⟨hscl, hsda⟩ := hran.stopped_lines hinv.latchedLines
  refine ⟨t, ?_, hran, hscl, hsda, by rw [hregs]; rfl⟩
  calc exec .init s = .next (busRecovery s).state := hinv.onLatchedLines_eq _
    _ = .next t := by rw [ht, state_ok]

/-- R125, R126: INIT that never sees the data line high, the poll and then the raise. -/
theorem State.Inv.init_stuck (hinv : s.Inv)
    (h : s.bus.dirOf s.regs.desc.sda = .float → neverSeen s s.regs.desc.sda true 0 s.cfg.tInit) :
    ∃ t, exec .init s = .next t ∧ t.raised = true ∧
      Ran s t (marked s.regs.desc (List.replicate s.cfg.tInit (.r false))) [.idle] ∧ s.stuck t ∧
      t.regs.lasting = { s.regs.lasting with ok := false, err := some .busStuckLow } := by
  obtain ⟨t, ht, hran, hregs⟩ := busRecovery_stuck s hinv.openDrain h
  refine ⟨t, ?_, busRecovery_raised ht, pollMarks_high_unseen s.cfg.tInit ▸ hran,
    stuck_of_poll hran (by rw [hregs]) (by rw [hregs]) (by rw [hregs]), by simp [hregs, Regs.lasting, hinv.idle]⟩
  calc exec .init s = .next (busRecovery s).state := hinv.onLatchedLines_eq _
    _ = .next t := by rw [ht, state_raised]

end

/-- Settles O21: the two ways INIT's poll can go. -/
theorem initEffect : Obligations.InitEffect := by
  refine ⟨fun f => rfl, fun s m hinv hf h => ?_, fun s hinv h => ?_⟩
  · obtain ⟨t, ht, hran, hscl, hsda, hregs⟩ := hinv.init_free hf h
    exact ⟨t, ht, hran.performed, hscl, hsda, hregs⟩
  · obtain ⟨t, ht, -, hran, hstuck, hregs⟩ := hinv.init_stuck h
    exact ⟨t, ht, hran.performed, hstuck, hregs⟩

/-! ## The bus check of a command -/

/-- R182: PREFIX fails where its INIT does. -/
theorem prefixPart_of_busRecovery_raised {s u : State} (h : busRecovery s = .raised u) :
    prefixPart s = .raised u := by
  rw [prefixPart, h, andThen_raised]

/-- Settles O40: every command begins with INIT on the lines acceptance has latched, and ends where INIT raises. -/
theorem busStuckLowFails : Obligations.BusStuckLowFails := by
  intro i s dev a ht hinv hw h
  obtain ⟨op, ds, n, body, hexec, hdev, hprefix, -, hlatches, -⟩ := command_cases ht s hinv.idle hw
  obtain ⟨u, hu, hran, hregs⟩ := busRecovery_stuck (accept dev op a ds n s) hinv.openDrain fun hf =>
    ((accept_ran dev op a ds n s).neverSeen_iff dev.sda 0 s.cfg.tInit true).2 (by simpa using h hf)
  obtain ⟨f, hbody⟩ := hprefix (accept dev op a ds n s)
  have hall : Ran s (settle false u) (marked dev (pollMarks true s.cfg.tInit false)) [.busCheck, .idle] :=
    command_raised hran
  refine ⟨settle false u, ?_, (pollMarks_high_unseen s.cfg.tInit ▸ hall).performed,
    stuck_of_poll hall (by simp [hregs]) (by simp [hregs]) (by simp [hregs]),
    ended_raised ⟨s.regs.rbyte, s.regs.rbuf, ?_⟩⟩
  · rw [hexec, hbody, prefixPart_of_busRecovery_raised hu, andThen_raised, endCommand]
  · rw [hregs, hlatches]
    rfl

end Sys2Proof.Machine

/-!
SUPPORT. INIT at the port that exposes primitives (spec/70_reset_and_hazards.md R257): what the step that inserts it
does, and that a transaction is opened by nothing else.
-/

namespace Sys2Proof.Machine

/-! ## Taking and leaving an operation -/

@[simp] theorem afterOperation_accesses (s : State) (i : Instr) : (s.afterOperation i).accesses = s.accesses := by
  simp [State.accesses]

@[simp] theorem afterOperation_phases (s : State) (i : Instr) : (s.afterOperation i).phases = s.phases := by
  simp [State.phases]

/-- Taking the next operation is no access and opens nothing. -/
theorem nextOperation_frame {s t : State} {o : Except DecodeError Instr} (h : nextOperation s = some (o, t)) :
    t.opened = s.opened ∧ t.regs = s.regs ∧ t.accesses = s.accesses := by
  unfold nextOperation at h
  split at h
  · split at h <;> cases h <;> exact ⟨rfl, rfl, rfl⟩
  · cases h
    exact ⟨rfl, rfl, rfl⟩
  · cases h

/-- Only INIT opens a transaction that was not open. -/
theorem openAfter_eq_true {i : Instr} {o : Bool} (h : openAfter i o = true) : o = true ∨ i = .init := by
  cases i with
  | init => exact .inr rfl
  | stop | writeByte | writePage | readByte | readPage => simp [openAfter] at h
  | regset | regin | drive | start | shiftOut | shiftIn | waitAck | waitNack | masterAck | sendDevAddr
  | sendByteAddr => exact .inl h

/-- R257: the step that finds an exposed operation of a transaction no INIT has opened. -/
theorem step_unopened {s t : State} {i : Instr} {rest : List Instr} (h : s.exposed = i :: rest)
    (ho : s.opened = false) (hi : beginsWithInit i = false) (ht : exec .init s = .next t) :
    step s = .next (t.afterOperation .init) := by
  simp only [step, nextOperation_unopened h ho hi, ht]

/-- R125: INIT that completes without a raise has issued its STOP. -/
theorem State.Inv.init_not_raised {s t : State} (hinv : s.Inv) (h : exec .init s = .next t) (hr : t.raised = false) :
    ∃ m, t.accesses = s.accesses ++ marked s.regs.desc (recoveryMarks m) := by
  obtain ⟨-, rfl⟩ := onLatchedLines_eq_next_iff.1 h
  have hrecovered := busRecovery_recovered hinv.openDrain
  cases hres : busRecovery s with
  | ok u =>
    rw [hres] at hrecovered
    cases hrecovered with
    | ok hran => exact ⟨_, hran.accesses⟩
  | raised u => simp [hres, busRecovery_raised hres] at hr

/-- Settles O53: the two ways the inserted INIT can go, and what an operation leaves of `opened`. -/
theorem initFirst : Obligations.InitFirst := by
  refine ⟨fun s i rest m hinv hx ho hi hf h => ?_, fun s i rest hinv hx ho hi h => ?_, fun s t hinv hstep hopen => ?_⟩
  · obtain ⟨t, ht, hran, hscl, hsda, hregs⟩ := hinv.init_free hf h
    have hr : t.raised = false := hran.not_raised (by simp [recoveryMarks, stopMarks])
    exact ⟨_, step_unopened hx ho hi ht, by simpa using hran.accesses, by simp [afterOperation_opened, hr, openAfter],
      by simp [afterOperation_exposed, hr, hran.exposed, hx], by simpa using hran.requests, by simpa using hran.phases,
      by simpa using hscl, by simpa using hsda, by simpa using hregs⟩
  · obtain ⟨t, ht, hr, hran, hstuck, -⟩ := hinv.init_stuck h
    exact ⟨_, step_unopened hx ho hi ht, by simpa using hran.accesses, by simp [afterOperation_opened, hr],
      by simp [afterOperation_exposed, hr], by simpa using hran.requests, by simpa [State.stuck] using hstuck⟩
  · rcases step_cases hstep with rfl | ⟨i, u, v, hnext, hexec, rfl⟩
    · exact .inl hopen
    · obtain ⟨huopen, huregs, huacc⟩ := nextOperation_frame hnext
      obtain ⟨as, ps, hran⟩ := exec_reaches hexec
      obtain ⟨hr, hafter⟩ : v.raised = false ∧ openAfter i v.opened = true := by
        simpa [afterOperation_opened] using hopen
      rcases openAfter_eq_true hafter with hv | rfl
      · exact .inl (by rw [← huopen, ← hran.opened, hv])
      · obtain ⟨m, hm⟩ := (nextOperation_inv hinv hnext).init_not_raised hexec hr
        exact .inr ⟨m, by rw [afterOperation_accesses, hm, huacc, huregs]⟩

end Sys2Proof.Machine

/-!
SUPPORT. The Bit/Byte Transfer (spec/42_transfer.md): where the bit cells of SHIFT_OUT and SHIFT_IN leave the two lines.
-/

namespace Sys2Proof.Machine

/-! ## The lines after bit cells -/

/-- After marks whose last on the data line is `D v` the data line is floated for 1 and asserted low for 0. -/
theorem Ran.sdaAfter {s t : State} {dev : Descriptor} {ms ns : List Mark} {ps : List Phase} {v : Level}
    (h : Ran s t (marked dev (ms ++ .d v :: ns)) ps) (hl : Lines dev s) (hn : ∀ w, .d w ∉ ns) :
    (v = true → t.bus.floated dev.sda) ∧ (v = false → t.bus.assertedLow dev.sda) := by
  have hset : Ran s t (marked dev ms ++ .set dev.sda (directionOf v) :: marked dev ns) ps := by
    simpa [Mark.access] using h
  have hline := hset.lineAfter hl.sdaDir hl.sdaOut fun l g hm => by
    obtain ⟨m, hmem, hacc⟩ := List.mem_map.1 hm
    cases m with
    | c w =>
      obtain ⟨rfl, -⟩ := Access.set.inj hacc
      exact hl.distinct
    | d w => exact absurd hmem (hn w)
    | r w => cases hacc
  constructor <;> rintro rfl <;> exact hline

/-- R91, R120: a bit cell the engine sends ends with the clock lowered. -/
theorem sentMarks_endsLow (vs : List Level) (v : Level) :
    ∃ as bs, sentMarks (vs ++ [v]) = as ++ .c false :: bs ∧ ∀ w, .c w ∉ bs :=
  ⟨sentMarks vs ++ [.d v, .c true], [], by simp [sentMarks_append], by simp⟩

/-- R143: a received bit ends with the clock lowered. -/
theorem receivedMarks_endsLow {bits : List Level} (h : bits ≠ []) :
    ∃ as bs, receivedMarks bits = as ++ .c false :: bs ∧ ∀ w, .c w ∉ bs := by
  obtain ⟨vs, v, rfl⟩ := (List.eq_nil_or_concat bits).resolve_left h
  exact ⟨receivedMarks vs ++ [.c true, .r v], [], by simp [receivedMarks], by simp⟩

/-- R141: sent cells leave the clock asserted low and the data line at the level of the last bit. -/
theorem Ran.sent_lines {s t : State} {dev : Descriptor} {vs : List Level} {v : Level} {ps : List Phase}
    (h : Ran s t (marked dev (sentMarks (vs ++ [v]))) ps) (hl : Lines dev s) :
    t.bus.assertedLow dev.scl ∧ (v = true → t.bus.floated dev.sda) ∧ (v = false → t.bus.assertedLow dev.sda) := by
  refine ⟨h.sclAfter (ms := []) hl (sentMarks_endsLow vs v), ?_⟩
  rw [sentMarks_append] at h
  exact h.sdaAfter (ns := [.c true, .c false]) hl (by simp)

/-- R145: received bits leave the clock asserted low and the data line as found. -/
theorem Ran.received_lines {s t : State} {dev : Descriptor} {bits : List Level} {ps : List Phase}
    (h : Ran s t (marked dev (receivedMarks bits)) ps) (hl : Lines dev s) (hne : bits ≠ []) :
    t.bus.assertedLow dev.scl ∧ t.bus.dirOf dev.sda = s.bus.dirOf dev.sda ∧
      t.bus.outOf dev.sda = s.bus.outOf dev.sda :=
  ⟨h.sclAfter (ms := []) hl (receivedMarks_endsLow hne), h.sdaSame hl.distinct (by simp [receivedMarks])⟩

/-- R143: the cells of SHIFT_IN, each with the level the environment leaves on the floated data line. -/
theorem receivedMarks_levelsAhead (s : State) (l : Nat) :
    receivedMarks (levelsAhead s l 0) =
      (List.range 8).flatMap fun j => [.c true, .r (!s.lowAt (3 * j + 1) l), .c false] := by
  simp [receivedMarks, levelsAhead, List.flatMap_map]

/-! ## SHIFT_OUT and SHIFT_IN -/

/-- Settles O22: SHIFT_OUT is a run of the eight cells of a frame, the last of which is bit 0's. -/
theorem shiftOutEffect : Obligations.ShiftOutEffect := by
  refine ⟨fun f => rfl, fun s b hinv => ?_⟩
  have hran := shiftOut_ran b s
  obtain ⟨hscl, hhigh, hlow⟩ := hran.sent_lines (vs := (bitsOf b).dropLast) (v := b.getLsbD 0) hinv.latchedLines
  exact ⟨shiftOut b s, hinv.onLatchedLines_eq _, hran.performed, hscl, hhigh, hlow, by simp,
    by simp [Regs.lasting]⟩

/-- Settles O23: SHIFT_IN is a run of eight received cells, which move only the clock. -/
theorem shiftInEffect : Obligations.ShiftInEffect := by
  refine ⟨fun f => rfl, fun s hinv hf => ?_⟩
  obtain ⟨hran, hregs⟩ := shiftIn_spec s hinv.latchedLines.distinct hf
  obtain ⟨hscl, hdir, hout⟩ := hran.received_lines hinv.latchedLines (List.ne_nil_of_length_pos (by simp))
  refine ⟨shiftIn s, execShiftIn_eq_next_iff.2 ⟨hf, hinv.latchedLinesOk, rfl⟩,
    receivedMarks_levelsAhead s s.regs.desc.sda ▸ hran.performed, fun j hj => ?_, hscl, hdir.trans hf, hout,
    by simp [hregs, Regs.lasting]⟩
  rw [hregs, byteOfBits_levelsAhead_getLsbD s s.regs.desc.sda 0 hj, Nat.zero_add]

end Sys2Proof.Machine

/-!
SUPPORT. The Acknowledge Protocol (spec/43_acknowledge.md): what an acknowledge pulse leaves of the two lines and of the
registers, at its end and after a raise.
-/

namespace Sys2Proof.Machine

/-! ## The acknowledge pulse -/

/-- R152: the accesses of a pulse whose poll sees a low data line after `m` high samples. -/
theorem ackMarks_seen (m : Nat) :
    ackMarks m true = [.d true, .c true] ++ List.replicate m (.r true) ++ [.r false] ++ [.c false] := by
  simp [ackMarks, pollMarks]

/-- R152: the accesses of a pulse whose poll takes `n` samples, all high. -/
theorem ackMarks_unseen (n : Nat) :
    ackMarks n false = [.d true, .c true] ++ List.replicate n (.r true) ++ [.c false] := by
  simp [ackMarks, pollMarks]

/-- R150: an acknowledge pulse at the end of a run leaves the clock asserted low and the data line floated, whatever its
poll has seen. -/
theorem Ran.acked_lines {s t : State} {dev : Descriptor} {ms : List Mark} {m : Nat} {seen : Bool} {ps : List Phase}
    (h : Ran s t (marked dev (ms ++ ackMarks m seen)) ps) (hl : Lines dev s) :
    t.bus.assertedLow dev.scl ∧ t.bus.floated dev.sda :=
  ⟨h.sclAfter hl (ackMarks_endsLow m seen), h.sdaFloated hl (ackMarks_endsFloated m seen)⟩

section
variable {s t : State} {m p : Nat} {seen : Bool}

/-- What a wait that comes to its end leaves: of the registers `POLL` alone is written. -/
theorem State.Inv.ack_completed (hinv : s.Inv) (hran : Ran s t (marked s.regs.desc (ackMarks m seen)) [])
    (hregs : t.regs = { s.regs with poll := p }) :
    s.Performed s.regs.desc (ackMarks m seen) [] t ∧ t.bus.assertedLow s.regs.desc.scl ∧
      t.bus.floated s.regs.desc.sda ∧ t.regs.lasting = s.regs.lasting := by
  obtain ⟨hscl, hsda⟩ := hran.acked_lines (ms := []) hinv.latchedLines
  exact ⟨hran.performed, hscl, hsda, by rw [hregs]; rfl⟩

/-- R216: what a wait that raises `k` leaves: the lines as at its end, and the flags of the raise. -/
theorem State.Inv.ack_raised {k : ErrKind} (hinv : s.Inv)
    (hran : Ran s t (marked s.regs.desc (ackMarks m seen)) [.idle])
    (hregs : t.regs = { s.regs with poll := p, ok := false, err := some k, phase := .idle }) :
    s.Performed s.regs.desc (ackMarks m seen) [.idle] t ∧ t.aborted s.regs.desc k ∧
      t.regs.lasting = { s.regs.lasting with ok := false, err := some k } := by
  obtain ⟨hscl, hsda⟩ := hran.acked_lines (ms := []) hinv.latchedLines
  exact ⟨hran.performed, ⟨hscl, hsda, by rw [hregs], by rw [hregs], by rw [hregs]⟩,
    by simp [hregs, Regs.lasting, hinv.idle]⟩

end

/-! ## WAIT_ACK, WAIT_NACK and MASTER_ACK -/

theorem State.Inv.exec_waitAck {s : State} (hinv : s.Inv) (n : Nat) :
    exec (.waitAck n) s = .next (waitAck n s).state :=
  hinv.onLatchedLines_eq _

theorem State.Inv.exec_waitNack {s : State} (hinv : s.Inv) (n : Nat) :
    exec (.waitNack n) s = .next (waitNack n s).state :=
  hinv.onLatchedLines_eq _

/-- Settles O25: a low sample ends WAIT_ACK's pulse well, and a pulse without one raises NoAck. -/
theorem waitAckEffect : Obligations.WaitAckEffect := by
  refine ⟨fun f => rfl, fun s T m hinv h => ?_, fun s T hinv h => ?_⟩
  · obtain ⟨hm, hseen⟩ := h
    obtain ⟨t, ht, hran, hregs⟩ :=
      waitAck_seen T m s hinv.latchedLines.distinct hinv.latchedLines.sdaDir hm hseen
    exact ⟨t, by rw [hinv.exec_waitAck, ht, state_ok], ackMarks_seen m ▸ hinv.ack_completed hran hregs⟩
  · obtain ⟨t, ht, hran, hregs⟩ := waitAck_never T s hinv.latchedLines.distinct hinv.latchedLines.sdaDir h
    exact ⟨t, by rw [hinv.exec_waitAck, ht, state_raised], ackMarks_unseen T ▸ hinv.ack_raised hran hregs⟩

/-- Settles O26: WAIT_ACK's two outcomes change places. -/
theorem waitNackEffect : Obligations.WaitNackEffect := by
  refine ⟨fun s T hinv h => ?_, fun s T m hinv h => ?_⟩
  · obtain ⟨t, ht, hran, hregs⟩ := waitNack_never T s hinv.latchedLines.distinct hinv.latchedLines.sdaDir h
    exact ⟨t, by rw [hinv.exec_waitNack, ht, state_ok], ackMarks_unseen T ▸ hinv.ack_completed hran hregs⟩
  · obtain ⟨hm, hseen⟩ := h
    obtain ⟨t, ht, hran, hregs⟩ :=
      waitNack_seen T m s hinv.latchedLines.distinct hinv.latchedLines.sdaDir hm hseen
    exact ⟨t, by rw [hinv.exec_waitNack, ht, state_raised], ackMarks_seen m ▸ hinv.ack_raised hran hregs⟩

/-- R156: a master ACK lowers the clock before it floats the data line. -/
theorem masterAckMarks_endsLow : ∃ as bs, masterAckMarks = as ++ .c false :: bs ∧ ∀ v, .c v ∉ bs :=
  ⟨[.d false, .c true], [.d true], rfl, by simp⟩

/-- Settles O27: MASTER_ACK is a run of its four accesses. -/
theorem masterAckEffect : Obligations.MasterAckEffect := by
  refine ⟨fun f => rfl, fun s hinv => ?_⟩
  have hran := masterAck_ran s
  exact ⟨masterAck s, hinv.onLatchedLines_eq _, hran.performed,
    hran.sclAfter (ms := []) hinv.latchedLines masterAckMarks_endsLow,
    hran.sdaFloated (ms := []) hinv.latchedLines masterAckMarks_endsFloated, masterAck_regs s⟩

end Sys2Proof.Machine

/-!
SUPPORT. The Addressing Encoder (spec/44_addressing.md): what SEND_DEV_ADDR and SEND_BYTE_ADDR do, and a command whose
PREFIX ends with an acknowledge that does not come.
-/

namespace Sys2Proof.Machine

/-! ## SEND_DEV_ADDR -/

/-- Settles O28: SEND_DEV_ADDR is a run of the cells of bits 7 to 1, after which comes the cell of the flag. -/
theorem sendDevAddrEffect : Obligations.SendDevAddrEffect := by
  refine ⟨fun f => rfl, fun s d rw hinv => ?_⟩
  have hran : Ran s (sendDevAddr d rw s) (marked s.regs.desc (sentMarks (addressBitsBelow d 7 ++ [rw]))) [] :=
    bitsOf_deviceFrame d rw ▸ sendDevAddr_ran d rw s
  obtain ⟨hscl, hhigh, hlow⟩ := hran.sent_lines hinv.latchedLines
  exact ⟨sendDevAddr d rw s, hinv.onLatchedLines_eq _, hran.performed, hscl, hhigh, hlow, by simp [Regs.lasting]⟩

/-! ## SEND_BYTE_ADDR -/

theorem shiftOut_lasting (b : Byte) (s : State) : (shiftOut b s).regs.lasting = s.regs.lasting := by
  simp [Regs.lasting]

theorem Lines.shiftOut {dev : Descriptor} {s : State} (h : Lines dev s) (b : Byte) : Lines dev (shiftOut b s) :=
  h.after (shiftOut_ran b s) (by simp)

/-- R173: SEND_BYTE_ADDR is a frame that awaits its acknowledge, like every frame of a command. -/
theorem State.Inv.exec_sendByteAddr {s : State} (hinv : s.Inv) (a : Byte) :
    exec (.sendByteAddr a) s = .next (awaitAck (shiftOut a s)).state :=
  hinv.onLatchedLines_eq _

/-- R216: an acknowledge pulse that raised `k`, at the end of a run, leaves the abort state. -/
theorem Ran.acked_aborted {s t : State} {dev : Descriptor} {ms : List Mark} {m : Nat} {seen : Bool} {ps : List Phase}
    {k : ErrKind} {r : Regs} (h : Ran s t (marked dev (ms ++ ackMarks m seen)) ps) (hl : Lines dev s)
    (hregs : t.regs.lasting = { r.lasting with ok := false, err := some k, phase := .idle }) : t.aborted dev k := by
  obtain ⟨hscl, hsda⟩ := h.acked_lines hl
  exact ⟨hscl, hsda, (congrArg Regs.phase hregs :), (congrArg Regs.ok hregs :), (congrArg Regs.err hregs :)⟩

/-- Settles O29: the two ways the acknowledge after the frame of the byte address can go. -/
theorem sendByteAddrEffect : Obligations.SendByteAddrEffect := by
  refine ⟨fun f => rfl, fun s a m hinv h => ?_, fun s a hinv h => ?_⟩
  · obtain ⟨t, ht, hran, -, hregs⟩ :=
      awaitAck_seen_after m (shiftOut_ran a s) (hinv.latchedLines.shiftOut a) h
    obtain ⟨hscl, hsda⟩ := hran.acked_lines hinv.latchedLines
    exact ⟨t, by rw [hinv.exec_sendByteAddr, ht, state_ok], hran.performed, hscl, hsda,
      hregs.trans (shiftOut_lasting a s)⟩
  · obtain ⟨t, ht, hran, hregs⟩ :=
      awaitAck_never_after (shiftOut_ran a s) (hinv.latchedLines.shiftOut a) h
    refine ⟨t, by rw [hinv.exec_sendByteAddr, ht, state_raised], hran.performed,
      hran.acked_aborted hinv.latchedLines hregs, ?_⟩
    rw [hregs, shiftOut_lasting]
    simp [Regs.lasting, hinv.idle]

/-! ## A command whose PREFIX is not acknowledged -/

/-- R182, R216: every command ends where an acknowledge pulse of its PREFIX raises, in the abort state; what it latched
is all that acceptance latches. -/
theorem command_noAck_in_prefix {i : Instr} {s : State} {dev : Descriptor} {a : Byte} {ms : List Mark} {m : Nat}
    {ps : List Phase} (ht : commandTarget i = some (dev, a)) (hinv : s.Inv) (hw : i.wf s.cfg.nlines = true)
    (h : ∀ op ds n, Lines dev (accept dev op a ds n s) → ∃ u, prefixPart (accept dev op a ds n s) = .raised u ∧
      Ran (accept dev op a ds n s) u (marked dev (ms ++ ackMarks m false)) ps ∧
      u.regs.lasting =
        { (accept dev op a ds n s).regs.lasting with ok := false, err := some .noAck, phase := .idle }) :
    ∃ t, exec i s = .next t ∧ s.Performed dev (ms ++ ackMarks m false) ([.busCheck] ++ ps) t ∧
      t.aborted dev .noAck ∧ s.Ended i (some .noAck) t := by
  obtain ⟨op, ds, n, body, hexec, hdev, hprefix, -, hlatches, -⟩ := command_cases ht s hinv.idle hw
  have hl := accept_lines hinv.sized hdev op a ds n
  obtain ⟨u, hu, hran, hregs⟩ := h op ds n hl
  obtain ⟨f, hbody⟩ := hprefix (accept dev op a ds n s)
  refine ⟨settle false u, ?_, (command_raised hran).performed, hran.acked_aborted hl hregs,
    ended_raised ⟨s.regs.rbyte, s.regs.rbuf, ?_⟩⟩
  · rw [hexec, hbody, hu, andThen_raised, endCommand]
  · rw [hregs, hlatches]
    rfl

/-- Settles O42: in PREFIX the device address is acknowledged and the byte address is not. -/
theorem byteAddressNoAck : Obligations.ByteAddressNoAck := by
  intro i s dev a m0 m1 ht hinv hw hf hfree hdevice hnever
  exact command_noAck_in_prefix ht hinv hw fun op ds n hl =>
    prefixPart_noAddress m0 m1 (accept dev op a ds n s) hl hf hfree hdevice hnever

end Sys2Proof.Machine

/-!
SUPPORT. The commands that fail after acceptance (spec/45_transactions.md R197, R216): what the body of each does up to
the raise, and from that what the command does.
-/

namespace Sys2Proof.Machine

section
variable {dev : Descriptor} {s t : State}

/-! ## Bodies that raise -/

theorem writeByteBody_noAck (m0 m1 m2 : Nat) (hl : Lines dev s) (hf : s.bus.dirOf dev.sda = .float)
    (h : prefixAnswered s dev.sda m0 m1 m2) (hnever : neverSeen s dev.sda false (m0 + m1 + m2 + 91) s.cfg.tAck) :
    ∃ u, writeByteBody s = .raised u ∧
      Ran s u (marked dev (prefixMarks s.regs.devb s.regs.byteAddr m0 m1 m2 ++ frameMarks (s.regs.wdata.headD 0) ++
        ackMarks s.cfg.tAck false)) (dataPhases ++ [.idle]) ∧
      u.regs.lasting = { s.regs.lasting with ok := false, err := some .noAck, phase := .idle } := by
  obtain ⟨p, hp, hran, hlines, hregs⟩ := toData_ok m0 m1 m2 hl hf h
  have hwdata : p.regs.wdata = s.regs.wdata := (congrArg Regs.wdata hregs :)
  obtain ⟨u, hu, hsend, hlast⟩ := sendByte_never (s.regs.wdata.headD 0) _ hlines
    (by rw [hran.cfg, hran.neverSeen_iff]; simpa using hnever)
  rw [hran.cfg] at hsend
  exact ⟨u, by simp only [writeByteBody, hp, andThen_ok, hwdata, hu, andThen_raised], by simpa using hran.more hsend,
    by rw [hlast, hregs]⟩

theorem writePageBody_noAck {bytes rest : List Byte} {b : Byte} (m0 m1 m2 : Nat) (ms : List Nat) (hl : Lines dev s)
    (hf : s.bus.dirOf dev.sda = .float) (h : prefixAnswered s dev.sda m0 m1 m2)
    (hpage : pageData s.regs.wdata s.regs.count = bytes ++ b :: rest) (hn : ms.length = bytes.length)
    (hdata : allAcknowledged s dev.sda s.cfg.tAck (m0 + m1 + m2 + 65) ms)
    (hnever : neverSeen s dev.sda false (m0 + m1 + m2 + 91 + writtenLength ms) s.cfg.tAck) :
    ∃ u, writePageBody s = .raised u ∧
      Ran s u (marked dev (prefixMarks s.regs.devb s.regs.byteAddr m0 m1 m2 ++ writtenMarks bytes ms ++ frameMarks b ++
        ackMarks s.cfg.tAck false)) (dataPhases ++ [.idle]) ∧
      u.regs.lasting = { s.regs.lasting with ok := false, err := some .noAck, phase := .idle } := by
  obtain ⟨p, hp, hran, hlines, hregs⟩ := toData_ok m0 m1 m2 hl hf h
  have hwdata : p.regs.wdata = s.regs.wdata := (congrArg Regs.wdata hregs :)
  have hcount : p.regs.count = s.regs.count := (congrArg Regs.count hregs :)
  have hidx := hran.finished (setIdx_ran 0 _)
  obtain ⟨u, hu, hsend, hlast⟩ := sendBytes_noAck bytes b rest ms 0 (setIdx 0 (setPhase .dataPhase p))
    (hlines.after (setIdx_ran 0 _) rfl) hn (by rw [hidx.cfg, hidx.allAcknowledged_iff]; simpa using hdata)
    (by
      rw [hidx.cfg, hidx.neverSeen_iff]
      convert hnever using 1
      simp only [marked_length, prefixMarks_length]
      omega)
  rw [hidx.cfg] at hsend
  refine ⟨u, by simp [writePageBody, hp, hwdata, hcount, hpage, hu], by simpa using hidx.more hsend, ?_⟩
  rw [hlast]
  exact congrArg (fun r : Regs => { r with ok := false, err := some .noAck, phase := .idle }) hregs

/-- The end of a read whose NACK sees a low data line, after a run `s` to `t`. -/
theorem endRead_seen_after {ms : List Mark} {ps : List Phase} (m : Nat) (hran : Ran s t (marked dev ms) ps)
    (hl : Lines dev t) (h : seenInTime s dev.sda false (ms.length + 2) s.cfg.tNack m) :
    ∃ u, endRead t = .raised u ∧ Ran s u (marked dev (ms ++ ackMarks m true)) (ps ++ [.idle]) ∧
      u.regs.lasting = { t.regs.lasting with ok := false, err := some .unexpectedAck, phase := .idle } := by
  obtain ⟨u, hu, hend, hlast⟩ := endRead_seen m t hl (by rw [hran.cfg, hran.seenInTime_iff]; simpa using h)
  exact ⟨u, hu, hran.more hend, hlast⟩

theorem readByteBody_unexpectedAck (m0 m1 m2 m3 m : Nat) (hl : Lines dev s) (hf : s.bus.dirOf dev.sda = .float)
    (h : readPrefixAnswered s dev.sda m0 m1 m2 m3)
    (hseen : seenInTime s dev.sda false (m0 + m1 + m2 + m3 + 123) s.cfg.tNack m) :
    ∃ u, readByteBody s = .raised u ∧
      Ran s u (marked dev (readPrefixMarks s.regs.devb s.regs.byteAddr m0 m1 m2 m3 ++
        receivedMarks (levelsAhead s dev.sda (m0 + m1 + m2 + m3 + 97)) ++ ackMarks m true)) (dataPhases ++ [.idle]) ∧
      u.regs.lasting =
        { s.regs.lasting with
          rbyte := byteOfBits (levelsAhead s dev.sda (m0 + m1 + m2 + m3 + 97))
          ok := false
          err := some .unexpectedAck
          phase := .idle } := by
  obtain ⟨p, hp, hran, hlines, hsda, hregs⟩ := readPrefixPart_ok m0 m1 m2 m3 s hl hf h
  obtain ⟨hreceive, hlast⟩ := receiveRbyte_spec p hlines hsda
  rw [hran.levelsAhead_eq, marked_length, readPrefixMarks_length, Nat.add_zero] at hreceive hlast
  obtain ⟨u, hu, hend, hlast'⟩ := endRead_seen_after m (hran.more hreceive)
    (hlines.after hreceive (congrArg Regs.desc hlast :)) (by simpa using hseen)
  exact ⟨u, by simp [readByteBody, hp, hu], by simpa using hend, by rw [hlast', hlast, hregs]⟩

theorem readPageBody_unexpectedAck (m0 m1 m2 m3 m : Nat) (hl : Lines dev s) (hf : s.bus.dirOf dev.sda = .float)
    (hn : 1 ≤ s.regs.count) (h : readPrefixAnswered s dev.sda m0 m1 m2 m3)
    (hseen : seenInTime s dev.sda false (m0 + m1 + m2 + m3 + 96 + 28 * s.regs.count) s.cfg.tNack m) :
    ∃ u, readPageBody s = .raised u ∧
      Ran s u (marked dev (readPrefixMarks s.regs.devb s.regs.byteAddr m0 m1 m2 m3 ++
        pageReadMarks (pageLevelsAhead s dev.sda (m0 + m1 + m2 + m3 + 97) s.regs.count) ++ [.d true] ++
        ackMarks m true)) (dataPhases ++ [.idle]) ∧
      u.regs.lasting =
        { s.regs.lasting with
          rbuf := (pageLevelsAhead s dev.sda (m0 + m1 + m2 + m3 + 97) s.regs.count).map byteOfBits
          ok := false
          err := some .unexpectedAck
          phase := .idle } := by
  obtain ⟨p, hp, hran, hlines, hsda, hregs⟩ := readPrefixPart_ok m0 m1 m2 m3 s hl hf h
  obtain ⟨n, hcount⟩ := Nat.exists_eq_add_of_le' hn
  have hpcount : p.regs.count = n + 1 := (congrArg Regs.count hregs :).trans hcount
  rw [hcount] at hseen ⊢
  have hidx := (hran.finished (clearRbuf_ran p)).finished (setIdx_ran 0 _)
  obtain ⟨v, hv, hreceive, hlv, hlast⟩ := receiveBytes_toEnd n 0 (setIdx 0 (clearRbuf p))
    ((hlines.after (clearRbuf_ran p) rfl).after (setIdx_ran 0 _) rfl) hsda
  rw [hidx.pageLevelsAhead_eq, marked_length, readPrefixMarks_length, Nat.add_zero] at hreceive hlast
  obtain ⟨u, hu, hend, hlast'⟩ := endRead_seen_after m (hidx.more hreceive) hlv (by
    convert hseen using 1
    simp only [List.length_append, readPrefixMarks_length, pageReadMarks_length, List.length_singleton]
    omega)
  refine ⟨u, by simp [readPageBody, hp, hpcount, hv, hu], by simpa using hend, ?_⟩
  rw [hlast', hlast]
  exact congrArg (fun r : Regs => { r with
    rbuf := (pageLevelsAhead s dev.sda (m0 + m1 + m2 + m3 + 97) (n + 1)).map byteOfBits
    ok := false
    err := some .unexpectedAck
    phase := .idle }) hregs

/-! ## Whole commands -/

/-- A command whose body raised `k` at an acknowledge pulse ends in the abort state (R216): what the body leaves in the
registers is what acceptance latched and the flags of the raise, but for the read results. -/
theorem aborts_of_body {i : Instr} {op : CmdOp} {a : Byte} {ds : List Byte} {n m : Nat} {seen : Bool} {u : State}
    {r : Res} {ms : List Mark} {ps : List Phase} {k : ErrKind} (hl : Lines dev (accept dev op a ds n s))
    (hexec : exec i s = endCommand r) (hr : r = .raised u)
    (hran : Ran (accept dev op a ds n s) u (marked dev (ms ++ ackMarks m seen)) ps)
    (hregs : ∃ b1 b2,
      u.regs.lasting =
        ({ commandLatches i s.regs with
            phase := .idle, ok := false, err := some k, rbyte := b1, rbuf := b2 }).lasting) :
    ∃ t, exec i s = .next t ∧ s.Performed dev (ms ++ ackMarks m seen) ([.busCheck] ++ ps) t ∧ t.aborted dev k ∧
      s.Ended i (some k) t := by
  obtain ⟨b1, b2, hlast⟩ := hregs
  refine ⟨settle false u, by rw [hexec, hr]; rfl, (command_raised hran).performed, ?_, ended_raised ⟨b1, b2, hlast⟩⟩
  exact aborted_of_ack hran hl (congrArg Regs.phase hlast :) (congrArg Regs.ok hlast :) (congrArg Regs.err hlast :)

end

/-- Settles O41: in PREFIX the bus is seen free and the device address is not acknowledged. -/
theorem deviceAddressNoAck : Obligations.DeviceAddressNoAck := by
  intro i s dev a m0 ht hinv hw hf hfree hnever
  exact command_noAck_in_prefix ht hinv hw fun op ds n hl =>
    prefixPart_noDevice m0 (accept dev op a ds n s) hl hf hfree hnever

/-- Settles O43: PREFIX comes to its end, and one of the data frames is not acknowledged. -/
theorem dataByteNoAck : Obligations.DataByteNoAck := by
  refine ⟨fun s dev a d m0 m1 m2 hinv hw hf h hnever => ?_,
    fun s dev a b bytes rest count m0 m1 m2 ms hinv hw hlt hle hms hf h hdata hnever => ?_⟩
  · have hl := accept_lines hinv.sized hw .writeByte a [d] s.regs.count
    obtain ⟨u, hu, hran, hregs⟩ := writeByteBody_noAck m0 m1 m2 hl hf h hnever
    exact aborts_of_body hl (execWriteByte_eq a d hinv.idle hw) hu hran ⟨s.regs.rbyte, s.regs.rbuf, hregs⟩
  · have hl := accept_lines hinv.sized hw .writePage a (bytes ++ b :: rest) count
    obtain ⟨n, rfl⟩ := Nat.exists_eq_add_of_lt hlt
    have hpage : pageData (bytes ++ b :: rest) (bytes.length + n + 1) = bytes ++ b :: rest.take n := by
      rw [pageData, Nat.add_assoc, List.take_length_add_append, List.take_succ_cons]
    obtain ⟨u, hu, hran, hregs⟩ := writePageBody_noAck m0 m1 m2 ms hl hf h hpage hms
      (((accept_ran dev .writePage a _ _ s).allAcknowledged_iff _ _ _ _).2 (by simpa using hdata)) hnever
    exact aborts_of_body hl (execWritePage_eq a hinv.idle hw hle) hu hran ⟨s.regs.rbyte, s.regs.rbuf, hregs⟩

/-- Settles O44: PREFIX comes to its end, and the read-mode device address is not acknowledged. -/
theorem readAddressNoAck : Obligations.ReadAddressNoAck := by
  intro i s dev a m0 m1 m2 ht hread hinv hw hf h hnever
  obtain ⟨op, ds, n, body, hexec, hdev, -, hprefix, hlatches, -⟩ := command_cases ht s hinv.idle hw
  have hl := accept_lines hinv.sized hdev op a ds n
  obtain ⟨u, hu, hran, hregs⟩ := readPrefixPart_noRead m0 m1 m2 (accept dev op a ds n s) hl hf h hnever
  obtain ⟨f, hbody⟩ := hprefix hread (accept dev op a ds n s)
  refine aborts_of_body hl hexec (by rw [hbody, hu, andThen_raised]) hran ⟨s.regs.rbyte, s.regs.rbuf, ?_⟩
  rw [hregs, hlatches]
  rfl

/-- Settles O45: READ_PREFIX and the data bytes come to their end, and the NACK's pulse sees a low data line. -/
theorem unexpectedAckFails : Obligations.UnexpectedAckFails := by
  refine ⟨fun s dev a m0 m1 m2 m3 m hinv hw hf h hseen => ?_,
    fun s dev a count m0 m1 m2 m3 m hinv hw hcount hf h hseen => ?_⟩
  · have hl := accept_lines hinv.sized hw .readByte a s.regs.wdata s.regs.count
    obtain ⟨u, hu, hran, hregs⟩ := readByteBody_unexpectedAck m0 m1 m2 m3 m hl hf h hseen
    exact aborts_of_body hl (execReadByte_eq a hinv.idle hw) hu hran ⟨_, s.regs.rbuf, hregs⟩
  · have hl := accept_lines hinv.sized hw .readPage a s.regs.wdata count
    obtain ⟨u, hu, hran, hregs⟩ := readPageBody_unexpectedAck m0 m1 m2 m3 m hl hf hcount h hseen
    exact aborts_of_body hl (execReadPage_eq a hinv.idle hw hcount) hu hran ⟨s.regs.rbyte, _, hregs⟩

end Sys2Proof.Machine

/-!
SUPPORT. How many accesses a successful command performs (spec/45_transactions.md R186, R188, R191, R193), and that a page
of one byte is written as WRITE_BYTE writes it (R188).
-/

namespace Sys2Proof.Machine

/-! ## Counting accesses -/

theorem Succeeds.accesses_length {i : Instr} {dev : Descriptor} {ms : List Mark} {s t : State}
    (h : Succeeds i dev ms s t) : t.accesses.length = s.accesses.length + ms.length := by
  rw [h.performed.accesses, List.length_append, marked_length]

/-- R188: a data byte acknowledged at sample `m + 1` takes `27 + (m + 1)` accesses. -/
theorem writtenLength_eq_sum (ms : List Nat) : writtenLength ms = (ms.map fun m => 27 + (m + 1)).sum := by
  induction ms with
  | nil => rfl
  | cons m ms ih =>
    simp only [writtenLength, List.length_cons, List.sum_cons, List.map_cons] at ih ⊢
    omega

/-- Settles O38: the lengths of the traces of the four commands. -/
theorem accessCounts : Obligations.AccessCounts := by
  refine ⟨fun s dev a d m0 m1 m2 m3 h => ?_, fun s dev a data m0 m1 m2 ms h hms => ?_,
    fun s dev a m0 m1 m2 m3 h => ?_, fun s dev a count m0 m1 m2 m3 hcount h => ?_⟩
  · obtain ⟨t, ht⟩ := writeByte_succeeds a d m0 m1 m2 m3 h.inv h.valid h.floated h.opened h.data
    refine ⟨t, ht.next, ht.accesses_length.trans ?_⟩
    simp only [List.length_append, prefixMarks_length, frameMarks_length, ackMarks_length, stopMarks_length,
      Bool.toNat_true]
    omega
  · obtain ⟨t, ht⟩ := writePage_succeeds a data ms.length m0 m1 m2 ms h.inv h.valid hms rfl h.floated h.opened h.data
    refine ⟨t, ht.next, ht.accesses_length.trans ?_⟩
    rw [← writtenLength_eq_sum]
    simp only [List.length_append, prefixMarks_length, stopMarks_length,
      writtenMarks_length _ _ (List.length_take_of_le hms).symm]
    omega
  · obtain ⟨t, ht, -⟩ := readByte_succeeds a m0 m1 m2 m3 h.inv h.valid h.floated h.opened h.silent
    refine ⟨t, ht.next, ht.accesses_length.trans ?_⟩
    simp only [List.length_append, readPrefixMarks_length, receivedMarks_length, levelsAhead_length, ackMarks_length,
      stopMarks_length, Bool.toNat_false]
    omega
  · obtain ⟨t, ht, -⟩ := readPage_succeeds a count m0 m1 m2 m3 h.inv h.valid hcount h.floated h.opened
      (by convert h.silent using 1; omega)
    refine ⟨t, ht.next, ht.accesses_length.trans ?_⟩
    obtain ⟨n, rfl⟩ := Nat.exists_eq_add_of_le' hcount
    simp only [List.length_append, readPrefixMarks_length, pageReadMarks_length, List.length_singleton,
      ackMarks_length, stopMarks_length, Bool.toNat_false]
    omega

/-! ## A page of one byte -/

/-- The command `i` performs the accesses `ms` and the phase changes `ps` from `s` and ends with `ERR` at `e`. -/
def EndsAs (i : Instr) (dev : Descriptor) (ms : List Mark) (ps : List Phase) (e : Option ErrKind) (s : State) : Prop :=
  ∃ t, exec i s = .next t ∧ s.Performed dev ms ps t ∧ s.Ended i e t

/-- The accesses of an operation determine what it does to DIR and OUT. -/
theorem exec_dir_out {i : Instr} {s t : State} {as : List Access} (hexec : exec i s = .next t)
    (h : t.accesses = s.accesses ++ as) : t.bus.dir = dirAfter s.bus.dir as ∧ t.bus.out = outAfter s.bus.out as := by
  obtain ⟨bs, ps, hran⟩ := exec_reaches hexec
  obtain rfl : bs = as := List.append_cancel_left (hran.accesses.symm.trans h)
  exact ⟨hran.dir, hran.out⟩

/-- Two commands that end alike agree in everything but the latches of their operands and the read results. -/
theorem EndsAs.agree {i j : Instr} {dev : Descriptor} {ms : List Mark} {ps : List Phase} {e : Option ErrKind}
    {s t : State} (hi : EndsAs i dev ms ps e s) (hj : EndsAs j dev ms ps e s) (hexec : exec i s = .next t) :
    ∃ u, exec j s = .next u ∧ u.accesses = t.accesses ∧ u.phases = t.phases ∧ u.bus.dir = t.bus.dir ∧
      u.bus.out = t.bus.out ∧ u.regs.ok = t.regs.ok ∧ u.regs.err = t.regs.err := by
  obtain ⟨t', ht, hperf, hended⟩ := hi
  obtain ⟨u, hu, hperf', hended'⟩ := hj
  obtain rfl : t' = t := Host.Outcome.next.inj (ht.symm.trans hexec)
  obtain ⟨hdir, hout⟩ := exec_dir_out ht hperf.accesses
  obtain ⟨hdir', hout'⟩ := exec_dir_out hu hperf'.accesses
  obtain ⟨-, hok, herr⟩ := hended.flags
  obtain ⟨-, hok', herr'⟩ := hended'.flags
  exact ⟨u, hu, hperf'.accesses.trans hperf.accesses.symm, hperf'.phases.trans hperf.phases.symm,
    hdir'.trans hdir.symm, hout'.trans hout.symm, hok'.trans hok.symm, herr'.trans herr.symm⟩

/-- A failure in the terms of `EndsAs`; `P` is what else the statement about it says. -/
theorem EndsAs.of_failure {i : Instr} {dev : Descriptor} {ms : List Mark} {ps : List Phase} {e : Option ErrKind}
    {s : State} {P : State → Prop} (h : ∃ t, exec i s = .next t ∧ s.Performed dev ms ps t ∧ P t ∧ s.Ended i e t) :
    EndsAs i dev ms ps e s := by
  obtain ⟨t, hexec, hperf, -, hended⟩ := h
  exact ⟨t, hexec, hperf, hended⟩

/-- From `s` all commands on `dev` with the byte address `a` perform the same and end with the same `ERR`. -/
def EndAlike (dev : Descriptor) (a : Byte) (s : State) : Prop :=
  ∃ ms ps e, ∀ i, commandTarget i = some (dev, a) → i.wf s.cfg.nlines = true → EndsAs i dev ms ps e s

/-- R180, R218: in every environment, and whatever the engine does to the data line, PREFIX is answered in time or ends
every command alike. -/
theorem prefixAnswered_or_endAlike {s : State} (dev : Descriptor) (a : Byte) (hinv : s.Inv) :
    (s.bus.dirOf dev.sda = .float ∧ ∃ m0 m1 m2, prefixAnswered s dev.sda m0 m1 m2) ∨ EndAlike dev a s := by
  have hstuck (h : s.bus.dirOf dev.sda = .float → neverSeen s dev.sda true 0 s.cfg.tInit) : EndAlike dev a s :=
    ⟨_, _, _, fun i ht hw => .of_failure (busStuckLowFails i s dev a ht hinv hw h)⟩
  cases hf : s.bus.dirOf dev.sda with
  | drive => exact .inr (hstuck fun hfloat => by simp [hf] at hfloat)
  | float =>
    rcases seenAfter_or_neverSeen s dev.sda true 0 s.cfg.tInit with ⟨m0, hfree⟩ | hnever
    swap
    · exact .inr (hstuck fun _ => hnever)
    rcases seenAfter_or_neverSeen s dev.sda false (m0 + 35) s.cfg.tAck with ⟨m1, hdevice⟩ | hnever
    swap
    · exact .inr ⟨_, _, _, fun i ht hw => .of_failure (deviceAddressNoAck i s dev a m0 ht hinv hw hf hfree hnever)⟩
    rcases seenAfter_or_neverSeen s dev.sda false (m0 + m1 + 63) s.cfg.tAck with ⟨m2, haddress⟩ | hnever
    swap
    · exact .inr ⟨_, _, _, fun i ht hw =>
        .of_failure (byteAddressNoAck i s dev a m0 m1 ht hinv hw hf hfree hdevice hnever)⟩
    exact .inl ⟨rfl, m0, m1, m2, hfree, hdevice, haddress⟩

/-- R188(b): after PREFIX a page of one byte goes as its byte does. -/
theorem pageOfOne_after_prefix {s : State} {dev : Descriptor} (a d : Byte) (rest : List Byte) {m0 m1 m2 : Nat}
    (hinv : s.Inv) (hw : dev.wf s.cfg.nlines = true) (hf : s.bus.dirOf dev.sda = .float)
    (h : prefixAnswered s dev.sda m0 m1 m2) :
    ∃ ms ps e, EndsAs (.writePage dev a (d :: rest) 1) dev ms ps e s ∧ EndsAs (.writeByte dev a d) dev ms ps e s := by
  rcases seenAfter_or_neverSeen s dev.sda false (m0 + m1 + m2 + 91) s.cfg.tAck with ⟨m3, hdata⟩ | hnever
  · obtain ⟨t, ht⟩ := writePage_succeeds a (d :: rest) 1 m0 m1 m2 [m3] hinv hw (by simp) rfl hf h ⟨hdata, trivial⟩
    obtain ⟨u, hu⟩ := writeByte_succeeds a d m0 m1 m2 m3 hinv hw hf h hdata
    have hmarks : writtenMarks ((d :: rest).take 1) [m3] = frameMarks d ++ ackMarks m3 true := by simp
    rw [hmarks, ← List.append_assoc] at ht
    exact ⟨_, _, none, ⟨t, ht.next, ht.performed, ht.ended⟩, ⟨u, hu.next, hu.performed, hu.ended⟩⟩
  · obtain ⟨hbyte, hpage⟩ := dataByteNoAck
    have hfirst := hpage s dev a d [] rest 1 m0 m1 m2 [] hinv hw (by simp) (by simp) rfl hf h trivial hnever
    rw [writtenMarks_nil, List.append_nil] at hfirst
    exact ⟨_, _, _, .of_failure hfirst, .of_failure (hbyte s dev a d m0 m1 m2 hinv hw hf h hnever)⟩

/-- Settles O39: PREFIX is the same in both commands, and after it a page of one byte goes as its byte does. -/
theorem pageOfOneIsByte : Obligations.PageOfOneIsByte := by
  intro s t dev a d rest hinv hexec
  have hpage : (Instr.writePage dev a (d :: rest) 1).wf s.cfg.nlines = true :=
    ((exec_completes_iff_accepted _ s).1 ⟨t, hexec⟩).1
  obtain ⟨hw, -⟩ : dev.wf s.cfg.nlines = true ∧ 1 ≤ (d :: rest).length := by simpa [Instr.wf] using hpage
  rcases prefixAnswered_or_endAlike dev a hinv with ⟨hf, m0, m1, m2, h⟩ | ⟨ms, ps, e, h⟩
  · obtain ⟨ms, ps, e, hi, hj⟩ := pageOfOne_after_prefix a d rest hinv hw hf h
    exact hi.agree hj hexec
  · exact (h _ rfl hpage).agree (h (.writeByte dev a d) rfl hw) hexec

end Sys2Proof.Machine
